-- ==== Sys2Proof/Word.lean ====
section
/-! DEFINITION. The plain value types of the block: bytes and four-byte channel blocks.

The number domain `Num` of the spec (rule R6: exact rationals, no NaN, no infinity, no rounding) is Lean's `Rat`,
and `Int` of the spec (section 5.1 of 00_scope.md: unbounded mathematical integers) is Lean's `Int`; both are
written by those names throughout. -/

namespace Sys2Proof

/-- A `Byte` of the spec (00_scope.md section 5.1): an integer in 0..255, the source's `uint8`. -/
abbrev Byte := BitVec 8

/-- A channel block `[b0, b1, b2, b3]` in ascending register order (rules R50, R51): on-count low, on-count high,
off-count low, off-count high. -/
structure Block where
  b0 : Byte
  b1 : Byte
  b2 : Byte
  b3 : Byte
deriving DecidableEq, Repr, Inhabited

/-- The four bytes of a block as they go over the bus, lowest register first (rule R34). -/
def Block.toBytes (b : Block) : List Byte := [b.b0, b.b1, b.b2, b.b3]

end Sys2Proof
end

