-- ==== Sys2Proof/Config.lean ====
section
/-! DEFINITION. What an implementation fixes (the parameters of rule R5) and the free values of the bus.

A `Config` is carried in the state as data that no command changes, so that a claim about every state is a claim
about every admitted value of every OPEN parameter (log entry 3). The constants without a body are values nothing in
Lean can evaluate (log entries 4, 5, 8). -/

namespace Sys2Proof

/-- `ROUND_TIE` (rules R5, R7): what `round_T` does exactly half way between two integers. -/
inductive RoundTie where
  | halfEven
  | halfAway
  | halfUp
deriving DecidableEq, Repr, Inhabited

/-- `FLAG_POLARITY` (rules R5, R55, R58): which high byte's full-mask bit means off. `doc` is the spec's setting,
`native` the admitted alternative; the third combination (93_implementation_defined.md U2) has no name here. -/
inductive FlagPolarity where
  | doc
  | native
deriving DecidableEq, Repr, Inhabited

/-- The parameters of one Motor unit: `UNIT_NAME(u)`, `MOTOR_CH[u] = (a, b)` and the pair `CAL_INIT` gives it
(rules R5, R15, R172). -/
structure MotorParams where
  name  : String
  a     : Int
  b     : Int
  alpha : Rat
  beta  : Rat
deriving DecidableEq, Repr

/-- The five coefficients of a Servo unit (rule R17), all present. -/
structure ServoCal where
  alpha0  : Rat
  alpha1  : Rat
  beta    : Rat
  minDuty : Rat
  maxDuty : Rat
deriving DecidableEq, Repr

/-- The parameters of one Servo unit: `UNIT_NAME(u)`, `SERVO_CH[u]`, and either its five coefficients or nothing
from `CAL_INIT` (rules R5, R17, R172). -/
structure ServoParams where
  name : String
  ch   : Int
  cal  : Option ServoCal
deriving DecidableEq, Repr

/-- The parameters of rule R5. `NM` and `NS` are the lengths of the two unit lists. -/
structure Config where
  /-- `REF_CLOCK` in Hz. -/
  refClock   : Nat
  /-- `DEVICE_ADDR`, carried by every bus transaction (rules R30, R31; 90_conflicts.md C7). -/
  deviceAddr : Nat
  roundTie   : RoundTie
  polarity   : FlagPolarity
  motors     : List MotorParams
  servos     : List ServoParams
deriving DecidableEq, Repr

/-- What the transport answers to one transaction (rules R31, R33, R46): it fails, or it returns bytes. A write that
completes ignores the bytes; a read whose bytes are not as many as asked is a short read. -/
inductive BusAnswer where
  | fail
  | bytes (bs : List Byte)
deriving DecidableEq, Repr, Inhabited

/-- FREE VALUE (rule R33): the transport's answer to the k-th transaction of the machine's life. Nothing constrains
it. -/
opaque Config.busAnswer : Nat → BusAnswer

/-- FREE VALUE (rule R33, decision D31): whether the k-th transaction, a write that failed, stored its i-th byte all
the same. -/
opaque Config.storedAnyway : Nat → Nat → Bool

/-- OPEN parameter `DEVICE_ADDR` of the machine as `State.reset` makes it: the source gives no value (N4). -/
opaque Config.openDeviceAddr : Nat

/-- OPEN parameter `ROUND_TIE` of the machine as `State.reset` makes it: the source gives no tie rule (N3). -/
opaque Config.openRoundTie : RoundTie

/-- The parameters of the machine as `State.reset` makes it: the documented reference clock, the source's motor-pair
profile with its example document (rules R5, R15, R172), polarity `doc` (rule R55, decision D5). The channel pairs
(0, 1) and (2, 3) are those of program P6 of 95_test_vectors.md; `MOTOR_CH` is OPEN, and taking them here is this
model's choice (log entry 3). -/
def Config.documented : Config where
  refClock   := 25000000
  deviceAddr := Config.openDeviceAddr
  roundTie   := Config.openRoundTie
  polarity   := .doc
  motors     := [⟨"left_motor", 0, 1, 1, 0⟩, ⟨"right_motor", 2, 3, -1, 0⟩]
  servos     := []

end Sys2Proof
end

