-- ==== Sys2Proof/Syntax.lean ====
section
/-! DEFINITION. The whole syntax: calibration documents, the host's operand ports, what can be presented at the
host port, and `Instr`, one constructor per row of spec/opcode_table.json (22 commands, 7 channel-block patterns,
4 bytes of `SETFREQ`). -/

namespace Sys2Proof

/-- The fields of one unit in a calibration document: field name to number (rule R138). -/
abbrev DocFields := List (String × Rat)

/-- A calibration document that is a map: unit name to fields (rule R138). The list is a finite map: its keys do not
repeat (checked by `wellFormed`). -/
abbrev DocMap := List (String × DocFields)

/-- A calibration document as the block sees it (rule R138). -/
inductive CalDoc where
  | absent
  | malformed
  | map (m : DocMap)
deriving DecidableEq, Repr

/-- The host's typed operand ports (rule R64: "each operand a typed value ... carried on its own port"). A command
uses the ports its opcode names and leaves the others alone (log entry 6). -/
structure Ports where
  int0 : Int
  int1 : Int
  num0 : Rat
  num1 : Rat
  num2 : Rat
  chs  : List Int
  ds   : List Rat
  blk  : Block
  doc  : CalDoc
deriving DecidableEq, Repr

/-- The four writes of `SETFREQ`, by number (rule R63). -/
inductive SetfreqWrite where
  | w1
  | w2
  | w3
  | w4
deriving DecidableEq, Repr

/-- What can stand at the host port. `command` is the command format of rules R64, R65. The other three are the byte
formats of the table's remaining rows (LEDBLK32, MODE1BYTE8, PRESCALEBYTE8), each with the place of a command in
which the spec gives it: what the encoder produces, what the decoder is given, and which write of `SETFREQ`
(log entry 7). -/
inductive Presented where
  | command (op : Byte) (ports : Ports)
  | encodeOut (w : BitVec 32)
  | decodeIn (w : BitVec 32)
  | setfreqByte (k : SetfreqWrite) (b : Byte)
deriving DecidableEq, Repr

/-- The instructions: one constructor per row of spec/opcode_table.json, in the table's order. -/
inductive Instr where
  /-- `ENC d` (R70). -/
  | enc (d : Rat)
  /-- `DEC blk` (R71). -/
  | dec (blk : Block)
  /-- `SETFREQ hz` (R72). -/
  | setfreq (hz : Int)
  /-- `GETFREQ` (R73). -/
  | getfreq
  /-- `SETDC ch, d` (R74). -/
  | setdc (ch : Int) (d : Rat)
  /-- `GETDC ch` (R75). -/
  | getdc (ch : Int)
  /-- `SETRANGE start, n, ds` (R76). -/
  | setrange (start n : Int) (ds : List Rat)
  /-- `GETRANGE start, n` (R77). -/
  | getrange (start n : Int)
  /-- `SETLIST n, chs, ds` (R78). -/
  | setlist (n : Int) (chs : List Int) (ds : List Rat)
  /-- `GETLIST n, chs` (R79). -/
  | getlist (n : Int) (chs : List Int)
  /-- `MLEGS u, speed` (R100). -/
  | mlegs (u : Int) (speed : Rat)
  /-- `MSET u, speed` (R101). -/
  | mset (u : Int) (speed : Rat)
  /-- `MWR u, f, v` (R102). -/
  | mwr (u f : Int) (v : Rat)
  /-- `MRD u, f` (R103). -/
  | mrd (u f : Int)
  /-- `SCONFIG u, min_w, center_w, max_w` (R115). -/
  | sconfig (u : Int) (minW centerW maxW : Rat)
  /-- `SDUTY u, pos` (R116). -/
  | sduty (u : Int) (pos : Rat)
  /-- `SSET u, pos` (R117). -/
  | sset (u : Int) (pos : Rat)
  /-- `SREV u` (R118). -/
  | srev (u : Int)
  /-- `SWR u, f, v` (R119). -/
  | swr (u f : Int) (v : Rat)
  /-- `SRD u, f` (R120). -/
  | srd (u f : Int)
  /-- `CALLOAD doc` (R135). -/
  | calload (doc : CalDoc)
  /-- `CALSAVE` (R136). -/
  | calsave
  /-- `BLK.ENC.LINEAR` (R54): the linear block of the off-count `n`. -/
  | blkEncLinear (n : BitVec 12)
  /-- `BLK.ENC.FULLON` (R56). -/
  | blkEncFullOn
  /-- `BLK.ENC.FULLOFF.doc` (R55). -/
  | blkEncFullOffDoc
  /-- `BLK.ENC.FULLOFF.native` (R55, R58). -/
  | blkEncFullOffNative
  /-- `BLK.DEC.FOFF` (R57): reserved bits 31:29, off bits, reserved bits 15:13, `FON`, on bits. -/
  | blkDecFoff (rHi : BitVec 3) (f : BitVec 12) (rLo : BitVec 3) (fon : Bool) (n : BitVec 12)
  /-- `BLK.DEC.FON` (R57): reserved bits 31:29, off bits, reserved bits 15:13, on bits. -/
  | blkDecFon (rHi : BitVec 3) (f : BitVec 12) (rLo : BitVec 3) (n : BitVec 12)
  /-- `BLK.DEC.LINEAR` (R57): reserved bits 31:29, off-count, reserved bits 15:13, on-count. -/
  | blkDecLinear (rHi : BitVec 3) (f : BitVec 12) (rLo : BitVec 3) (n : BitVec 12)
  /-- `SETFREQ.W1.MODE1` (R63): `0EA1xyzc`, the bits as read but `RESTART` 0 and `SLEEP` 1. -/
  | setfreqW1 (extclk autoInc sub1 sub2 sub3 allcall : Bool)
  /-- `SETFREQ.W3.MODE1` (R63): `REASxyzc`, all bits as read. -/
  | setfreqW3 (restart extclk autoInc sleep sub1 sub2 sub3 allcall : Bool)
  /-- `SETFREQ.W4.MODE1` (R63): `RE1Sxyzc`, the bits as read but `AUTO_INCREMENT` 1. -/
  | setfreqW4 (restart extclk sleep sub1 sub2 sub3 allcall : Bool)
  /-- `SETFREQ.W2.PRESCALE` (R63): the prescale byte. -/
  | setfreqW2 (p : Byte)
deriving DecidableEq, Repr

end Sys2Proof
end

