-- ==== Sys2Proof/WellFormed.lean ====
section
/-! DEFINITION. Which terms of `Instr` stand for something the spec's formats can carry. Integer and `Num` operands
are unrestricted (decision D4: out-of-range values can be presented, and the rules' own checks report them). -/

namespace Sys2Proof

/-- No key twice: the list is a finite map (rule R138). -/
def keysDistinct {α : Type} (m : List (String × α)) : Bool := decide (m.map Prod.fst).Nodup

/-- A document that is a map of maps, or `absent`, or `malformed` (rule R138). -/
def docWellFormed : CalDoc → Bool
  | .absent => true
  | .malformed => true
  | .map m => keysDistinct m && m.all fun p => keysDistinct p.2

/-- Well-formedness of an instruction: a document operand is a finite map of finite maps (rule R138), and the
linear encoder row carries a count in 1..4095 (rule R54). -/
def wellFormed : Instr → Bool
  | .enc _ => true
  | .dec _ => true
  | .setfreq _ => true
  | .getfreq => true
  | .setdc _ _ => true
  | .getdc _ => true
  | .setrange _ _ _ => true
  | .getrange _ _ => true
  | .setlist _ _ _ => true
  | .getlist _ _ => true
  | .mlegs _ _ => true
  | .mset _ _ => true
  | .mwr _ _ _ => true
  | .mrd _ _ => true
  | .sconfig _ _ _ _ => true
  | .sduty _ _ => true
  | .sset _ _ => true
  | .srev _ => true
  | .swr _ _ _ => true
  | .srd _ _ => true
  | .calload doc => docWellFormed doc
  | .calsave => true
  | .blkEncLinear n => decide (1 ≤ n.toNat)
  | .blkEncFullOn => true
  | .blkEncFullOffDoc => true
  | .blkEncFullOffNative => true
  | .blkDecFoff _ _ _ _ _ => true
  | .blkDecFon _ _ _ _ => true
  | .blkDecLinear _ _ _ _ => true
  | .setfreqW1 _ _ _ _ _ _ => true
  | .setfreqW3 _ _ _ _ _ _ _ _ => true
  | .setfreqW4 _ _ _ _ _ _ _ => true
  | .setfreqW2 _ => true

end Sys2Proof
end

