-- ==== Sys2Proof/Decode.lean ====
section
/-! DEFINITION. The decoder from what stands at the host port to an instruction, total, rejecting by name; and the
encoder, written from the same tables (rules R50, R57, R63, R65 and spec/opcode_table.json).

Only the opcode byte of a command has a bit pattern (rule R64); its operands come on typed ports. The eleven rows
that are not commands are formats of 8 and 32 bits whose words overlap each other and the opcodes, so the place a
word stands in (`Presented`) is part of what is decoded (log entry 7). -/

namespace Sys2Proof

/-- Why the decoder gives no instruction. -/
inductive DecodeError where
  /-- An opcode that rule R65 does not list. -/
  | reservedOpcode
  /-- A document operand in which a key stands twice: no map, so no document (rule R138). -/
  | notAMap
  /-- A word that is no instance of the table's rows for its place. -/
  | notARow
deriving DecidableEq, Repr

/-- All operand ports at zero: the words of zeros that stand where a command has no operand. -/
def Ports.idle : Ports where
  int0 := 0
  int1 := 0
  num0 := 0
  num1 := 0
  num2 := 0
  chs  := []
  ds   := []
  blk  := ⟨0, 0, 0, 0⟩
  doc  := .absent

/-- The opcode map of rule R65. -/
def decodeCommand (op : Byte) (p : Ports) : Except DecodeError Instr :=
  match op.toNat with
  | 0x00 => .ok (.enc p.num0)
  | 0x01 => .ok (.dec p.blk)
  | 0x02 => .ok (.setfreq p.int0)
  | 0x03 => .ok .getfreq
  | 0x04 => .ok (.setdc p.int0 p.num0)
  | 0x05 => .ok (.getdc p.int0)
  | 0x06 => .ok (.setrange p.int0 p.int1 p.ds)
  | 0x07 => .ok (.getrange p.int0 p.int1)
  | 0x08 => .ok (.setlist p.int0 p.chs p.ds)
  | 0x09 => .ok (.getlist p.int0 p.chs)
  | 0x10 => .ok (.mlegs p.int0 p.num0)
  | 0x11 => .ok (.mset p.int0 p.num0)
  | 0x12 => .ok (.mwr p.int0 p.int1 p.num0)
  | 0x13 => .ok (.mrd p.int0 p.int1)
  | 0x20 => .ok (.sconfig p.int0 p.num0 p.num1 p.num2)
  | 0x21 => .ok (.sduty p.int0 p.num0)
  | 0x22 => .ok (.sset p.int0 p.num0)
  | 0x23 => .ok (.srev p.int0)
  | 0x24 => .ok (.swr p.int0 p.int1 p.num0)
  | 0x25 => .ok (.srd p.int0 p.int1)
  | 0x30 => if docWellFormed p.doc then .ok (.calload p.doc) else .error .notAMap
  | 0x31 => .ok .calsave
  | _ => .error .reservedOpcode

/-- The `BLK.ENC.*` rows of the table: what the encoder can produce. The word of the linear row with count 4095 is
the full-on word (rule R56) and reads as the full-on row. -/
def decodeEncodeOut (w : BitVec 32) : Except DecodeError Instr :=
  if w = 0x0FFF0000#32 then .ok .blkEncFullOn
  else if w = 0x00001000#32 then .ok .blkEncFullOffDoc
  else if w = 0x10000000#32 then .ok .blkEncFullOffNative
  else if w &&& 0xF000FFFF#32 = 0#32 ∧ w.extractLsb' 16 12 ≠ 0#12 then .ok (.blkEncLinear (w.extractLsb' 16 12))
  else .error .notARow

/-- The `BLK.DEC.*` rows of the table: the classes of the decoder, tested in the order of rule R57. Every word is in
one of them. -/
def decodeDecodeIn (w : BitVec 32) : Instr :=
  if w.getLsbD 28 then
    .blkDecFoff (w.extractLsb' 29 3) (w.extractLsb' 16 12) (w.extractLsb' 13 3) (w.getLsbD 12) (w.extractLsb' 0 12)
  else if w.getLsbD 12 then
    .blkDecFon (w.extractLsb' 29 3) (w.extractLsb' 16 12) (w.extractLsb' 13 3) (w.extractLsb' 0 12)
  else
    .blkDecLinear (w.extractLsb' 29 3) (w.extractLsb' 16 12) (w.extractLsb' 13 3) (w.extractLsb' 0 12)

/-- The `SETFREQ.W*` rows of the table, by the number of the write (rule R63). -/
def decodeSetfreqByte (k : SetfreqWrite) (b : Byte) : Except DecodeError Instr :=
  match k with
  | .w1 =>
    if b.getLsbD 7 = false ∧ b.getLsbD 4 = true then
      .ok (.setfreqW1 (b.getLsbD 6) (b.getLsbD 5) (b.getLsbD 3) (b.getLsbD 2) (b.getLsbD 1) (b.getLsbD 0))
    else .error .notARow
  | .w2 => .ok (.setfreqW2 b)
  | .w3 =>
    .ok (.setfreqW3 (b.getLsbD 7) (b.getLsbD 6) (b.getLsbD 5) (b.getLsbD 4) (b.getLsbD 3) (b.getLsbD 2)
      (b.getLsbD 1) (b.getLsbD 0))
  | .w4 =>
    if b.getLsbD 5 = true then
      .ok (.setfreqW4 (b.getLsbD 7) (b.getLsbD 6) (b.getLsbD 4) (b.getLsbD 3) (b.getLsbD 2) (b.getLsbD 1)
        (b.getLsbD 0))
    else .error .notARow

/-- The decoder: what stands at the host port, read as an instruction or rejected by name. -/
def decode : Presented → Except DecodeError Instr
  | .command op ports => decodeCommand op ports
  | .encodeOut w => decodeEncodeOut w
  | .decodeIn w => .ok (decodeDecodeIn w)
  | .setfreqByte k b => decodeSetfreqByte k b

/-- The byte with these eight bits, bit 7 first: `MODE1` as rule R19 lays it out (`RESTART`, `EXTCLK`,
`AUTO_INCREMENT`, `SLEEP`, `SUB1`, `SUB2`, `SUB3`, `ALLCALL`). -/
def mode1Byte (restart extclk autoInc sleep sub1 sub2 sub3 allcall : Bool) : Byte :=
  BitVec.ofBool restart ++ BitVec.ofBool extclk ++ BitVec.ofBool autoInc ++ BitVec.ofBool sleep ++
    BitVec.ofBool sub1 ++ BitVec.ofBool sub2 ++ BitVec.ofBool sub3 ++ BitVec.ofBool allcall

/-- A channel-block word from its six fields, bit 31 first (rule R50). -/
def blockWord (rHi : BitVec 3) (foff : Bool) (off : BitVec 12) (rLo : BitVec 3) (fon : Bool) (on : BitVec 12) :
    BitVec 32 :=
  rHi ++ BitVec.ofBool foff ++ off ++ rLo ++ BitVec.ofBool fon ++ on

/-- The block whose word is `w`: `W = b0 | b1<<8 | b2<<16 | b3<<24` (rule R50). -/
def blockOfWord (w : BitVec 32) : Block :=
  ⟨w.extractLsb' 0 8, w.extractLsb' 8 8, w.extractLsb' 16 8, w.extractLsb' 24 8⟩

/-- The encoder: the word of an instruction in its place, unused ports at zero. -/
def encode : Instr → Presented
  | .enc d => .command 0x00 { Ports.idle with num0 := d }
  | .dec blk => .command 0x01 { Ports.idle with blk := blk }
  | .setfreq hz => .command 0x02 { Ports.idle with int0 := hz }
  | .getfreq => .command 0x03 Ports.idle
  | .setdc ch d => .command 0x04 { Ports.idle with int0 := ch, num0 := d }
  | .getdc ch => .command 0x05 { Ports.idle with int0 := ch }
  | .setrange start n ds => .command 0x06 { Ports.idle with int0 := start, int1 := n, ds := ds }
  | .getrange start n => .command 0x07 { Ports.idle with int0 := start, int1 := n }
  | .setlist n chs ds => .command 0x08 { Ports.idle with int0 := n, chs := chs, ds := ds }
  | .getlist n chs => .command 0x09 { Ports.idle with int0 := n, chs := chs }
  | .mlegs u speed => .command 0x10 { Ports.idle with int0 := u, num0 := speed }
  | .mset u speed => .command 0x11 { Ports.idle with int0 := u, num0 := speed }
  | .mwr u f v => .command 0x12 { Ports.idle with int0 := u, int1 := f, num0 := v }
  | .mrd u f => .command 0x13 { Ports.idle with int0 := u, int1 := f }
  | .sconfig u minW centerW maxW =>
    .command 0x20 { Ports.idle with int0 := u, num0 := minW, num1 := centerW, num2 := maxW }
  | .sduty u pos => .command 0x21 { Ports.idle with int0 := u, num0 := pos }
  | .sset u pos => .command 0x22 { Ports.idle with int0 := u, num0 := pos }
  | .srev u => .command 0x23 { Ports.idle with int0 := u }
  | .swr u f v => .command 0x24 { Ports.idle with int0 := u, int1 := f, num0 := v }
  | .srd u f => .command 0x25 { Ports.idle with int0 := u, int1 := f }
  | .calload doc => .command 0x30 { Ports.idle with doc := doc }
  | .calsave => .command 0x31 Ports.idle
  | .blkEncLinear n => .encodeOut (blockWord 0 false n 0 false 0)
  | .blkEncFullOn => .encodeOut 0x0FFF0000#32
  | .blkEncFullOffDoc => .encodeOut 0x00001000#32
  | .blkEncFullOffNative => .encodeOut 0x10000000#32
  | .blkDecFoff rHi f rLo fon n => .decodeIn (blockWord rHi true f rLo fon n)
  | .blkDecFon rHi f rLo n => .decodeIn (blockWord rHi false f rLo true n)
  | .blkDecLinear rHi f rLo n => .decodeIn (blockWord rHi false f rLo false n)
  | .setfreqW1 extclk autoInc sub1 sub2 sub3 allcall =>
    .setfreqByte .w1 (mode1Byte false extclk autoInc true sub1 sub2 sub3 allcall)
  | .setfreqW3 restart extclk autoInc sleep sub1 sub2 sub3 allcall =>
    .setfreqByte .w3 (mode1Byte restart extclk autoInc sleep sub1 sub2 sub3 allcall)
  | .setfreqW4 restart extclk sleep sub1 sub2 sub3 allcall =>
    .setfreqByte .w4 (mode1Byte restart extclk true sleep sub1 sub2 sub3 allcall)
  | .setfreqW2 p => .setfreqByte .w2 p

/-- What stands at the host port for the table's word `w` of `nbits` bits with operand words of zeros. Eight bits are
a command byte. Thirty-two bits are a channel block: read as the encoder's output where it is one of the encoder's
rows, and as the decoder's input otherwise (log entry 7). -/
def tableWord (nbits w : Nat) : Presented :=
  if nbits = 32 then
    match decodeEncodeOut (BitVec.ofNat 32 w) with
    | .ok _ => .encodeOut (BitVec.ofNat 32 w)
    | .error _ => .decodeIn (BitVec.ofNat 32 w)
  else .command (BitVec.ofNat 8 w) Ports.idle

/-- The instruction the decoder reads from the table's word `w` of `nbits` bits. -/
def decodeTableWord (nbits w : Nat) : Option Instr :=
  match decode (tableWord nbits w) with
  | .ok i => some i
  | .error _ => none

end Sys2Proof
end

