-- ==== Sys2Proof/Machine/State.lean ====
section
/-! DEFINITION. The state of the machine as plain data (rule R10), what a command can answer (rule R9), and reset
(rules R25, R170, R172). -/

namespace Sys2Proof.Machine

/-- Why the machine stops with a fault: never. Every error of the spec is taken as rule R151 describes it, a next
state with the fault latch set, and rule R187 knows no other stop; so this type has no constructor. -/
inductive Fault where
deriving DecidableEq, Repr

/-- Why a step has no meaning. -/
inductive Refusal where
  /-- Raised by `exec` for a row of the opcode table that has no meaning yet (none at present). Safe. -/
  | notModelled (mnemonic : String)
  /-- Raised by `step` when what stands at the host port is no encoding at all: a word that is no instance of a table
  row in the place it is presented in, or a document operand that is no map. A reserved opcode is NOT this: the spec
  says what it does. Safe. -/
  | notAnEncoding
deriving DecidableEq, Repr

/-- The five coefficient registers of a Servo unit (rule R17). -/
inductive ServoField where
  | alpha0
  | alpha1
  | beta
  | minDuty
  | maxDuty
deriving DecidableEq, Repr

/-- The registers that can be unset (rule R13), and a byte of the reference register file that was never written
(rule R45). -/
inductive RegName where
  | drvFreq
  | motorValue (u : Nat)
  | servo (u : Nat) (f : ServoField)
  | chip (addr : Nat)
deriving DecidableEq, Repr

/-- The closed list of reasons for a refusal (rule R153). -/
inductive Reason where
  | faulted
  | reservedOpcode
  | noSuchUnit
  | noSuchRegister
  | unset (r : RegName)
deriving DecidableEq, Repr

/-- The shape of a bulk operand (rule R81): the count, and the length of each list the command has. -/
structure Shape where
  n   : Int
  chs : Option Nat
  ds  : Option Nat
deriving DecidableEq, Repr

/-- Why the transport failed a transaction: opaque, or a read of the wrong length (rules R46, R149). -/
inductive TransportInfo where
  | opaque
  | shortRead
deriving DecidableEq, Repr

/-- An error with its recorded info (rule R145): the class is `ErrorInfo.cls`. -/
inductive ErrorInfo where
  /-- `AddressingError`: the offending channel. -/
  | channel (ch : Int)
  /-- `AddressingError`: the offending range. -/
  | channelRange (start n : Int)
  /-- `ValueError`: the offending duty cycle. -/
  | duty (d : Rat)
  /-- `ValueError`: the offending frequency. -/
  | freq (hz : Int)
  /-- `ValueError`: the offending prescale value. -/
  | prescale (p : Int)
  /-- `TypeError`: the shape. -/
  | shape (sh : Shape)
  /-- `TransportError`: why, and the index of the failed transaction in the trace. -/
  | transport (why : TransportInfo) (index : Nat)
  /-- `ConfigError(absent)`. -/
  | docAbsent
  /-- `ConfigError(malformed)`. -/
  | docMalformed
  /-- `ConfigError(missing, unit)`. -/
  | docMissingUnit (unit : String)
  /-- `ConfigError(missing, unit, field)`. -/
  | docMissingField (unit field : String)
deriving DecidableEq, Repr

/-- What the fault latch `DRV.fault` records (rule R12): an error, or a refusal (code 6). -/
inductive Latched where
  | error (e : ErrorInfo)
  | refused (r : Reason)
deriving DecidableEq, Repr

/-- The result of a command (rule R65's result column). -/
inductive Result where
  | none
  | block (b : Block)
  | int (n : Int)
  | num (x : Rat)
  | nums (xs : List Rat)
  | legs (a b : Rat)
  | doc (m : DocMap)
deriving DecidableEq, Repr

/-- What the block returns to the host (rule R9): the three outcomes, kept apart. -/
inductive Response where
  | ok (r : Result)
  | error (e : ErrorInfo)
  | refused (r : Reason)
deriving DecidableEq, Repr

/-- The registers of a Motor unit `M[u]` (rules R15, R16), with the unit's document key `UNIT_NAME(u)`. `value` is
`none` while it is unset (rule R13). -/
structure Motor where
  name  : String
  a     : Int
  b     : Int
  alpha : Rat
  beta  : Rat
  value : Option Rat
deriving DecidableEq, Repr

/-- The registers of a Servo unit `S[u]` (rule R17), with the unit's document key. A coefficient is `none` while it is
unset (rule R13). -/
structure Servo where
  name    : String
  ch      : Int
  alpha0  : Option Rat
  alpha1  : Option Rat
  beta    : Option Rat
  minDuty : Option Rat
  maxDuty : Option Rat
deriving DecidableEq, Repr

/-- One transaction of the bus trace (rule R32): `W(reg, bs)`, `R(reg, n, result)`, `W!(reg, bs)`, `R!(reg, n)`, each
with the device address it carries (rules R30, R31; 90_conflicts.md C7). -/
inductive Xact where
  | write (dev reg : Nat) (bs : List Byte)
  | read (dev reg n : Nat) (result : List Byte)
  | writeFailed (dev reg : Nat) (bs : List Byte)
  | readFailed (dev reg n : Nat)
deriving DecidableEq, Repr

/-- The chip's register file as far as it was written: the reference register file `RF` of rule R45, a partial map from
register address to byte, as (address, byte) pairs with the addresses strictly rising. An unlisted address holds no
known value. -/
abbrev Memory := List Host.Cell

/-- Where the answer to one transaction comes from: a given answer of the transport, or the reference register file
(rules R33, R45). -/
inductive BusTurn where
  | answer (a : BusAnswer)
  | file
deriving DecidableEq, Repr

/-- Who answers once the given answers are used up: the transport, freely (rule R33), or the reference register file
(rule R45, a simulator only). -/
inductive BusMode where
  | free
  | reference
deriving DecidableEq, Repr

/-- A move of the host (rule R188): present a command, or reset the block, supplying the parameters and `CAL_INIT`. -/
inductive HostMove where
  | present (p : Presented)
  | reset (cfg : Config)
deriving DecidableEq, Repr

/-- The state of the machine. The first five fields are the block's registers and parameters, `chip` the register
file behind the bus, `trace` and `cmdidx` the spec's bookkeeping (rule R10); `resp` is the outcome last returned to
the host (rule R9); the last four are the environment: what the host will present, and what the transport will
answer. -/
structure State where
  /-- The parameters of rule R5, as the last reset supplied them (rule R188). -/
  cfg      : Config
  /-- `DRV.freq` (rule R14), `none` while unset. -/
  freq     : Option Int
  /-- `DRV.fault`, the fault latch (rule R12). -/
  latch    : Option Latched
  /-- `M[0..NM-1]` (rules R15, R16). -/
  motors   : List Motor
  /-- `S[0..NS-1]` (rule R17). -/
  servos   : List Servo
  /-- The chip's register file as written (rules R23, R45). -/
  chip     : Memory
  /-- The bus trace since reset, oldest first (rule R32). -/
  trace    : List Xact
  /-- The number of commands that ended with `ok` since reset (rule R11). -/
  cmdidx   : Nat
  /-- The outcome of the last command, `none` before the first (rule R9). -/
  resp     : Option Response
  /-- What the host will present, first move first (rules R9, R188). -/
  host     : List HostMove
  /-- Who answers a transaction that has no given answer. -/
  busMode  : BusMode
  /-- Given answers for the next transactions, first one first (rule R33). -/
  turns    : List BusTurn
  /-- The MODEL's own counter of transactions over the machine's life; it numbers the free answers. -/
  busCount : Nat
deriving DecidableEq, Repr

/-- A Motor unit right after reset (rule R25): `value` unset. -/
def Motor.atReset (p : MotorParams) : Motor := ⟨p.name, p.a, p.b, p.alpha, p.beta, none⟩

/-- A Servo unit right after reset (rule R25): its coefficients from `CAL_INIT`, or all unset. -/
def Servo.atReset (p : ServoParams) : Servo :=
  ⟨p.name, p.ch, p.cal.map (·.alpha0), p.cal.map (·.alpha1), p.cal.map (·.beta), p.cal.map (·.minDuty),
    p.cal.map (·.maxDuty)⟩

/-- The machine right after reset with the parameters `cfg` (rules R25, R170): nothing written to the chip, nothing
presented, every bus answer free. -/
def State.resetWith (cfg : Config) : State where
  cfg      := cfg
  freq     := none
  latch    := none
  motors   := cfg.motors.map Motor.atReset
  servos   := cfg.servos.map Servo.atReset
  chip     := []
  trace    := []
  cmdidx   := 0
  resp     := none
  host     := []
  busMode  := .free
  turns    := []
  busCount := 0

/-- The machine right after reset, with the documented parameters (rules R5, R15, R25). -/
def State.reset : State := State.resetWith Config.documented

end Sys2Proof.Machine
end

