-- ==== Sys2Proof/Machine/Flags.lean ====
section
/-! DEFINITION. Flag bits and codes. The block has no condition flags (rule R12); its flag-like bits are the eight
fields of `MODE1` (rule R19), the two full-mask bits of a channel block (rule R50), and its one status register is the
fault latch with the codes of rule R145. -/

namespace Sys2Proof.Machine

/-- The masks of the `MODE1` fields (rule R19). -/
def mode1Restart : Byte := 0x80
def mode1ExtClk : Byte := 0x40
def mode1AutoIncrement : Byte := 0x20
def mode1Sleep : Byte := 0x10
def mode1Sub1 : Byte := 0x08
def mode1Sub2 : Byte := 0x04
def mode1Sub3 : Byte := 0x02
def mode1AllCall : Byte := 0x01

/-- Write 1 of `SETFREQ` (rule R63): `SLEEP` set and `RESTART` cleared. -/
def sleepByte (old : Byte) : Byte := (old &&& 0x7F) ||| mode1Sleep

/-- Write 4 of `SETFREQ` (rule R63, decision D11): `AUTO_INCREMENT` set, the other bits as read. -/
def wakeByte (old : Byte) : Byte := old ||| mode1AutoIncrement

/-- The full-mask bit of a high byte (rule R50): mask 0x10. -/
def fullMask : Byte := 0x10

/-- `FON`: the full-mask bit of the "on" high byte (rule R50). -/
def fonBit (b : Block) : Bool := (b.b1 &&& fullMask) != 0

/-- `FOFF`: the full-mask bit of the "off" high byte (rule R50). -/
def foffBit (b : Block) : Bool := (b.b3 &&& fullMask) != 0

/-- The five error classes of rule R145. -/
inductive ErrorClass where
  | addressing
  | value
  | type
  | transport
  | config
deriving DecidableEq, Repr

/-- The class of an error (rule R145). -/
def errorClass : ErrorInfo → ErrorClass
  | .channel _ => .addressing
  | .channelRange _ _ => .addressing
  | .duty _ => .value
  | .freq _ => .value
  | .prescale _ => .value
  | .shape _ => .type
  | .transport _ _ => .transport
  | .docAbsent => .config
  | .docMalformed => .config
  | .docMissingUnit _ => .config
  | .docMissingField _ _ => .config

/-- The numeric code of a class (rule R145, decision D7). -/
def ErrorClass.code : ErrorClass → Nat
  | .addressing => 1
  | .value => 2
  | .type => 3
  | .transport => 4
  | .config => 5

/-- The code in the fault latch (rules R12, R145): 0 when it is clear, 6 for a refusal. -/
def latchCode : Option Latched → Nat
  | none => 0
  | some (.error e) => (errorClass e).code
  | some (.refused _) => 6

end Sys2Proof.Machine
end

