-- ==== Sys2Proof/Machine/Operands.lean ====
section
/-! DEFINITION. Operand arithmetic: `round_T`, `clamp`, the channel address, the channel-block encoder and decoder,
bulk shapes, unit and field numbers. -/

namespace Sys2Proof.Machine

/-- `round_T(x)` (rule R7): the nearest integer, a tie decided by `ROUND_TIE`. -/
def roundT (t : RoundTie) (x : Rat) : Int :=
  if x - (x.floor : Rat) < 1 / 2 then x.floor
  else if x - (x.floor : Rat) > 1 / 2 then x.floor + 1
  else
    match t with
    | .halfEven => if x.floor % 2 = 0 then x.floor else x.floor + 1
    | .halfAway => if x < 0 then x.floor else x.floor + 1
    | .halfUp => x.floor + 1

/-- `clamp(x, lo, hi)` (rule R8), the tests in that order. -/
def clamp (x lo hi : Rat) : Rat := if x < lo then lo else if x > hi then hi else x

/-- The base of channel 0's block, `LED0_ON_L` (rule R18). -/
def led0OnL : Nat := 0x06

/-- `MODE1`'s register address (rule R18). -/
def regMode1 : Nat := 0x00

/-- `PRESCALE`'s register address (rule R18). -/
def regPrescale : Nat := 0xFE

/-- `0x06 + 4*ch`, the address of a channel's block (rule R52), for a channel that is in range. -/
def blockBase (ch : Int) : Nat := led0OnL + 4 * ch.toNat

/-- `0 <= ch <= 15` (rule R52). -/
def channelOk (ch : Int) : Bool := decide (0 ≤ ch ∧ ch ≤ 15)

/-- `BlockAddr(ch)` (rule R52). -/
def blockAddr (ch : Int) : Except ErrorInfo Nat :=
  if channelOk ch then .ok (blockBase ch) else .error (.channel ch)

/-- `intCycle(d) = round_T(d * 4096)` (rule R53). -/
def intCycle (t : RoundTie) (d : Rat) : Int := roundT t (d * 4096)

/-- `FULL_OFF_BLK` (rules R55, R58). -/
def fullOffBlock : FlagPolarity → Block
  | .doc => ⟨0x00, 0x10, 0x00, 0x00⟩
  | .native => ⟨0x00, 0x00, 0x00, 0x10⟩

/-- The full-on pattern (rule R56), the same under both polarities. -/
def fullOnBlock : Block := ⟨0x00, 0x00, 0xFF, 0x0F⟩

/-- The linear block of the off-count `n` (rule R54): on-count 0, `n` little-endian, upper nibble masked. -/
def linearBlock (n : Nat) : Block := ⟨0x00, 0x00, BitVec.ofNat 8 n, BitVec.ofNat 8 (n >>> 8) &&& 0x0F⟩

/-- The block `Encode` gives for the count `n` (rule R54). -/
def blockOfCount (p : FlagPolarity) (n : Int) : Block :=
  if n = 0 then fullOffBlock p else if n = 4096 then fullOnBlock else linearBlock n.toNat

/-- The contract `0 <= d <= 1` on a duty cycle, both bounds included (rule R54; 90_conflicts.md C3). -/
def dutyOk (d : Rat) : Bool := decide (0 ≤ d ∧ d ≤ 1)

/-- `Encode(d)` without its range check. -/
def encodedBlock (cfg : Config) (d : Rat) : Block := blockOfCount cfg.polarity (intCycle cfg.roundTie d)

/-- `Encode(d)` (rule R54). -/
def encodeDuty (cfg : Config) (d : Rat) : Except ErrorInfo Block :=
  if dutyOk d then .ok (encodedBlock cfg d) else .error (.duty d)

/-- What a block with `FOFF` set decodes to (rules R57, R58). -/
def foffValue : FlagPolarity → Rat
  | .doc => 1
  | .native => 0

/-- What a block with `FON` set and `FOFF` clear decodes to (rules R57, R58). -/
def fonValue : FlagPolarity → Rat
  | .doc => 0
  | .native => 1

/-- The linear case of `Decode` on the two counts (rules R57, R60). -/
def linearValue (on off : Nat) : Rat := ((off : Rat) - (on : Rat)) / 4096

/-- The on-count of a block, reserved bits ignored (rules R57, R59). -/
def onCount (b : Block) : Nat := b.b0.toNat + 256 * (b.b1 &&& 0x0F).toNat

/-- The off-count of a block, reserved bits ignored (rules R57, R59). -/
def offCount (b : Block) : Nat := b.b2.toNat + 256 * (b.b3 &&& 0x0F).toNat

/-- `Decode` (rules R57, R58): the `FOFF` test first, then `FON`, then the linear case. Total. -/
def decodeBlock (p : FlagPolarity) (b : Block) : Rat :=
  if foffBit b then foffValue p
  else if fonBit b then fonValue p
  else linearValue (onCount b) (offCount b)

/-- The block made of the first four bytes of a list. -/
def blockOfBytes (bs : List Byte) : Block := ⟨bs.getD 0 0, bs.getD 1 0, bs.getD 2 0, bs.getD 3 0⟩

/-- `Decode(bs[4*i : 4*i+4])` for `i = 0..n-1` (rule R62). -/
def decodePieces (p : FlagPolarity) (bs : List Byte) (n : Nat) : List Rat :=
  (List.range n).map fun i => decodeBlock p (blockOfBytes (bs.drop (4 * i)))

/-- The burst payload `Encode(ds[0]) ++ ... ++ Encode(ds[n-1])`, failing at the first bad duty cycle (rules R62,
R76). -/
def encodeBurst (cfg : Config) : List Rat → Except ErrorInfo (List Byte)
  | [] => .ok []
  | d :: ds =>
    match encodeDuty cfg d with
    | .error e => .error e
    | .ok b =>
      match encodeBurst cfg ds with
      | .error e => .error e
      | .ok bs => .ok (b.toBytes ++ bs)

/-- A range lies in the channels 0..15 (rules R76, R77). -/
def rangeOk (start n : Int) : Bool := decide (0 ≤ start ∧ start + n - 1 ≤ 15)

/-- A bulk shape is supported (rule R81): the count at least 1 and every list as long as the count. -/
def shapeOk (sh : Shape) : Bool :=
  decide (1 ≤ sh.n) && (sh.chs.all fun k => decide ((k : Int) = sh.n)) &&
    (sh.ds.all fun k => decide ((k : Int) = sh.n))

/-- The prescale value `round_T(REF_CLOCK / 4096 / hz)` (rule R72). -/
def prescaleOf (cfg : Config) (hz : Int) : Int := roundT cfg.roundTie ((cfg.refClock : Rat) / 4096 / (hz : Rat))

/-- The legs of a Motor (rule R100) for `v = clamp(speed*alpha + beta, -1, 1)`. -/
def legsOf (v : Rat) : Rat × Rat := if v > 0 then (0, v) else (-v, 0)

/-- `v` of rule R100. -/
def motorDrive (alpha beta speed : Rat) : Rat := clamp (speed * alpha + beta) (-1) 1

/-- The Motor registers by their field number (rule R17's table). -/
inductive MotorField where
  | alpha
  | beta
  | value
deriving DecidableEq, Repr

/-- Motor field numbers (rule R17's table). -/
def motorField? (f : Int) : Option MotorField :=
  if f = 0 then some .alpha else if f = 1 then some .beta else if f = 2 then some .value else none

/-- Servo field numbers (rule R17's table). -/
def servoField? (f : Int) : Option ServoField :=
  if f = 0 then some .alpha0
  else if f = 1 then some .alpha1
  else if f = 2 then some .beta
  else if f = 3 then some .minDuty
  else if f = 4 then some .maxDuty
  else none

/-- A Servo coefficient register, `none` while unset (rules R13, R17). -/
def Servo.get (v : Servo) : ServoField → Option Rat
  | .alpha0 => v.alpha0
  | .alpha1 => v.alpha1
  | .beta => v.beta
  | .minDuty => v.minDuty
  | .maxDuty => v.maxDuty

/-- A write of one Servo coefficient register (rule R119). -/
def Servo.set (v : Servo) (f : ServoField) (x : Rat) : Servo :=
  match f with
  | .alpha0 => { v with alpha0 := some x }
  | .alpha1 => { v with alpha1 := some x }
  | .beta => { v with beta := some x }
  | .minDuty => { v with minDuty := some x }
  | .maxDuty => { v with maxDuty := some x }

/-- The coefficients `SCONFIG` derives from three pulse widths in microseconds at `hz` (rule R115):
`period = 1000000 / hz`, each duty cycle its width over the period. -/
def servoCalOf (hz : Int) (minW centerW maxW : Rat) : ServoCal :=
  let period : Rat := 1000000 / (hz : Rat)
  { alpha0 := maxW / period - centerW / period
    alpha1 := centerW / period - minW / period
    beta := centerW / period
    minDuty := minW / period
    maxDuty := maxW / period }

/-- All five coefficient registers written together. -/
def Servo.withCal (v : Servo) (c : ServoCal) : Servo :=
  { v with alpha0 := some c.alpha0, alpha1 := some c.alpha1, beta := some c.beta, minDuty := some c.minDuty,
           maxDuty := some c.maxDuty }

/-- The slope register a position uses (rule R116). -/
def slopeField (pos : Rat) : ServoField := if pos > 0 then .alpha0 else .alpha1

end Sys2Proof.Machine
end

