-- ==== Sys2Proof/Machine/Ops.lean ====
section
/-! DEFINITION. The named operations over the state: the register file, the bus primitives, unit and register access,
how a command is entered and ended, taking an error or a refusal, and the reset that alone returns from one. -/

namespace Sys2Proof.Machine

/-! ### The chip's register file (rules R30, R45) -/

/-- The byte last written at an address, `none` where nothing was written (rule R45). -/
def Memory.read? : Memory → Nat → Option Byte
  | [], _ => none
  | (a, b) :: m, x => if x = a then some b else Memory.read? m x

/-- The register file with byte `v` stored at `x`. -/
def Memory.write : Memory → Nat → Byte → Memory
  | [], x, v => [(x, v)]
  | (a, b) :: m, x, v =>
    if x < a then (x, v) :: (a, b) :: m
    else if x = a then (x, v) :: m
    else (a, b) :: Memory.write m x v

/-- `bs[i]` stored in register `reg + i` for every `i` (rule R30). -/
def Memory.writeBytes : Memory → Nat → List Byte → Memory
  | m, _, [] => m
  | m, reg, b :: bs => Memory.writeBytes (Memory.write m reg b) (reg + 1) bs

/-- What a failed write leaves: byte `i` of transaction `k` stored or not, freely (rule R33, decision D31). -/
def Memory.writeSome (k : Nat) : Memory → Nat → Nat → List Byte → Memory
  | m, _, _, [] => m
  | m, reg, i, b :: bs =>
    Memory.writeSome k (if Config.storedAnyway k i then Memory.write m reg b else m) (reg + 1) (i + 1) bs

/-- The bytes at `reg .. reg+n-1`, or the first of those addresses that was never written (rule R45). -/
def Memory.readBytes (m : Memory) : Nat → Nat → Except Nat (List Byte)
  | _, 0 => .ok []
  | reg, n + 1 =>
    match Memory.read? m reg with
    | none => .error reg
    | some b =>
      match Memory.readBytes m (reg + 1) n with
      | .error a => .error a
      | .ok bs => .ok (b :: bs)

/-- Every listed address is above `lo` and the addresses strictly rise. -/
def Memory.risingFrom : Nat → Memory → Bool
  | _, [] => true
  | lo, (a, _) :: m => decide (lo ≤ a) && Memory.risingFrom (a + 1) m

/-- The canonical form: addresses strictly rising and inside the 8-bit register space (rules R18, R39). An unlisted
address reads as no value, so no listed entry equals what an unlisted address reads as. -/
def Memory.wf (m : Memory) : Bool := Memory.risingFrom 0 m && m.all fun c => decide (c.1 < 256)

/-! ### A command under way -/

/-- How far a command's pseudocode has come: done with a value, stopped by a `raise` (rule R151), or stopped by a
refusal (rule R153); each with the state the statements before have left. -/
inductive Run (α : Type) where
  | done (a : α) (s : State)
  | raised (e : ErrorInfo) (s : State)
  | refused (r : Reason) (s : State)
deriving Repr

/-- The next statements of the pseudocode: they run only when the ones before are done. -/
def Run.andThen {α β : Type} (x : Run α) (f : α → State → Run β) : Run β :=
  match x with
  | .done a s => f a s
  | .raised e s => .raised e s
  | .refused r s => .refused r s

/-- A check that raises. -/
def Run.ofExcept {α : Type} (x : Except ErrorInfo α) (s : State) : Run α :=
  match x with
  | .ok a => .done a s
  | .error e => .raised e s

/-! ### The bus (rules R30 to R33, R46) -/

/-- Who answers the k-th transaction from now, and how. -/
def State.turnAt (s : State) (k : Nat) : BusTurn :=
  match s.turns[k]? with
  | some t => t
  | none =>
    match s.busMode with
    | .free => .answer (Config.busAnswer (s.busCount + k))
    | .reference => .file

/-- A transaction has been issued: it stands in the trace, its answer is used up. -/
def State.afterXact (s : State) (x : Xact) : State :=
  { s with trace := s.trace ++ [x], turns := s.turns.tail, busCount := s.busCount + 1 }

/-- After a write that completed (rules R30, R32). -/
def State.afterWrite (s : State) (reg : Nat) (bs : List Byte) : State :=
  { s.afterXact (.write s.cfg.deviceAddr reg bs) with chip := Memory.writeBytes s.chip reg bs }

/-- After a write that failed (rules R32, R33). -/
def State.afterFailedWrite (s : State) (reg : Nat) (bs : List Byte) : State :=
  { s.afterXact (.writeFailed s.cfg.deviceAddr reg bs) with
    chip := Memory.writeSome s.busCount s.chip reg 0 bs }

/-- After a read that returned `bs` (rules R31, R32). -/
def State.afterRead (s : State) (reg n : Nat) (bs : List Byte) : State :=
  s.afterXact (.read s.cfg.deviceAddr reg n bs)

/-- After a read that failed or was short (rules R32, R33, R46). -/
def State.afterFailedRead (s : State) (reg n : Nat) : State :=
  s.afterXact (.readFailed s.cfg.deviceAddr reg n)

/-- `BusWrite(reg, bs)` (rules R30, R33, R149). -/
def busWrite (reg : Nat) (bs : List Byte) (s : State) : Run Unit :=
  match s.turnAt 0 with
  | .answer .fail => .raised (.transport .opaque s.trace.length) (s.afterFailedWrite reg bs)
  | .answer (.bytes _) => .done () (s.afterWrite reg bs)
  | .file => .done () (s.afterWrite reg bs)

/-- `BusRead(reg, n)` (rules R31, R33, R45, R46, R149). -/
def busRead (reg n : Nat) (s : State) : Run (List Byte) :=
  match s.turnAt 0 with
  | .answer .fail => .raised (.transport .opaque s.trace.length) (s.afterFailedRead reg n)
  | .answer (.bytes bs) =>
    if bs.length = n then .done bs (s.afterRead reg n bs)
    else .raised (.transport .shortRead s.trace.length) (s.afterFailedRead reg n)
  | .file =>
    match Memory.readBytes s.chip reg n with
    | .ok bs => .done bs (s.afterRead reg n bs)
    | .error a => .refused (.unset (.chip a)) s

/-! ### Units and registers -/

/-- Motor unit `u`, if `0 <= u < NM` (rule R150). -/
def State.motor? (s : State) (u : Int) : Option Motor := if u < 0 then none else s.motors[u.toNat]?

/-- Servo unit `u`, if `0 <= u < NS` (rule R150). -/
def State.servo? (s : State) (u : Int) : Option Servo := if u < 0 then none else s.servos[u.toNat]?

/-- The registers of Motor unit `u` replaced. -/
def State.setMotor (s : State) (u : Int) (m : Motor) : State := { s with motors := s.motors.set u.toNat m }

/-- The registers of Servo unit `u` replaced. -/
def State.setServo (s : State) (u : Int) (v : Servo) : State := { s with servos := s.servos.set u.toNat v }

/-- The unit check of rule R150 (3) for a Motor command. -/
def withMotor {α : Type} (u : Int) (k : Motor → State → Run α) (s : State) : Run α :=
  match s.motor? u with
  | none => .refused .noSuchUnit s
  | some m => k m s

/-- The unit check of rule R150 (3) for a Servo command. -/
def withServo {α : Type} (u : Int) (k : Servo → State → Run α) (s : State) : Run α :=
  match s.servo? u with
  | none => .refused .noSuchUnit s
  | some v => k v s

/-- `require register` (rule R13): an unset register is a refusal that names it. -/
def requireSet {α β : Type} (r : RegName) (x : Option α) (k : α → State → Run β) (s : State) : Run β :=
  match x with
  | none => .refused (.unset r) s
  | some a => k a s

/-! ### Entering and ending a command (rules R11, R12, R150, R151, R153, R157) -/

/-- TAKING AN ERROR (rule R151, "trap entry"): the latch records it, the host is told, nothing else changes and no
address is transferred to. -/
def State.takeError (s : State) (e : ErrorInfo) : State :=
  { s with latch := some (.error e), resp := some (.error e) }

/-- TAKING A REFUSAL (rule R153): the latch records the reason with code 6 and the host is told. -/
def State.takeRefusal (s : State) (r : Reason) : State :=
  { s with latch := some (.refused r), resp := some (.refused r) }

/-- The refusal `faulted` (rules R12, R150 (1)): the latch keeps its first value; only the host is told. -/
def State.refuseFaulted (s : State) : State := { s with resp := some (.refused .faulted) }

/-- A command ended with `ok` (rule R11). -/
def State.complete (s : State) (r : Result) : State := { s with cmdidx := s.cmdidx + 1, resp := some (.ok r) }

/-- A byte-format row ended with `ok`: it is no command, so `cmdidx` stands (log entry 7). -/
def State.answer (s : State) (r : Result) : State := { s with resp := some (.ok r) }

/-- The end of a command. -/
def endCommand : Run Result → State
  | .done r s => s.complete r
  | .raised e s => s.takeError e
  | .refused r s => s.takeRefusal r

/-- The end of a byte-format row. -/
def endFormat : Run Result → State
  | .done r s => s.answer r
  | .raised e s => s.takeError e
  | .refused r s => s.takeRefusal r

/-- A command with its common entry step (rule R150 (1)): refused while the latch is set, else its pseudocode. -/
def runCommand (body : State → Run Result) (s : State) : State :=
  match s.latch with
  | some _ => s.refuseFaulted
  | none => endCommand (body s)

/-- A byte-format row, under the same entry step. -/
def runFormat (body : State → Run Result) (s : State) : State :=
  match s.latch with
  | some _ => s.refuseFaulted
  | none => endFormat (body s)

/-- A command with a reserved opcode (rules R65, R150 (2)). -/
def reservedOpcode (s : State) : State := runCommand (fun t => .refused .reservedOpcode t) s

/-- RESET, the only return from a latched error or refusal (rules R157, R170, R171): every register of the block as
rule R25 gives it for the supplied parameters, no bus transaction, the chip left alone. -/
def State.resetBlock (s : State) (cfg : Config) : State :=
  { s with
    cfg := cfg
    freq := none
    latch := none
    motors := cfg.motors.map Motor.atReset
    servos := cfg.servos.map Servo.atReset
    trace := []
    cmdidx := 0
    resp := none }

/-- The host port emptied by one move (rule R188). -/
def State.popHost (s : State) : State := { s with host := s.host.tail }

end Sys2Proof.Machine
end

