-- ==== Sys2Proof/Machine/Formats.lean ====
section
/-! DEFINITION. The eleven rows of the opcode table that are formats of bytes, not commands. Each stands for the part
of a command in which the spec produces or consumes that word: the encoder's answer, the decoder's answer, or one
write of `SETFREQ` (log entry 7). They are entered like a command (refused while the latch is set) and are no command
(`cmdidx` stands). -/

namespace Sys2Proof.Machine

/-- `BLK.ENC.LINEAR` (rule R54): the encoder's block for the count `n`. -/
def execBlkEncLinear (n : BitVec 12) (s : State) : Host.Outcome State Fault Refusal :=
  .next (runFormat (fun s => .done (.block (linearBlock n.toNat)) s) s)

/-- `BLK.ENC.FULLON` (rule R56). -/
def execBlkEncFullOn (s : State) : Host.Outcome State Fault Refusal :=
  .next (runFormat (fun s => .done (.block fullOnBlock) s) s)

/-- `BLK.ENC.FULLOFF.doc` (rule R55): the full-off pattern of polarity `doc`. -/
def execBlkEncFullOffDoc (s : State) : Host.Outcome State Fault Refusal :=
  .next (runFormat (fun s => .done (.block (fullOffBlock .doc)) s) s)

/-- `BLK.ENC.FULLOFF.native` (rules R55, R58): the full-off pattern of polarity `native`. -/
def execBlkEncFullOffNative (s : State) : Host.Outcome State Fault Refusal :=
  .next (runFormat (fun s => .done (.block (fullOffBlock .native)) s) s)

/-- `BLK.DEC.FOFF` (rules R57, R58): every other bit is ignored. -/
def execBlkDecFoff (s : State) : Host.Outcome State Fault Refusal :=
  .next (runFormat (fun s => .done (.num (foffValue s.cfg.polarity)) s) s)

/-- `BLK.DEC.FON` (rules R57, R58): every other bit is ignored. -/
def execBlkDecFon (s : State) : Host.Outcome State Fault Refusal :=
  .next (runFormat (fun s => .done (.num (fonValue s.cfg.polarity)) s) s)

/-- `BLK.DEC.LINEAR` (rules R57, R60): off-count `f`, on-count `n`. -/
def execBlkDecLinear (f n : BitVec 12) (s : State) : Host.Outcome State Fault Refusal :=
  .next (runFormat (fun s => .done (.num (linearValue n.toNat f.toNat)) s) s)

/-- One write of `SETFREQ` by itself: a one-byte transaction. -/
def writeOneByte (reg : Nat) (b : Byte) (s : State) : Run Result :=
  (busWrite reg [b] s).andThen fun _ s => .done .none s

/-- `SETFREQ.W1.MODE1` (rule R63): `MODE1` with `SLEEP` set and `RESTART` cleared, the other bits as read. -/
def execSetfreqW1 (extclk autoInc sub1 sub2 sub3 allcall : Bool) (s : State) : Host.Outcome State Fault Refusal :=
  .next (runFormat (writeOneByte regMode1
    (sleepByte (mode1Byte false extclk autoInc false sub1 sub2 sub3 allcall))) s)

/-- `SETFREQ.W2.PRESCALE` (rule R63). -/
def execSetfreqW2 (p : Byte) (s : State) : Host.Outcome State Fault Refusal :=
  .next (runFormat (writeOneByte regPrescale p) s)

/-- `SETFREQ.W3.MODE1` (rule R63): `MODE1` as read. -/
def execSetfreqW3 (restart extclk autoInc sleep sub1 sub2 sub3 allcall : Bool) (s : State) :
    Host.Outcome State Fault Refusal :=
  .next (runFormat (writeOneByte regMode1
    (mode1Byte restart extclk autoInc sleep sub1 sub2 sub3 allcall)) s)

/-- `SETFREQ.W4.MODE1` (rule R63): `MODE1` as read with `AUTO_INCREMENT` set. -/
def execSetfreqW4 (restart extclk sleep sub1 sub2 sub3 allcall : Bool) (s : State) :
    Host.Outcome State Fault Refusal :=
  .next (runFormat (writeOneByte regMode1
    (wakeByte (mode1Byte restart extclk false sleep sub1 sub2 sub3 allcall))) s)

end Sys2Proof.Machine
end

