-- ==== Sys2Proof/Machine/Driver.lean ====
section
/-! DEFINITION. The PWM controller driver (41_driver.md): the driver operations that the Motor and Servo commands
share, then one meaning per driver command. -/

namespace Sys2Proof.Machine

/-! ### The driver operations -/

/-- The pseudocode of `SETFREQ` (rules R72, R63). -/
def driverSetFreq (hz : Int) (s : State) : Run Result :=
  if hz ≤ 0 then .raised (.freq hz) s
  else
    let p := prescaleOf s.cfg hz
    if p > 255 then .raised (.prescale p) s
    else
      (busRead regMode1 1 s).andThen fun bs s =>
      let old := bs.getD 0 0
      (busWrite regMode1 [sleepByte old] s).andThen fun _ s =>
      (busWrite regPrescale [BitVec.ofInt 8 p] s).andThen fun _ s =>
      (busWrite regMode1 [old] s).andThen fun _ s =>
      (busWrite regMode1 [wakeByte old] s).andThen fun _ s =>
      .done .none { s with freq := some hz }

/-- The pseudocode of `SETDC` (rule R74): the channel first, then the duty cycle, then one transaction. -/
def driverSetDc (ch : Int) (d : Rat) (s : State) : Run Result :=
  (Run.ofExcept (blockAddr ch) s).andThen fun reg s =>
  (Run.ofExcept (encodeDuty s.cfg d) s).andThen fun b s =>
  (busWrite reg b.toBytes s).andThen fun _ s => .done .none s

/-- The pseudocode of `GETDC` (rule R75). -/
def driverGetDc (ch : Int) (s : State) : Run Rat :=
  (Run.ofExcept (blockAddr ch) s).andThen fun reg s =>
  (busRead reg 4 s).andThen fun bs s => .done (decodeBlock s.cfg.polarity (blockOfBytes bs)) s

/-- The pseudocode of `SETRANGE` (rules R76, R81): shape, addressing, values, then ONE transaction. -/
def driverSetRange (start n : Int) (ds : List Rat) (s : State) : Run Result :=
  let sh : Shape := ⟨n, none, some ds.length⟩
  if shapeOk sh then
    if rangeOk start n then
      (Run.ofExcept (encodeBurst s.cfg ds) s).andThen fun payload s =>
      (busWrite (blockBase start) payload s).andThen fun _ s => .done .none s
    else .raised (.channelRange start n) s
  else .raised (.shape sh) s

/-- The pseudocode of `GETRANGE` (rules R77, R81): shape, addressing, then ONE transaction. -/
def driverGetRange (start n : Int) (s : State) : Run (List Rat) :=
  let sh : Shape := ⟨n, none, none⟩
  if shapeOk sh then
    if rangeOk start n then
      (busRead (blockBase start) (4 * n.toNat) s).andThen fun bs s =>
      .done (decodePieces s.cfg.polarity bs n.toNat) s
    else .raised (.channelRange start n) s
  else .raised (.shape sh) s

/-- The elements of `SETLIST`, in list order, each as `SETDC` (rule R78). -/
def driverSetEach : List (Int × Rat) → State → Run Result
  | [], s => .done .none s
  | (ch, d) :: rest, s => (driverSetDc ch d s).andThen fun _ s => driverSetEach rest s

/-- The elements of `GETLIST`, in list order, each as `GETDC` (rule R79). -/
def driverGetEach : List Int → State → Run (List Rat)
  | [], s => .done [] s
  | ch :: rest, s =>
    (driverGetDc ch s).andThen fun x s =>
    (driverGetEach rest s).andThen fun xs s => .done (x :: xs) s

/-- The pseudocode of `SETLIST` (rules R78, R81). -/
def driverSetList (n : Int) (chs : List Int) (ds : List Rat) (s : State) : Run Result :=
  let sh : Shape := ⟨n, some chs.length, some ds.length⟩
  if shapeOk sh then driverSetEach (chs.zip ds) s else .raised (.shape sh) s

/-- The pseudocode of `GETLIST` (rules R79, R81). -/
def driverGetList (n : Int) (chs : List Int) (s : State) : Run (List Rat) :=
  let sh : Shape := ⟨n, some chs.length, none⟩
  if shapeOk sh then driverGetEach chs s else .raised (.shape sh) s

/-! ### The commands -/

/-- `ENC d` (rule R70). -/
def execEnc (d : Rat) (s : State) : Host.Outcome State Fault Refusal :=
  .next (runCommand (fun s => (Run.ofExcept (encodeDuty s.cfg d) s).andThen fun b s => .done (.block b) s) s)

/-- `DEC blk` (rule R71). -/
def execDec (blk : Block) (s : State) : Host.Outcome State Fault Refusal :=
  .next (runCommand (fun s => .done (.num (decodeBlock s.cfg.polarity blk)) s) s)

/-- `SETFREQ hz` (rule R72). -/
def execSetfreq (hz : Int) (s : State) : Host.Outcome State Fault Refusal :=
  .next (runCommand (driverSetFreq hz) s)

/-- `GETFREQ` (rule R73). -/
def execGetfreq (s : State) : Host.Outcome State Fault Refusal :=
  .next (runCommand (fun s => requireSet .drvFreq s.freq (fun hz s => .done (.int hz) s) s) s)

/-- `SETDC ch, d` (rule R74). -/
def execSetdc (ch : Int) (d : Rat) (s : State) : Host.Outcome State Fault Refusal :=
  .next (runCommand (driverSetDc ch d) s)

/-- `GETDC ch` (rule R75). -/
def execGetdc (ch : Int) (s : State) : Host.Outcome State Fault Refusal :=
  .next (runCommand (fun s => (driverGetDc ch s).andThen fun x s => .done (.num x) s) s)

/-- `SETRANGE start, n, ds` (rule R76). -/
def execSetrange (start n : Int) (ds : List Rat) (s : State) : Host.Outcome State Fault Refusal :=
  .next (runCommand (driverSetRange start n ds) s)

/-- `GETRANGE start, n` (rule R77). -/
def execGetrange (start n : Int) (s : State) : Host.Outcome State Fault Refusal :=
  .next (runCommand (fun s => (driverGetRange start n s).andThen fun xs s => .done (.nums xs) s) s)

/-- `SETLIST n, chs, ds` (rule R78). -/
def execSetlist (n : Int) (chs : List Int) (ds : List Rat) (s : State) : Host.Outcome State Fault Refusal :=
  .next (runCommand (driverSetList n chs ds) s)

/-- `GETLIST n, chs` (rule R79). -/
def execGetlist (n : Int) (chs : List Int) (s : State) : Host.Outcome State Fault Refusal :=
  .next (runCommand (fun s => (driverGetList n chs s).andThen fun xs s => .done (.nums xs) s) s)

end Sys2Proof.Machine
end

