-- ==== Sys2Proof/Machine/Motor.lean ====
section
/-! DEFINITION. The Motor commands (42_motor.md): the linear calibration transform. -/

namespace Sys2Proof.Machine

/-- `MLEGS u, speed` (rule R100): pure. -/
def execMlegs (u : Int) (speed : Rat) (s : State) : Host.Outcome State Fault Refusal :=
  .next (runCommand (withMotor u fun m s =>
    .done (.legs (legsOf (motorDrive m.alpha m.beta speed)).1 (legsOf (motorDrive m.alpha m.beta speed)).2) s) s)

/-- The two legs handed to the driver (rule R101): one burst when `b = a + 1`, else leg A and then leg B. -/
def motorWriteLegs (a b : Int) (legs : Rat × Rat) (s : State) : Run Result :=
  if b = a + 1 then driverSetRange a 2 [legs.1, legs.2] s
  else (driverSetDc a legs.1 s).andThen fun _ s => driverSetDc b legs.2 s

/-- `MSET u, speed` (rule R101): the command is cached first, as given, then the legs are written. -/
def execMset (u : Int) (speed : Rat) (s : State) : Host.Outcome State Fault Refusal :=
  .next (runCommand (withMotor u fun m s =>
    motorWriteLegs m.a m.b (legsOf (motorDrive m.alpha m.beta speed))
      (s.setMotor u { m with value := some speed })) s)

/-- `MWR u, f, v` (rule R102): `value` is not writable. -/
def execMwr (u f : Int) (v : Rat) (s : State) : Host.Outcome State Fault Refusal :=
  .next (runCommand (withMotor u fun m s =>
    match motorField? f with
    | some .alpha => .done .none (s.setMotor u { m with alpha := v })
    | some .beta => .done .none (s.setMotor u { m with beta := v })
    | some .value => .refused .noSuchRegister s
    | none => .refused .noSuchRegister s) s)

/-- `MRD u, f` (rule R103). -/
def execMrd (u f : Int) (s : State) : Host.Outcome State Fault Refusal :=
  .next (runCommand (withMotor u fun m s =>
    match motorField? f with
    | some .alpha => .done (.num m.alpha) s
    | some .beta => .done (.num m.beta) s
    | some .value => requireSet (.motorValue u.toNat) m.value (fun x s => .done (.num x) s) s
    | none => .refused .noSuchRegister s) s)

end Sys2Proof.Machine
end

