-- ==== Sys2Proof/Machine/Servo.lean ====
section
/-! DEFINITION. The Servo commands (43_servo.md): the piecewise-linear calibration transform. -/

namespace Sys2Proof.Machine

/-- `SCONFIG u, min_w, center_w, max_w` (rule R115). -/
def execSconfig (u : Int) (minW centerW maxW : Rat) (s : State) : Host.Outcome State Fault Refusal :=
  .next (runCommand (withServo u fun v s =>
    requireSet .drvFreq s.freq (fun hz s =>
      .done .none (s.setServo u (v.withCal (servoCalOf hz minW centerW maxW)))) s) s)

/-- The duty cycle of a position (rule R116), reading the slope, `beta`, `min_duty`, `max_duty` in that order. -/
def servoDuty (u : Int) (v : Servo) (pos : Rat) (s : State) : Run Rat :=
  requireSet (.servo u.toNat (slopeField pos)) (v.get (slopeField pos)) (fun slope s =>
    requireSet (.servo u.toNat .beta) v.beta (fun beta s =>
      requireSet (.servo u.toNat .minDuty) v.minDuty (fun lo s =>
        requireSet (.servo u.toNat .maxDuty) v.maxDuty (fun hi s =>
          .done (clamp (pos * slope + beta) lo hi) s) s) s) s) s

/-- `SDUTY u, pos` (rule R116): pure. -/
def execSduty (u : Int) (pos : Rat) (s : State) : Host.Outcome State Fault Refusal :=
  .next (runCommand (withServo u fun v s => (servoDuty u v pos s).andThen fun d s => .done (.num d) s) s)

/-- `SSET u, pos` (rule R117): one duty-cycle write through the driver. -/
def execSset (u : Int) (pos : Rat) (s : State) : Host.Outcome State Fault Refusal :=
  .next (runCommand (withServo u fun v s => (servoDuty u v pos s).andThen fun d s => driverSetDc v.ch d s) s)

/-- `SREV u` (rule R118): both right-hand sides use the old values. -/
def execSrev (u : Int) (s : State) : Host.Outcome State Fault Refusal :=
  .next (runCommand (withServo u fun v s =>
    requireSet (.servo u.toNat .alpha1) v.alpha1 (fun a1 s =>
      requireSet (.servo u.toNat .alpha0) v.alpha0 (fun a0 s =>
        .done .none (s.setServo u { v with alpha0 := some (-a1), alpha1 := some (-a0) })) s) s) s)

/-- `SWR u, f, v` (rule R119). -/
def execSwr (u f : Int) (x : Rat) (s : State) : Host.Outcome State Fault Refusal :=
  .next (runCommand (withServo u fun v s =>
    match servoField? f with
    | some fld => .done .none (s.setServo u (v.set fld x))
    | none => .refused .noSuchRegister s) s)

/-- `SRD u, f` (rule R120). -/
def execSrd (u f : Int) (s : State) : Host.Outcome State Fault Refusal :=
  .next (runCommand (withServo u fun v s =>
    match servoField? f with
    | some fld => requireSet (.servo u.toNat fld) (v.get fld) (fun x s => .done (.num x) s) s
    | none => .refused .noSuchRegister s) s)

end Sys2Proof.Machine
end

