-- ==== Sys2Proof/Machine/Store.lean ====
section
/-! DEFINITION. Calibration load and save (44_calibration_store.md). -/

namespace Sys2Proof.Machine

/-- What a document map gives a key. -/
def docLookup {α : Type} (m : List (String × α)) (k : String) : Option α :=
  match m with
  | [] => none
  | (k', v) :: rest => if k' = k then some v else docLookup rest k

/-- `doc[k] = v`: an existing entry is replaced, a new one stands at the end. -/
def docPut {α : Type} (m : List (String × α)) (k : String) (v : α) : List (String × α) :=
  match m with
  | [] => [(k, v)]
  | (k', v') :: rest => if k' = k then (k, v) :: rest else (k', v') :: docPut rest k v

/-- The unit's fields, or `ConfigError(missing, unit)` (rule R135). -/
def needUnit (doc : DocMap) (unit : String) : Except ErrorInfo DocFields :=
  match docLookup doc unit with
  | some fs => .ok fs
  | none => .error (.docMissingUnit unit)

/-- The field's number, or `ConfigError(missing, unit, field)` (rule R135). -/
def needField (unit : String) (fs : DocFields) (field : String) : Except ErrorInfo Rat :=
  match docLookup fs field with
  | some x => .ok x
  | none => .error (.docMissingField unit field)

/-- A Motor unit as the document gives it, or what is missing first (rules R135, R138). -/
def loadMotor (doc : DocMap) (m : Motor) : Except ErrorInfo Motor := do
  let fs ← needUnit doc m.name
  let alpha ← needField m.name fs "alpha"
  let beta ← needField m.name fs "beta"
  return { m with alpha := alpha, beta := beta }

/-- A Servo unit as the document gives it, or what is missing first (rules R135, R138). -/
def loadServo (doc : DocMap) (v : Servo) : Except ErrorInfo Servo := do
  let fs ← needUnit doc v.name
  let alpha0 ← needField v.name fs "alpha0"
  let alpha1 ← needField v.name fs "alpha1"
  let beta ← needField v.name fs "beta"
  let minDuty ← needField v.name fs "min_duty"
  let maxDuty ← needField v.name fs "max_duty"
  return v.withCal ⟨alpha0, alpha1, beta, minDuty, maxDuty⟩

/-- Every unit of a list loaded in index order, stopping at the first thing missing. -/
def loadUnits {α : Type} (load : α → Except ErrorInfo α) : List α → Except ErrorInfo (List α)
  | [] => .ok []
  | x :: xs => do
    let y ← load x
    let ys ← loadUnits load xs
    return y :: ys

/-- The checks of `CALLOAD` and the units it would write (rule R135): each Motor unit, then each Servo unit. -/
def loadDoc (doc : CalDoc) (s : State) : Except ErrorInfo (List Motor × List Servo) :=
  match doc with
  | .absent => .error .docAbsent
  | .malformed => .error .docMalformed
  | .map m => do
    let motors ← loadUnits (loadMotor m) s.motors
    let servos ← loadUnits (loadServo m) s.servos
    return (motors, servos)

/-- `CALLOAD doc` (rule R135): every check first, then every write. -/
def execCalload (doc : CalDoc) (s : State) : Host.Outcome State Fault Refusal :=
  .next (runCommand (fun s =>
    (Run.ofExcept (loadDoc doc s) s).andThen fun units s =>
      .done .none { s with motors := units.1, servos := units.2 }) s)

/-- The document with every Motor unit put in (rule R136). -/
def saveMotors : List Motor → DocMap → DocMap
  | [], doc => doc
  | m :: ms, doc => saveMotors ms (docPut doc m.name [("alpha", m.alpha), ("beta", m.beta)])

/-- The five coefficients of a Servo unit, or the first of them that is unset (rules R13, R136). -/
def Servo.cal? (v : Servo) : Except ServoField ServoCal :=
  match v.alpha0, v.alpha1, v.beta, v.minDuty, v.maxDuty with
  | some a0, some a1, some b, some lo, some hi => .ok ⟨a0, a1, b, lo, hi⟩
  | none, _, _, _, _ => .error .alpha0
  | _, none, _, _, _ => .error .alpha1
  | _, _, none, _, _ => .error .beta
  | _, _, _, none, _ => .error .minDuty
  | _, _, _, _, none => .error .maxDuty

/-- The fields of a Servo unit in a document (rule R138). -/
def servoFields (c : ServoCal) : DocFields :=
  [("alpha0", c.alpha0), ("alpha1", c.alpha1), ("beta", c.beta), ("min_duty", c.minDuty), ("max_duty", c.maxDuty)]

/-- The document with every Servo unit put in, the first of them numbered `u` (rule R136). -/
def saveServos : Nat → List Servo → DocMap → Except RegName DocMap
  | _, [], doc => .ok doc
  | u, v :: vs, doc =>
    match v.cal? with
    | .error f => .error (.servo u f)
    | .ok c => saveServos (u + 1) vs (docPut doc v.name (servoFields c))

/-- `CALSAVE` (rule R136). -/
def execCalsave (s : State) : Host.Outcome State Fault Refusal :=
  .next (runCommand (fun s =>
    match saveServos 0 s.servos (saveMotors s.motors []) with
    | .error r => .refused (.unset r) s
    | .ok doc => .done (.doc doc) s) s)

end Sys2Proof.Machine
end

