-- ==== Sys2Proof/Machine/Dispatch.lean ====
section
/-! DEFINITION. One arm per constructor of `Instr`, each one direct call of its meaning. -/

namespace Sys2Proof.Machine

/-- The meaning of every instruction. -/
def exec (i : Instr) (s : State) : Host.Outcome State Fault Refusal :=
  match i with
  | .enc d => Sys2Proof.Machine.execEnc d s
  | .dec blk => Sys2Proof.Machine.execDec blk s
  | .setfreq hz => Sys2Proof.Machine.execSetfreq hz s
  | .getfreq => Sys2Proof.Machine.execGetfreq s
  | .setdc ch d => Sys2Proof.Machine.execSetdc ch d s
  | .getdc ch => Sys2Proof.Machine.execGetdc ch s
  | .setrange start n ds => Sys2Proof.Machine.execSetrange start n ds s
  | .getrange start n => Sys2Proof.Machine.execGetrange start n s
  | .setlist n chs ds => Sys2Proof.Machine.execSetlist n chs ds s
  | .getlist n chs => Sys2Proof.Machine.execGetlist n chs s
  | .mlegs u speed => Sys2Proof.Machine.execMlegs u speed s
  | .mset u speed => Sys2Proof.Machine.execMset u speed s
  | .mwr u f v => Sys2Proof.Machine.execMwr u f v s
  | .mrd u f => Sys2Proof.Machine.execMrd u f s
  | .sconfig u minW centerW maxW => Sys2Proof.Machine.execSconfig u minW centerW maxW s
  | .sduty u pos => Sys2Proof.Machine.execSduty u pos s
  | .sset u pos => Sys2Proof.Machine.execSset u pos s
  | .srev u => Sys2Proof.Machine.execSrev u s
  | .swr u f v => Sys2Proof.Machine.execSwr u f v s
  | .srd u f => Sys2Proof.Machine.execSrd u f s
  | .calload doc => Sys2Proof.Machine.execCalload doc s
  | .calsave => Sys2Proof.Machine.execCalsave s
  | .blkEncLinear n => Sys2Proof.Machine.execBlkEncLinear n s
  | .blkEncFullOn => Sys2Proof.Machine.execBlkEncFullOn s
  | .blkEncFullOffDoc => Sys2Proof.Machine.execBlkEncFullOffDoc s
  | .blkEncFullOffNative => Sys2Proof.Machine.execBlkEncFullOffNative s
  | .blkDecFoff _ _ _ _ _ => Sys2Proof.Machine.execBlkDecFoff s
  | .blkDecFon _ _ _ _ => Sys2Proof.Machine.execBlkDecFon s
  | .blkDecLinear _ f _ n => Sys2Proof.Machine.execBlkDecLinear f n s
  | .setfreqW1 extclk autoInc sub1 sub2 sub3 allcall => Sys2Proof.Machine.execSetfreqW1 extclk autoInc sub1 sub2 sub3 allcall s
  | .setfreqW3 restart extclk autoInc sleep sub1 sub2 sub3 allcall => Sys2Proof.Machine.execSetfreqW3 restart extclk autoInc sleep sub1 sub2 sub3 allcall s
  | .setfreqW4 restart extclk sleep sub1 sub2 sub3 allcall => Sys2Proof.Machine.execSetfreqW4 restart extclk sleep sub1 sub2 sub3 allcall s
  | .setfreqW2 p => Sys2Proof.Machine.execSetfreqW2 p s

end Sys2Proof.Machine
end

