-- ==== Sys2Proof/Machine/Step.lean ====
section
/-! DEFINITION. One step of the machine: the host's next move (rules R11, R163, R188). The block has no program
counter and fetches nothing from the register space (rules R11, R43): the next command is what stands at the host
port. -/

namespace Sys2Proof.Machine

/-- One step. With no move at the host port nothing happens (rule R154). -/
def step (s : State) : Host.Outcome State Fault Refusal :=
  match s.host with
  | [] => .next s
  | .reset cfg :: _ => .next (s.popHost.resetBlock cfg)
  | .present p :: _ =>
    match decode p with
    | .ok i => exec i s.popHost
    | .error .reservedOpcode => .next (reservedOpcode s.popHost)
    | .error .notAMap => .refused .notAnEncoding
    | .error .notARow => .refused .notAnEncoding

/-- The table's word `w` of `nbits` bits, operand words zero, as the host's next move. -/
def State.withFetchWord (s : State) (nbits w : Nat) : State :=
  { s with host := .present (tableWord nbits w) :: s.host }

end Sys2Proof.Machine
end

