-- ==== Sys2Proof/Safety.lean ====
section
/-! DEFINITION. What counts as a safe run, in the terms the claims use: finished and faulted (rule R187), and the
invariant of the reachable states. -/

namespace Sys2Proof.Machine

/-- A run is faulted when the latch is set (rule R187). -/
def State.faulted (s : State) : Bool := s.latch.isSome

/-- A run is finished when the host has nothing more to present and the latch is clear (rule R187). -/
def State.finished (s : State) : Bool := s.host.isEmpty && !s.faulted

/-- Register `a` is one of those a transaction was issued to write, completed or not. -/
def Xact.writesTo (x : Xact) (a : Nat) : Prop :=
  match x with
  | .write _ reg bs => reg ≤ a ∧ a < reg + bs.length
  | .writeFailed _ reg bs => reg ≤ a ∧ a < reg + bs.length
  | .read _ _ _ _ => False
  | .readFailed _ _ _ => False

/-- The start and length of a transaction that covers whole channel blocks inside channels 0..15 (rule R35). -/
def wholeBlocks (reg len : Nat) : Prop := ∃ ch n : Nat, 1 ≤ n ∧ ch + n ≤ 16 ∧ reg = led0OnL + 4 * ch ∧ len = 4 * n

/-- The payload of a write to channel blocks comes from the encoder (rules R62, R80). -/
def encoderPayload (cfg : Config) (bs : List Byte) : Prop := ∃ ds : List Rat, encodeBurst cfg ds = .ok bs

/-- A write of the shapes of rule R36: one byte to `MODE1` or `PRESCALE`, or encoded blocks to channel registers. -/
def writeShape (cfg : Config) (reg : Nat) (bs : List Byte) : Prop :=
  ((reg = regMode1 ∨ reg = regPrescale) ∧ bs.length = 1) ∨ (wholeBlocks reg bs.length ∧ encoderPayload cfg bs)

/-- A read of the shapes of rule R36: one byte of `MODE1`, or whole channel blocks. -/
def readShape (reg n : Nat) : Prop := (reg = regMode1 ∧ n = 1) ∨ wholeBlocks reg n

/-- A transaction as the block may issue it (rules R30, R31, R35, R36), to the one device (rule R47). -/
def Xact.ok (cfg : Config) : Xact → Prop
  | .write dev reg bs => dev = cfg.deviceAddr ∧ writeShape cfg reg bs
  | .read dev reg n result => dev = cfg.deviceAddr ∧ readShape reg n ∧ result.length = n
  | .writeFailed dev reg bs => dev = cfg.deviceAddr ∧ writeShape cfg reg bs
  | .readFailed dev reg n => dev = cfg.deviceAddr ∧ readShape reg n

/-- What a Motor unit is bound to for good: its key and channel pair (rule R15). -/
def Motor.binding (m : Motor) : String × Int × Int := (m.name, m.a, m.b)

/-- What the parameters bind a Motor unit to (rule R5). -/
def motorParamsBinding (p : MotorParams) : String × Int × Int := (p.name, p.a, p.b)

/-- What a Servo unit is bound to for good: its key and channel (rule R17). -/
def Servo.binding (v : Servo) : String × Int := (v.name, v.ch)

/-- What the parameters bind a Servo unit to (rule R5). -/
def servoParamsBinding (p : ServoParams) : String × Int := (p.name, p.ch)

/-- The invariant of the machine. -/
structure Invariant (s : State) : Prop where
  /-- The register file is in canonical form. -/
  chip_wf : Memory.wf s.chip = true
  /-- A recorded frequency is positive (rules R72, R115). -/
  freq_pos : ∀ hz, s.freq = some hz → 0 < hz
  /-- There are `NM` Motor units, bound as the parameters say (rule R15). -/
  motors_bound : s.motors.map Motor.binding = s.cfg.motors.map motorParamsBinding
  /-- There are `NS` Servo units, bound as the parameters say (rule R17). -/
  servos_bound : s.servos.map Servo.binding = s.cfg.servos.map servoParamsBinding
  /-- Every transaction has one of the shapes the block issues (rule R36). -/
  trace_ok : ∀ x ∈ s.trace, x.ok s.cfg
  /-- The latch never records the refusal `faulted` (rule R153). -/
  latch_first : s.latch ≠ some (.refused .faulted)
  /-- An error or a refusal has been returned only if the latch is set (rule R12). -/
  resp_latched : s.latch = none → ∀ r, s.resp = some r → ∃ v, r = .ok v

/-! ### Words the claims use -/

/-- The instruction is one of the 22 commands of rule R65, not one of the byte-format rows. -/
def isCommand (i : Instr) : Bool :=
  match encode i with
  | .command _ _ => true
  | .encodeOut _ => false
  | .decodeIn _ => false
  | .setfreqByte _ _ => false

/-- The commands that issue no transaction whatever happens: the first row of rule R36's table. -/
def isQuiet : Instr → Bool
  | .enc _ | .dec _ | .getfreq | .mlegs _ _ | .mwr _ _ _ | .mrd _ _ | .sconfig _ _ _ _ | .sduty _ _ | .srev _
  | .swr _ _ _ | .srd _ _ | .calload _ | .calsave => true
  | .setfreq _ | .setdc _ _ | .getdc _ | .setrange _ _ _ | .getrange _ _ | .setlist _ _ _ | .getlist _ _
  | .mset _ _ | .sset _ _ => false
  | .blkEncLinear _ | .blkEncFullOn | .blkEncFullOffDoc | .blkEncFullOffNative | .blkDecFoff _ _ _ _ _
  | .blkDecFon _ _ _ _ | .blkDecLinear _ _ _ _ => true
  | .setfreqW1 _ _ _ _ _ _ | .setfreqW3 _ _ _ _ _ _ _ _ | .setfreqW4 _ _ _ _ _ _ _ | .setfreqW2 _ => false

/-- `SETFREQ` and the rows of its four bytes: all that touch `MODE1` or `PRESCALE` (rules R36, R80). -/
def programsTimebase : Instr → Bool
  | .setfreq _ | .setfreqW1 _ _ _ _ _ _ | .setfreqW3 _ _ _ _ _ _ _ _ | .setfreqW4 _ _ _ _ _ _ _ | .setfreqW2 _ => true
  | .enc _ | .dec _ | .getfreq | .setdc _ _ | .getdc _ | .setrange _ _ _ | .getrange _ _ | .setlist _ _ _
  | .getlist _ _ | .mlegs _ _ | .mset _ _ | .mwr _ _ _ | .mrd _ _ | .sconfig _ _ _ _ | .sduty _ _ | .sset _ _
  | .srev _ | .swr _ _ _ | .srd _ _ | .calload _ | .calsave => false
  | .blkEncLinear _ | .blkEncFullOn | .blkEncFullOffDoc | .blkEncFullOffNative | .blkDecFoff _ _ _ _ _
  | .blkDecFon _ _ _ _ | .blkDecLinear _ _ _ _ => false

/-- The first register of a transaction. -/
def Xact.reg : Xact → Nat
  | .write _ reg _ => reg
  | .read _ reg _ _ => reg
  | .writeFailed _ reg _ => reg
  | .readFailed _ reg _ => reg

/-- How many registers a transaction covers. -/
def Xact.len : Xact → Nat
  | .write _ _ bs => bs.length
  | .read _ _ n _ => n
  | .writeFailed _ _ bs => bs.length
  | .readFailed _ _ n => n

/-- The k-th transaction from now, a write, completes (rule R33). -/
def State.accepts (s : State) (k : Nat) : Prop := s.turnAt k ≠ .answer .fail

/-- The k-th transaction from now, a read of `n` bytes at `reg`, returns `bs`: as the transport answers it, or as the
reference register file holds it (rules R31, R33, R45). -/
def State.readsAs (s : State) (k reg n : Nat) (bs : List Byte) : Prop :=
  bs.length = n ∧ (s.turnAt k = .answer (.bytes bs) ∨ (s.turnAt k = .file ∧ Memory.readBytes s.chip reg n = .ok bs))

/-- The state with these writes issued and completed, in order: stored (rule R30), in the trace (rule R32), their
answers used up. -/
def State.wrote (s : State) (ws : List (Nat × List Byte)) : State :=
  { s with
    chip := ws.foldl (fun m w => Memory.writeBytes m w.1 w.2) s.chip
    trace := s.trace ++ ws.map fun w => .write s.cfg.deviceAddr w.1 w.2
    turns := s.turns.drop ws.length
    busCount := s.busCount + ws.length }

/-- The state with these reads issued and answered, in order (rules R31, R32). -/
def State.didRead (s : State) (rs : List (Nat × List Byte)) : State :=
  { s with
    trace := s.trace ++ rs.map fun r => .read s.cfg.deviceAddr r.1 r.2.length r.2
    turns := s.turns.drop rs.length
    busCount := s.busCount + rs.length }

/-- The number a command answered, if it ended with `ok` and a number. -/
def answeredNum : Host.Outcome State Fault Refusal → Option Rat
  | .next t =>
    match t.resp with
    | some (.ok (.num x)) => some x
    | _ => none
  | .fault _ => none
  | .refused _ => none

end Sys2Proof.Machine
end

