-- ==== Sys2Proof/Certificates/Slice0/Obligations.lean ====
section
/-! DEFINITION. The statements for the provers. Each holds for every state, so for every value of the OPEN parameters
(rule R5) and every behaviour of the bus (rule R33). `s.latch = none` says the block is ready for a command (rule R150
(1)). -/

open Sys2Proof Sys2Proof.Machine

/-! ### Encoding and stepping -/

/-- R65's opcode map and R50, R63's formats on words written out from the table; which port an operand comes on is the
model's choice (log entry 6). -/
def Obligations.TableWordsDecode : Prop :=
  (∀ p : Ports,
    decode (.command 0x00 p) = .ok (.enc p.num0) ∧
    decode (.command 0x01 p) = .ok (.dec p.blk) ∧
    decode (.command 0x02 p) = .ok (.setfreq p.int0) ∧
    decode (.command 0x03 p) = .ok .getfreq ∧
    decode (.command 0x04 p) = .ok (.setdc p.int0 p.num0) ∧
    decode (.command 0x05 p) = .ok (.getdc p.int0) ∧
    decode (.command 0x06 p) = .ok (.setrange p.int0 p.int1 p.ds) ∧
    decode (.command 0x07 p) = .ok (.getrange p.int0 p.int1) ∧
    decode (.command 0x08 p) = .ok (.setlist p.int0 p.chs p.ds) ∧
    decode (.command 0x09 p) = .ok (.getlist p.int0 p.chs) ∧
    decode (.command 0x10 p) = .ok (.mlegs p.int0 p.num0) ∧
    decode (.command 0x11 p) = .ok (.mset p.int0 p.num0) ∧
    decode (.command 0x12 p) = .ok (.mwr p.int0 p.int1 p.num0) ∧
    decode (.command 0x13 p) = .ok (.mrd p.int0 p.int1) ∧
    decode (.command 0x20 p) = .ok (.sconfig p.int0 p.num0 p.num1 p.num2) ∧
    decode (.command 0x21 p) = .ok (.sduty p.int0 p.num0) ∧
    decode (.command 0x22 p) = .ok (.sset p.int0 p.num0) ∧
    decode (.command 0x23 p) = .ok (.srev p.int0) ∧
    decode (.command 0x24 p) = .ok (.swr p.int0 p.int1 p.num0) ∧
    decode (.command 0x25 p) = .ok (.srd p.int0 p.int1) ∧
    (docWellFormed p.doc = true → decode (.command 0x30 p) = .ok (.calload p.doc)) ∧
    decode (.command 0x31 p) = .ok .calsave ∧
    decode (.command 0x0A p) = .error .reservedOpcode ∧
    decode (.command 0x14 p) = .error .reservedOpcode ∧
    decode (.command 0xFF p) = .error .reservedOpcode) ∧
  decode (.encodeOut 0x08000000#32) = .ok (.blkEncLinear 0x800#12) ∧
  decode (.encodeOut 0x0FFF0000#32) = .ok .blkEncFullOn ∧
  decode (.encodeOut 0x00001000#32) = .ok .blkEncFullOffDoc ∧
  decode (.encodeOut 0x10000000#32) = .ok .blkEncFullOffNative ∧
  decode (.encodeOut 0x00000000#32) = .error .notARow ∧
  decode (.decodeIn 0xFFFFFFFF#32) = .ok (.blkDecFoff 7#3 0xFFF#12 7#3 true 0xFFF#12) ∧
  decode (.decodeIn 0x0FFF1FFF#32) = .ok (.blkDecFon 0#3 0xFFF#12 0#3 0xFFF#12) ∧
  decode (.decodeIn 0xE8000000#32) = .ok (.blkDecLinear 7#3 0x800#12 0#3 0#12) ∧
  decode (.setfreqByte .w1 0x31#8) = .ok (.setfreqW1 false true false false false true) ∧
  decode (.setfreqByte .w2 0x04#8) = .ok (.setfreqW2 0x04#8) ∧
  decode (.setfreqByte .w3 0xA1#8) = .ok (.setfreqW3 true false true false false false false true) ∧
  decode (.setfreqByte .w4 0x31#8) = .ok (.setfreqW4 false false true false false false true)

/-- Decoding what the encoder gives brings every well-formed instruction back, every operand at every value; the one
exception is the linear row of count 4095, whose word is the full-on word (rule R56) and reads as that row. -/
def Obligations.DecodeAfterEncode : Prop :=
  (∀ i : Instr, wellFormed i = true → i ≠ .blkEncLinear 4095#12 → decode (encode i) = .ok i) ∧
  decode (encode (.blkEncLinear 4095#12)) = .ok .blkEncFullOn

/-- What the decoder accepts is well formed, and its word is the encoder's word: no bit of a byte format and no bit of
an opcode is ignored. -/
def Obligations.EncodeAfterDecode : Prop :=
  ∀ (p : Presented) (i : Instr), decode p = .ok i →
    wellFormed i = true ∧
    match p with
    | .command op _ => ∃ q : Ports, encode i = .command op q
    | .encodeOut w => encode i = .encodeOut w
    | .decodeIn w => encode i = .decodeIn w
    | .setfreqByte k b => encode i = .setfreqByte k b

/-- A step runs the instruction that stands first at the host port (rules R9, R11): `exec` on the state with that move
taken. With nothing presented nothing happens (rule R154; that the machine then idles is the model's choice, log entry
9). -/
def Obligations.StepRunsThePresentedInstruction : Prop :=
  (∀ (s : State) (p : Presented) (rest : List HostMove) (i : Instr),
    s.host = .present p :: rest → decode p = .ok i → step s = exec i { s with host := rest }) ∧
  (∀ s : State, s.host = [] → step s = .next s)

/-- R65, R150: exactly the opcodes of the table are instructions; every other is refused as `reserved_opcode`, with no
transaction and no register written but the latch, and as `faulted` when the latch was already set. -/
def Obligations.ReservedOpcodesAreRefused : Prop :=
  ∀ (op : Byte) (ports : Ports),
    op ∉ ([0x00, 0x01, 0x02, 0x03, 0x04, 0x05, 0x06, 0x07, 0x08, 0x09, 0x10, 0x11, 0x12, 0x13, 0x20, 0x21, 0x22,
      0x23, 0x24, 0x25, 0x30, 0x31] : List Byte) →
    ∀ (s : State) (rest : List HostMove), s.host = .present (.command op ports) :: rest →
      (s.latch = none → step s = .next
        { s with host := rest, latch := some (.refused .reservedOpcode), resp := some (.refused .reservedOpcode) }) ∧
      (s.latch ≠ none → step s = .next { s with host := rest, resp := some (.refused .faulted) })

/-- R25, R170, R171: reset gives every register of the block its reset value for the supplied parameters, clears the
latch, `cmdidx` and the trace, and issues no transaction. The model's choices of log entry 12: the register file stays
(DEDUCED from R171 against R45), the last response is cleared, and the host's queue, the bus mode, the pending answers
and the transaction counter stay (DESIGN CHOICE). -/
def Obligations.ResetMoveGivesResetValues : Prop :=
  ∀ (s : State) (cfg : Config) (rest : List HostMove), s.host = .reset cfg :: rest →
    step s = .next
      { s with
        host := rest
        cfg := cfg
        freq := none
        latch := none
        motors := cfg.motors.map fun p => ⟨p.name, p.a, p.b, p.alpha, p.beta, none⟩
        servos := cfg.servos.map fun p =>
          match p.cal with
          | some c => ⟨p.name, p.ch, some c.alpha0, some c.alpha1, some c.beta, some c.minDuty, some c.maxDuty⟩
          | none => ⟨p.name, p.ch, none, none, none, none, none⟩
        trace := []
        cmdidx := 0
        resp := none }

/-- R25, R172: the values of the machine right after reset, for every value of the parameters: every Motor unit with its
key, channels and `CAL_INIT` pair, every Servo unit with its key, channel and five `CAL_INIT` coefficients or none.
`State.reset` is the machine with the documented parameters. The model's choices: the profile and channel pairs of
`State.reset` (those of program P6 of 95_test_vectors.md, log entry 3), and that the register file lists nothing, since
the spec gives the chip no reset value (log entry 14). -/
def Obligations.ResetStateValues : Prop :=
  (∀ cfg : Config,
    (State.resetWith cfg).freq = none ∧ (State.resetWith cfg).latch = none ∧ (State.resetWith cfg).cmdidx = 0 ∧
    (State.resetWith cfg).trace = [] ∧ (State.resetWith cfg).chip = [] ∧ (State.resetWith cfg).cfg = cfg ∧
    (State.resetWith cfg).motors = cfg.motors.map (fun p => ⟨p.name, p.a, p.b, p.alpha, p.beta, none⟩) ∧
    (State.resetWith cfg).servos.length = cfg.servos.length ∧
    ∀ (k : Nat) (p : ServoParams), cfg.servos[k]? = some p →
      (State.resetWith cfg).servos[k]? = some
        (match p.cal with
        | some c => ⟨p.name, p.ch, some c.alpha0, some c.alpha1, some c.beta, some c.minDuty, some c.maxDuty⟩
        | none => ⟨p.name, p.ch, none, none, none, none, none⟩)) ∧
  State.reset.motors = [⟨"left_motor", 0, 1, 1, 0, none⟩, ⟨"right_motor", 2, 3, -1, 0, none⟩] ∧
  State.reset.servos = [] ∧ State.reset.cfg.refClock = 25000000 ∧ State.reset.cfg.polarity = .doc

/-! ### Rules of the whole machine -/

/-- The invariant holds right after reset, whatever the parameters. -/
def Obligations.ResetMeetsInvariant : Prop := Invariant State.reset ∧ ∀ cfg : Config, Invariant (State.resetWith cfg)

/-- Every step keeps the invariant: canonical register file, positive frequency, bindings as the parameters say, only
transactions of the shapes of R36 with payloads of the encoder, the latch's first value. -/
def Obligations.StepKeepsInvariant : Prop :=
  ∀ s s' : State, Invariant s → step s = .next s' → Invariant s'

/-- R12, R150 (1): while the latch is set every command is refused as `faulted` and touches no register and no bus. That
the eleven byte-format rows are entered the same way is the model's choice (log entry 7). -/
def Obligations.SetLatchRefusesEveryInstruction : Prop :=
  ∀ (i : Instr) (s : State), s.latch ≠ none → exec i s = .next { s with resp := some (.refused .faulted) }

/-- R9, R11, R12, R151, R153: a command that is entered ends in exactly one of the three outcomes, each with its latch
and `cmdidx`; a byte-format row leaves `cmdidx` (log entry 7). -/
def Obligations.ThreeOutcomesKeptApart : Prop :=
  ∀ (i : Instr) (s : State), s.latch = none →
    ∃ s' : State, exec i s = .next s' ∧
      ((∃ r, s'.resp = some (.ok r) ∧ s'.latch = none ∧
          s'.cmdidx = if isCommand i then s.cmdidx + 1 else s.cmdidx) ∨
       (∃ e, s'.resp = some (.error e) ∧ s'.latch = some (.error e) ∧ s'.cmdidx = s.cmdidx) ∨
       (∃ r, r ≠ .faulted ∧ s'.resp = some (.refused r) ∧ s'.latch = some (.refused r) ∧ s'.cmdidx = s.cmdidx))

/-- R12, R157: nothing but reset clears the latch or changes what it recorded. -/
def Obligations.OnlyResetClearsTheLatch : Prop :=
  ∀ (s s' : State) (f : Latched), s.latch = some f → (∀ cfg rest, s.host ≠ .reset cfg :: rest) →
    step s = .next s' → s'.latch = some f

/-- Frame of every instruction over what no instruction changes: the parameters and each unit's binding (R10, R15,
R17), the host's queue and the bus mode; and the trace only grows, each new transaction using up one answer (R32,
R40). -/
def Obligations.BindingsStandAndTraceGrows : Prop :=
  ∀ (i : Instr) (s s' : State), exec i s = .next s' →
    s'.cfg = s.cfg ∧ s'.host = s.host ∧ s'.busMode = s.busMode ∧
    s'.motors.map Motor.binding = s.motors.map Motor.binding ∧
    s'.servos.map Servo.binding = s.servos.map Servo.binding ∧
    ∃ new : List Xact, s'.trace = s.trace ++ new ∧ s'.turns = s.turns.drop new.length ∧
      s'.busCount = s.busCount + new.length

/-- R36 (first row), R179: these commands issue no transaction, so nothing of the bus or the chip changes. That the seven
encoder and decoder rows of the table are instructions, and quiet ones, is the model's choice (log entry 7). -/
def Obligations.QuietInstructionsTouchNoBus : Prop :=
  ∀ (i : Instr) (s s' : State), isQuiet i = true → exec i s = .next s' →
    s'.chip = s.chip ∧ s'.trace = s.trace ∧ s'.turns = s.turns ∧ s'.busCount = s.busCount

/-- R30, R33, frame of the chip: an address reads as before unless a write the instruction issued covers it. -/
def Obligations.ChipChangesOnlyWhereWritten : Prop :=
  ∀ (i : Instr) (s s' : State) (a : Nat), exec i s = .next s' →
    (∀ x ∈ s'.trace.drop s.trace.length, ¬ x.writesTo a) →
    Memory.read? s'.chip a = Memory.read? s.chip a

/-- R80 (4), R22, R36: a transaction of a command lies in the channel registers 0x06..0x45, on whole blocks, unless
`SETFREQ` issued it, whose transactions touch only `MODE1` and `PRESCALE`, a byte at a time. That the byte rows of
`SETFREQ` are instructions of their own, with the same exception, is the model's choice (log entry 7). -/
def Obligations.TransactionsStayInTheirRegisters : Prop :=
  ∀ (i : Instr) (s s' : State), exec i s = .next s' →
    ∀ x ∈ s'.trace.drop s.trace.length,
      if programsTimebase i then (x.reg = 0x00 ∨ x.reg = 0xFE) ∧ x.len = 1
      else 0x06 ≤ x.reg ∧ x.reg + x.len ≤ 0x46 ∧ (x.reg - 0x06) % 4 = 0 ∧ x.len % 4 = 0 ∧ 4 ≤ x.len

/-- Frame of the registers (R14, R15, R16, R17, R80 (3)): which instructions change which registers, and for a command
that names a unit, no other unit. -/
def Obligations.RegisterFrames : Prop :=
  ∀ (i : Instr) (s s' : State), exec i s = .next s' →
    ((∀ hz, i ≠ .setfreq hz) → s'.freq = s.freq) ∧
    ((∀ u x, i ≠ .mset u x) → s'.motors.map (·.value) = s.motors.map (·.value)) ∧
    ((∀ u f x, i ≠ .mwr u f x) → (∀ doc, i ≠ .calload doc) →
      s'.motors.map (fun m => (m.alpha, m.beta)) = s.motors.map (fun m => (m.alpha, m.beta))) ∧
    ((∀ u a b c, i ≠ .sconfig u a b c) → (∀ u, i ≠ .srev u) → (∀ u f x, i ≠ .swr u f x) →
      (∀ doc, i ≠ .calload doc) → s'.servos = s.servos) ∧
    (∀ u x k, i = .mset u x → k ≠ u.toNat → s'.motors[k]? = s.motors[k]?) ∧
    (∀ u f x k, i = .mwr u f x → k ≠ u.toNat → s'.motors[k]? = s.motors[k]?) ∧
    (∀ u a b c k, i = .sconfig u a b c → k ≠ u.toNat → s'.servos[k]? = s.servos[k]?) ∧
    (∀ u k, i = .srev u → k ≠ u.toNat → s'.servos[k]? = s.servos[k]?) ∧
    (∀ u f x k, i = .swr u f x → k ≠ u.toNat → s'.servos[k]? = s.servos[k]?)

/-- R30, R45: what a completed write stores, byte by byte, and that it keeps the canonical form inside the 8-bit
register space. -/
def Obligations.StoredBytesReadBack : Prop :=
  ∀ (m : Memory) (reg : Nat) (bs : List Byte),
    (∀ a, Memory.read? (Memory.writeBytes m reg bs) a =
      if reg ≤ a ∧ a < reg + bs.length then bs[a - reg]? else Memory.read? m a) ∧
    Memory.readBytes (Memory.writeBytes m reg bs) reg bs.length = .ok bs ∧
    (Memory.wf m = true → reg + bs.length ≤ 256 → Memory.wf (Memory.writeBytes m reg bs) = true)

/-! ### Arithmetic of the encoder and decoder -/

/-- R7: `round_T` is a nearest integer, and on a tie the one `ROUND_TIE` names; for non-negative arguments two of the
rules agree; a tie of the duty-cycle rounding happens exactly at odd multiples of 1/8192. R8: `clamp` with its two
tests in order. -/
def Obligations.RoundingAndClamping : Prop :=
  (∀ (t : RoundTie) (x : Rat), |(roundT t x : Rat) - x| ≤ 1 / 2) ∧
  (∀ x : Rat, x - (x.floor : Rat) = 1 / 2 →
    roundT .halfEven x % 2 = 0 ∧ |x| < |(roundT .halfAway x : Rat)| ∧ roundT .halfUp x = x.floor + 1) ∧
  (∀ x : Rat, 0 ≤ x → roundT .halfAway x = roundT .halfUp x) ∧
  (∀ d : Rat, d * 4096 - ((d * 4096).floor : Rat) = 1 / 2 ↔ ∃ k : Int, d = (2 * (k : Rat) + 1) / 8192) ∧
  (∀ x lo hi : Rat, lo ≤ hi → clamp x lo hi = max lo (min x hi)) ∧
  (∀ x lo hi : Rat, hi < lo → clamp x lo hi = if x < lo then lo else hi)

/-- R53: the count of a duty cycle in [0, 1], its error, and exactly when it is 0 or 4096. -/
def Obligations.QuantizationOfDutyCycles : Prop :=
  ∀ (t : RoundTie) (d : Rat), 0 ≤ d → d ≤ 1 →
    0 ≤ intCycle t d ∧ intCycle t d ≤ 4096 ∧
    |(intCycle t d : Rat) / 4096 - d| ≤ 1 / 8192 ∧
    (intCycle t d = 0 ↔ d < 1 / 8192 ∨ (d = 1 / 8192 ∧ t = .halfEven)) ∧
    (intCycle t d = 4096 ↔ 8191 / 8192 ≤ d)

/-- R54, R55, R56, R70: `ENC` completes on every duty cycle in [0, 1] with the bytes the rules write out, and raises
`ValueError` outside; nothing else changes. -/
def Obligations.EncReturnsTheBlock : Prop :=
  ∀ (s : State) (d : Rat), s.latch = none →
    (0 ≤ d → d ≤ 1 → ∀ n : Int, n = roundT s.cfg.roundTie (d * 4096) →
      exec (.enc d) s = .next { s with
        cmdidx := s.cmdidx + 1
        resp := some (.ok (.block
          (if n = 0 then
            match s.cfg.polarity with
            | .doc => ⟨0x00#8, 0x10#8, 0x00#8, 0x00#8⟩
            | .native => ⟨0x00#8, 0x00#8, 0x00#8, 0x10#8⟩
          else if n = 4096 then ⟨0x00#8, 0x00#8, 0xFF#8, 0x0F#8⟩
          else ⟨0x00#8, 0x00#8, BitVec.ofInt 8 (n % 256), BitVec.ofInt 8 (n / 256)⟩))) }) ∧
    (d < 0 ∨ 1 < d →
      exec (.enc d) s = .next { s with latch := some (.error (.duty d)), resp := some (.error (.duty d)) })

/-- R57, R58, R71: `DEC` completes on every block with the value of the two flag tests in order, else the difference of
the two 12-bit counts over 4096; nothing else changes. -/
def Obligations.DecReturnsTheValue : Prop :=
  ∀ (s : State) (b : Block), s.latch = none →
    exec (.dec b) s = .next { s with
      cmdidx := s.cmdidx + 1
      resp := some (.ok (.num
        (if b.b3.getLsbD 4 then (match s.cfg.polarity with | .doc => 1 | .native => 0)
        else if b.b1.getLsbD 4 then (match s.cfg.polarity with | .doc => 0 | .native => 1)
        else (((b.b2.toNat + 256 * (b.b3.toNat % 16) : Nat) : Rat) - ((b.b0.toNat + 256 * (b.b1.toNat % 16) : Nat) : Rat)) /
          4096))) }

/-- R59, R60: the reserved bits 7..5 of the two high bytes are written 0 and ignored on read; without a flag the value
lies in -4095/4096..4095/4096 and is negative exactly when the on-count is the larger. -/
def Obligations.DecodeRangeAndReservedBits : Prop :=
  (∀ (p : FlagPolarity) (b : Block) (r1 r3 : Byte),
    decodeBlock p ⟨b.b0, (b.b1 &&& 0x1F#8) ||| (r1 &&& 0xE0#8), b.b2, (b.b3 &&& 0x1F#8) ||| (r3 &&& 0xE0#8)⟩ =
      decodeBlock p b) ∧
  (∀ (cfg : Config) (d : Rat) (b : Block), encodeDuty cfg d = .ok b → b.b1 &&& 0xE0#8 = 0#8 ∧ b.b3 &&& 0xE0#8 = 0#8) ∧
  (∀ (p : FlagPolarity) (b : Block), b.b1.getLsbD 4 = false → b.b3.getLsbD 4 = false →
    -4095 / 4096 ≤ decodeBlock p b ∧ decodeBlock p b ≤ 4095 / 4096 ∧
    (decodeBlock p b < 0 ↔ b.b2.toNat + 256 * (b.b3.toNat % 16) < b.b0.toNat + 256 * (b.b1.toNat % 16)))

/-- R61, all four laws: the value read back, its error with the cases of equality, that 1 never reads back as 1, and
that a block with `FOFF` does not re-encode to itself. -/
def Obligations.RoundTripOfDutyCycles : Prop :=
  (∀ (cfg : Config) (d : Rat), 0 ≤ d → d ≤ 1 →
    ∃ b : Block, encodeDuty cfg d = .ok b ∧
      decodeBlock cfg.polarity b =
        (if intCycle cfg.roundTie d = 0 then 0
        else if intCycle cfg.roundTie d = 4096 then 4095 / 4096
        else (intCycle cfg.roundTie d : Rat) / 4096) ∧
      (1 ≤ intCycle cfg.roundTie d → intCycle cfg.roundTie d ≤ 4095 →
        |decodeBlock cfg.polarity b - d| ≤ 1 / 8192) ∧
      (intCycle cfg.roundTie d = 0 → |decodeBlock cfg.polarity b - d| ≤ 1 / 8192 ∧
        (|decodeBlock cfg.polarity b - d| = 1 / 8192 ↔ d = 1 / 8192)) ∧
      (intCycle cfg.roundTie d = 4096 → |decodeBlock cfg.polarity b - d| ≤ 1 / 4096 ∧
        (|decodeBlock cfg.polarity b - d| = 1 / 4096 ↔ d = 1))) ∧
  (∀ cfg : Config, ∃ b : Block, encodeDuty cfg 1 = .ok b ∧ decodeBlock cfg.polarity b = 4095 / 4096) ∧
  (∀ (cfg : Config) (b : Block), cfg.polarity = .doc → b.b3.getLsbD 4 = true →
    encodeDuty cfg (decodeBlock cfg.polarity b) = .ok ⟨0x00#8, 0x00#8, 0xFF#8, 0x0F#8⟩)

/-! ### Driver commands -/

/-- R72, R63: `SETFREQ` completes when the prescale fits a byte and the five transactions do, with exactly those
transactions, and records the requested frequency. -/
def Obligations.SetfreqProgramsTheChip : Prop :=
  ∀ (s : State) (hz p : Int) (old : Byte), s.latch = none → 0 < hz →
    p = roundT s.cfg.roundTie ((s.cfg.refClock : Rat) / 4096 / (hz : Rat)) → p ≤ 255 →
    s.readsAs 0 0x00 1 [old] → s.accepts 1 → s.accepts 2 → s.accepts 3 → s.accepts 4 →
    exec (.setfreq hz) s = .next
      { (s.didRead [(0x00, [old])]).wrote
          [(0x00, [(old &&& 0x7F#8) ||| 0x10#8]), (0xFE, [BitVec.ofInt 8 p]), (0x00, [old]), (0x00, [old ||| 0x20#8])] with
        freq := some hz
        cmdidx := s.cmdidx + 1
        resp := some (.ok .none) }

/-- R72, R147 (b): `SETFREQ` raises `ValueError` before any transaction for a frequency that is not positive and for a
prescale above 255; nothing else changes. -/
def Obligations.SetfreqValueErrors : Prop :=
  ∀ (s : State) (hz p : Int), s.latch = none →
    (hz ≤ 0 → exec (.setfreq hz) s = .next
      { s with latch := some (.error (.freq hz)), resp := some (.error (.freq hz)) }) ∧
    (0 < hz → p = roundT s.cfg.roundTie ((s.cfg.refClock : Rat) / 4096 / (hz : Rat)) → 255 < p →
      exec (.setfreq hz) s = .next
        { s with latch := some (.error (.prescale p)), resp := some (.error (.prescale p)) })

/-- R72, R149, R180: when the k-th of the five transactions of `SETFREQ` fails, the earlier ones stay performed, none
follows, the error names its place in the trace, and `DRV.freq` keeps its old value. R46: a read of `MODE1` that answers
a wrong number of bytes is such a failure, `short_read`, with no write issued. That the place is counted from 0 is the
model's reading of R145 (log entry 17). -/
def Obligations.SetfreqFailureKeepsFrequency : Prop :=
  ∀ (s : State) (hz p : Int), s.latch = none → 0 < hz →
    p = roundT s.cfg.roundTie ((s.cfg.refClock : Rat) / 4096 / (hz : Rat)) → p ≤ 255 →
    (∀ (old : Byte) (k : Nat),
      k < 5 → (0 < k → s.readsAs 0 0x00 1 [old]) → (∀ j, 0 < j → j < k → s.accepts j) → ¬ s.accepts k →
      ∃ s' : State, exec (.setfreq hz) s = .next s' ∧
        s'.freq = s.freq ∧ s'.cmdidx = s.cmdidx ∧
        s'.latch = some (.error (.transport .opaque (s.trace.length + k))) ∧
        s'.resp = some (.error (.transport .opaque (s.trace.length + k))) ∧
        s'.trace = s.trace ++
          (([.read s.cfg.deviceAddr 0x00 1 [old],
            .write s.cfg.deviceAddr 0x00 [(old &&& 0x7F#8) ||| 0x10#8],
            .write s.cfg.deviceAddr 0xFE [BitVec.ofInt 8 p],
            .write s.cfg.deviceAddr 0x00 [old]] : List Xact).take k ++
          (([.readFailed s.cfg.deviceAddr 0x00 1,
            .writeFailed s.cfg.deviceAddr 0x00 [(old &&& 0x7F#8) ||| 0x10#8],
            .writeFailed s.cfg.deviceAddr 0xFE [BitVec.ofInt 8 p],
            .writeFailed s.cfg.deviceAddr 0x00 [old],
            .writeFailed s.cfg.deviceAddr 0x00 [old ||| 0x20#8]] : List Xact).drop k).take 1)) ∧
    (∀ bs : List Byte, s.turnAt 0 = .answer (.bytes bs) → bs.length ≠ 1 →
      exec (.setfreq hz) s = .next
        { s with
          trace := s.trace ++ [.readFailed s.cfg.deviceAddr 0x00 1]
          turns := s.turns.drop 1
          busCount := s.busCount + 1
          latch := some (.error (.transport .shortRead s.trace.length))
          resp := some (.error (.transport .shortRead s.trace.length)) })

/-- R73: `GETFREQ` returns the recorded frequency, or is refused as `Unset(DRV.freq)`; nothing else changes. -/
def Obligations.GetfreqReturnsTheRecord : Prop :=
  ∀ s : State, s.latch = none →
    (∀ hz, s.freq = some hz →
      exec .getfreq s = .next { s with cmdidx := s.cmdidx + 1, resp := some (.ok (.int hz)) }) ∧
    (s.freq = none → exec .getfreq s = .next
      { s with latch := some (.refused (.unset .drvFreq)), resp := some (.refused (.unset .drvFreq)) })

/-- R74: `SETDC` completes for a channel in 0..15 and a duty cycle in [0, 1] when its one transaction does: four bytes
at 0x06 + 4*ch, nothing else changed. -/
def Obligations.SetdcWritesOneBlock : Prop :=
  ∀ (s : State) (ch : Int) (d : Rat), s.latch = none → 0 ≤ ch → ch ≤ 15 → 0 ≤ d → d ≤ 1 → s.accepts 0 →
    exec (.setdc ch d) s = .next
      { s.wrote [(0x06 + 4 * ch.toNat, (encodedBlock s.cfg d).toBytes)] with
        cmdidx := s.cmdidx + 1
        resp := some (.ok .none) }

/-- R74, R146, R147, R155: `SETDC` checks the channel first, then the duty cycle, both before any transaction; nothing
else changes. -/
def Obligations.SetdcChecksChannelThenDuty : Prop :=
  ∀ (s : State) (ch : Int) (d : Rat), s.latch = none →
    (ch < 0 ∨ 15 < ch → exec (.setdc ch d) s = .next
      { s with latch := some (.error (.channel ch)), resp := some (.error (.channel ch)) }) ∧
    (0 ≤ ch → ch ≤ 15 → d < 0 ∨ 1 < d → exec (.setdc ch d) s = .next
      { s with latch := some (.error (.duty d)), resp := some (.error (.duty d)) })

/-- R33, R149: a failed write of `SETDC` stands in the trace as failed, latches `TransportError` with its place, is not
retried, and leaves every register outside the block's four as before. That the place is counted from 0 is the model's
reading of R145 (log entry 17). -/
def Obligations.SetdcTransportFailure : Prop :=
  ∀ (s : State) (ch : Int) (d : Rat), s.latch = none → 0 ≤ ch → ch ≤ 15 → 0 ≤ d → d ≤ 1 → ¬ s.accepts 0 →
    ∃ chip' : Memory,
      exec (.setdc ch d) s = .next
        { s with
          chip := chip'
          trace := s.trace ++ [.writeFailed s.cfg.deviceAddr (0x06 + 4 * ch.toNat) (encodedBlock s.cfg d).toBytes]
          turns := s.turns.drop 1
          busCount := s.busCount + 1
          latch := some (.error (.transport .opaque s.trace.length))
          resp := some (.error (.transport .opaque s.trace.length)) } ∧
      ∀ a, a < 0x06 + 4 * ch.toNat ∨ 0x0A + 4 * ch.toNat ≤ a → Memory.read? chip' a = Memory.read? s.chip a

/-- R75, R46, R149: `GETDC` completes with the decoded answer; a bad channel raises before the read; a failed or short
read raises `TransportError`; nothing else changes. That the failed read's recorded place is counted from 0 is the
model's reading of R145 (log entry 17). -/
def Obligations.GetdcDecodesTheAnswer : Prop :=
  ∀ (s : State) (ch : Int), s.latch = none →
    (0 ≤ ch → ch ≤ 15 → ∀ b0 b1 b2 b3 : Byte, s.readsAs 0 (0x06 + 4 * ch.toNat) 4 [b0, b1, b2, b3] →
      exec (.getdc ch) s = .next
        { s.didRead [(0x06 + 4 * ch.toNat, [b0, b1, b2, b3])] with
          cmdidx := s.cmdidx + 1
          resp := some (.ok (.num (decodeBlock s.cfg.polarity ⟨b0, b1, b2, b3⟩))) }) ∧
    (ch < 0 ∨ 15 < ch → exec (.getdc ch) s = .next
      { s with latch := some (.error (.channel ch)), resp := some (.error (.channel ch)) }) ∧
    (0 ≤ ch → ch ≤ 15 → ∀ why : TransportInfo,
      (why = .opaque ∧ s.turnAt 0 = .answer .fail) ∨
        (why = .shortRead ∧ ∃ bs, s.turnAt 0 = .answer (.bytes bs) ∧ bs.length ≠ 4) →
      exec (.getdc ch) s = .next
        { s with
          trace := s.trace ++ [.readFailed s.cfg.deviceAddr (0x06 + 4 * ch.toNat) 4]
          turns := s.turns.drop 1
          busCount := s.busCount + 1
          latch := some (.error (.transport why s.trace.length))
          resp := some (.error (.transport why s.trace.length)) })

/-- R76, R62: `SETRANGE` completes on a supported shape inside the channels with ONE transaction of 4*n bytes. -/
def Obligations.SetrangeWritesOneBurst : Prop :=
  ∀ (s : State) (start n : Int) (ds : List Rat), s.latch = none → 1 ≤ n → (ds.length : Int) = n → 0 ≤ start →
    start + n - 1 ≤ 15 → (∀ d ∈ ds, 0 ≤ d ∧ d ≤ 1) → s.accepts 0 →
    exec (.setrange start n ds) s = .next
      { s.wrote [(0x06 + 4 * start.toNat, (ds.map fun d => (encodedBlock s.cfg d).toBytes).flatten)] with
        cmdidx := s.cmdidx + 1
        resp := some (.ok .none) }

/-- R76, R146, R147, R155: on a supported shape `SETRANGE` raises `AddressingError` for a range outside the channels
whatever the values, else `ValueError` at the lowest bad index, both before the transaction. -/
def Obligations.SetrangeErrorOrder : Prop :=
  ∀ (s : State) (start n : Int) (ds : List Rat), s.latch = none → 1 ≤ n → (ds.length : Int) = n →
    (start < 0 ∨ 15 < start + n - 1 → exec (.setrange start n ds) s = .next
      { s with latch := some (.error (.channelRange start n)), resp := some (.error (.channelRange start n)) }) ∧
    (0 ≤ start → start + n - 1 ≤ 15 → ∀ (good rest : List Rat) (d : Rat), ds = good ++ d :: rest →
      (∀ x ∈ good, 0 ≤ x ∧ x ≤ 1) → d < 0 ∨ 1 < d →
      exec (.setrange start n ds) s = .next
        { s with latch := some (.error (.duty d)), resp := some (.error (.duty d)) })

/-- R77, R62: `GETRANGE` completes with the decoded pieces of ONE read, and raises `AddressingError` for a range outside
the channels. -/
def Obligations.GetrangeReadsOneBurst : Prop :=
  ∀ (s : State) (start n : Int), s.latch = none → 1 ≤ n →
    (0 ≤ start → start + n - 1 ≤ 15 → ∀ bs : List Byte, s.readsAs 0 (0x06 + 4 * start.toNat) (4 * n.toNat) bs →
      ∃ xs : List Rat,
        exec (.getrange start n) s = .next
          { s.didRead [(0x06 + 4 * start.toNat, bs)] with
            cmdidx := s.cmdidx + 1
            resp := some (.ok (.nums xs)) } ∧
        (xs.length : Int) = n ∧
        ∀ (i : Nat) (b0 b1 b2 b3 : Byte), (bs.drop (4 * i)).take 4 = [b0, b1, b2, b3] →
          xs[i]? = some (decodeBlock s.cfg.polarity ⟨b0, b1, b2, b3⟩)) ∧
    (start < 0 ∨ 15 < start + n - 1 → exec (.getrange start n) s = .next
      { s with latch := some (.error (.channelRange start n)), resp := some (.error (.channelRange start n)) })

/-- R78: `SETLIST` completes with one transaction per element, in list order. -/
def Obligations.SetlistWritesEachElement : Prop :=
  ∀ (s : State) (n : Int) (chs : List Int) (ds : List Rat), s.latch = none → 1 ≤ n → (chs.length : Int) = n →
    (ds.length : Int) = n → (∀ ch ∈ chs, 0 ≤ ch ∧ ch ≤ 15) → (∀ d ∈ ds, 0 ≤ d ∧ d ≤ 1) →
    (∀ k : Nat, (k : Int) < n → s.accepts k) →
    exec (.setlist n chs ds) s = .next
      { s.wrote ((chs.zip ds).map fun e => (0x06 + 4 * e.1.toNat, (encodedBlock s.cfg e.2).toBytes)) with
        cmdidx := s.cmdidx + 1
        resp := some (.ok .none) }

/-- R78, R37, R155, R180: an element of `SETLIST` that fails its checks leaves the elements before it written and issues
nothing for itself or the ones after it; its channel is checked before its value. -/
def Obligations.SetlistStopsAtTheFirstBadElement : Prop :=
  ∀ (s : State) (n : Int) (good rest : List (Int × Rat)) (ch : Int) (d : Rat), s.latch = none →
    n = ((good ++ (ch, d) :: rest).length : Int) → (∀ e ∈ good, 0 ≤ e.1 ∧ e.1 ≤ 15 ∧ 0 ≤ e.2 ∧ e.2 ≤ 1) →
    (∀ k, k < good.length → s.accepts k) →
    ∀ e : ErrorInfo,
      ((ch < 0 ∨ 15 < ch) ∧ e = .channel ch) ∨ (0 ≤ ch ∧ ch ≤ 15 ∧ (d < 0 ∨ 1 < d) ∧ e = .duty d) →
      exec (.setlist n ((good ++ (ch, d) :: rest).map Prod.fst) ((good ++ (ch, d) :: rest).map Prod.snd)) s = .next
        { s.wrote (good.map fun e => (0x06 + 4 * e.1.toNat, (encodedBlock s.cfg e.2).toBytes)) with
          latch := some (.error e)
          resp := some (.error e) }

/-- R79: `GETLIST` completes with one read per element, in list order, and the decoded answers. R79, R180: at its first
bad channel, or its first read that fails or is short (R46, R149), it stops with the earlier reads in the trace, issues
none for the elements after, and returns no result. That the failed read's recorded place is counted from 0 is the
model's reading of R145 (log entry 17). -/
def Obligations.GetlistReadsEachElement : Prop :=
  (∀ (s : State) (n : Int) (chs : List Int) (blks : List Block), s.latch = none → 1 ≤ n → (chs.length : Int) = n →
    blks.length = chs.length → (∀ ch ∈ chs, 0 ≤ ch ∧ ch ≤ 15) →
    (∀ (k : Nat) (ch : Int) (b : Block), chs[k]? = some ch → blks[k]? = some b →
      s.readsAs k (0x06 + 4 * ch.toNat) 4 [b.b0, b.b1, b.b2, b.b3]) →
    exec (.getlist n chs) s = .next
      { s.didRead ((chs.zip blks).map fun e => (0x06 + 4 * e.1.toNat, [e.2.b0, e.2.b1, e.2.b2, e.2.b3])) with
        cmdidx := s.cmdidx + 1
        resp := some (.ok (.nums (blks.map (decodeBlock s.cfg.polarity)))) }) ∧
  (∀ (s : State) (n : Int) (good : List (Int × Block)) (ch : Int) (rest : List Int), s.latch = none →
    n = ((good.map Prod.fst ++ ch :: rest).length : Int) → (∀ e ∈ good, 0 ≤ e.1 ∧ e.1 ≤ 15) →
    (∀ (k : Nat) (e : Int × Block), good[k]? = some e →
      s.readsAs k (0x06 + 4 * e.1.toNat) 4 [e.2.b0, e.2.b1, e.2.b2, e.2.b3]) →
    (ch < 0 ∨ 15 < ch →
      exec (.getlist n (good.map Prod.fst ++ ch :: rest)) s = .next
        { s.didRead (good.map fun e => (0x06 + 4 * e.1.toNat, [e.2.b0, e.2.b1, e.2.b2, e.2.b3])) with
          latch := some (.error (.channel ch))
          resp := some (.error (.channel ch)) }) ∧
    (0 ≤ ch → ch ≤ 15 → ∀ why : TransportInfo,
      (why = .opaque ∧ s.turnAt good.length = .answer .fail) ∨
        (why = .shortRead ∧ ∃ bs, s.turnAt good.length = .answer (.bytes bs) ∧ bs.length ≠ 4) →
      exec (.getlist n (good.map Prod.fst ++ ch :: rest)) s = .next
        { s with
          trace := s.trace ++
            (good.map fun e =>
              .read s.cfg.deviceAddr (0x06 + 4 * e.1.toNat) 4 [e.2.b0, e.2.b1, e.2.b2, e.2.b3]) ++
            [.readFailed s.cfg.deviceAddr (0x06 + 4 * ch.toNat) 4]
          turns := s.turns.drop (good.length + 1)
          busCount := s.busCount + (good.length + 1)
          latch := some (.error (.transport why (s.trace.length + good.length)))
          resp := some (.error (.transport why (s.trace.length + good.length))) }))

/-- R81, R148: the four bulk commands raise `TypeError` with the shape on every unsupported shape, before any other
check and any transaction. The form of the recorded shape, the count and the list lengths, is the model's reading (log
entry 17). -/
def Obligations.BulkShapesAreChecked : Prop :=
  ∀ (s : State) (start n : Int) (chs : List Int) (ds : List Rat), s.latch = none →
    (n < 1 ∨ (ds.length : Int) ≠ n → exec (.setrange start n ds) s = .next
      { s with latch := some (.error (.shape ⟨n, none, some ds.length⟩)),
               resp := some (.error (.shape ⟨n, none, some ds.length⟩)) }) ∧
    (n < 1 → exec (.getrange start n) s = .next
      { s with latch := some (.error (.shape ⟨n, none, none⟩)), resp := some (.error (.shape ⟨n, none, none⟩)) }) ∧
    (n < 1 ∨ (chs.length : Int) ≠ n ∨ (ds.length : Int) ≠ n → exec (.setlist n chs ds) s = .next
      { s with latch := some (.error (.shape ⟨n, some chs.length, some ds.length⟩)),
               resp := some (.error (.shape ⟨n, some chs.length, some ds.length⟩)) }) ∧
    (n < 1 ∨ (chs.length : Int) ≠ n → exec (.getlist n chs) s = .next
      { s with latch := some (.error (.shape ⟨n, some chs.length, none⟩)),
               resp := some (.error (.shape ⟨n, some chs.length, none⟩)) })

/-! ### Motor commands -/

/-- R100: `MLEGS` completes for every unit and every speed; a unit that does not exist is refused (R150). -/
def Obligations.MlegsReturnsTheLegs : Prop :=
  ∀ (s : State) (u : Int) (speed : Rat), s.latch = none →
    (∀ (m : Motor) (v : Rat), 0 ≤ u → s.motors[u.toNat]? = some m → v = clamp (speed * m.alpha + m.beta) (-1) 1 →
      exec (.mlegs u speed) s = .next
        { s with
          cmdidx := s.cmdidx + 1
          resp := some (.ok (if v > 0 then .legs 0 v else .legs (-v) 0)) }) ∧
    (u < 0 ∨ (s.motors.length : Int) ≤ u → exec (.mlegs u speed) s = .next
      { s with latch := some (.refused .noSuchUnit), resp := some (.refused .noSuchUnit) })

/-- R104: the laws of the legs, and that `MLEGS` depends on nothing but its unit's two coefficients. -/
def Obligations.LegLaws : Prop :=
  (∀ v : Rat, (legsOf v).1 = max (-v) 0 ∧ (legsOf v).2 = max v 0 ∧ (legsOf v).1 * (legsOf v).2 = 0 ∧
    (legsOf v).2 - (legsOf v).1 = v ∧ (legsOf v).1 + (legsOf v).2 = |v|) ∧
  (∀ speed : Rat, -1 ≤ speed → speed ≤ 1 →
    (legsOf (motorDrive 1 0 speed)).1 - (legsOf (motorDrive 1 0 speed)).2 = -speed ∧
    (speed ≠ 0 → ((legsOf (motorDrive 1 0 speed)).1 = 0 ↔ (legsOf (motorDrive 1 0 speed)).2 ≠ 0)) ∧
    (speed = 0 → legsOf (motorDrive 1 0 speed) = (0, 0))) ∧
  (∀ alpha beta speed : Rat, 0 ≤ (legsOf (motorDrive alpha beta speed)).1 ∧ (legsOf (motorDrive alpha beta speed)).1 ≤ 1 ∧
    0 ≤ (legsOf (motorDrive alpha beta speed)).2 ∧ (legsOf (motorDrive alpha beta speed)).2 ≤ 1) ∧
  (∀ (s t : State) (u : Int) (speed : Rat) (m k : Motor), s.latch = none → t.latch = none → 0 ≤ u →
    s.motors[u.toNat]? = some m → t.motors[u.toNat]? = some k → m.alpha = k.alpha → m.beta = k.beta →
    ∃ r : Response,
      exec (.mlegs u speed) s = .next { s with cmdidx := s.cmdidx + 1, resp := some r } ∧
      exec (.mlegs u speed) t = .next { t with cmdidx := t.cmdidx + 1, resp := some r })

/-- R101: on contiguous channels `MSET` completes with one 8-byte burst of the two legs and caches the command as
given. -/
def Obligations.MsetContiguousBurst : Prop :=
  ∀ (s : State) (u : Int) (speed : Rat) (m : Motor), s.latch = none → 0 ≤ u → s.motors[u.toNat]? = some m →
    m.b = m.a + 1 → 0 ≤ m.a → m.a ≤ 14 → s.accepts 0 →
    exec (.mset u speed) s = .next
      { s.wrote [(0x06 + 4 * m.a.toNat,
          (encodedBlock s.cfg (legsOf (motorDrive m.alpha m.beta speed)).1).toBytes ++
          (encodedBlock s.cfg (legsOf (motorDrive m.alpha m.beta speed)).2).toBytes)] with
        motors := s.motors.set u.toNat { m with value := some speed }
        cmdidx := s.cmdidx + 1
        resp := some (.ok .none) }

/-- R101, R181: on any other channels `MSET` completes with two single-channel writes, leg A first. -/
def Obligations.MsetSplitWrites : Prop :=
  ∀ (s : State) (u : Int) (speed : Rat) (m : Motor), s.latch = none → 0 ≤ u → s.motors[u.toNat]? = some m →
    m.b ≠ m.a + 1 → 0 ≤ m.a → m.a ≤ 15 → 0 ≤ m.b → m.b ≤ 15 → s.accepts 0 → s.accepts 1 →
    exec (.mset u speed) s = .next
      { s.wrote [(0x06 + 4 * m.a.toNat, (encodedBlock s.cfg (legsOf (motorDrive m.alpha m.beta speed)).1).toBytes),
          (0x06 + 4 * m.b.toNat, (encodedBlock s.cfg (legsOf (motorDrive m.alpha m.beta speed)).2).toBytes)] with
        motors := s.motors.set u.toNat { m with value := some speed }
        cmdidx := s.cmdidx + 1
        resp := some (.ok .none) }

/-- R16, R101, R151: `MSET` caches its command before it can raise, however it ends; a bad binding raises
`AddressingError`, on the contiguous path before any transaction, on the split path after leg A's write if `a` is
good. -/
def Obligations.MsetCachesThenReportsBadChannels : Prop :=
  ∀ (s : State) (u : Int) (speed : Rat) (m : Motor), s.latch = none → 0 ≤ u → s.motors[u.toNat]? = some m →
    (∃ s' : State, exec (.mset u speed) s = .next s' ∧
      s'.motors = s.motors.set u.toNat { m with value := some speed }) ∧
    (m.b = m.a + 1 → m.a < 0 ∨ 14 < m.a → exec (.mset u speed) s = .next
      { s with
        motors := s.motors.set u.toNat { m with value := some speed }
        latch := some (.error (.channelRange m.a 2))
        resp := some (.error (.channelRange m.a 2)) }) ∧
    (m.b ≠ m.a + 1 → m.a < 0 ∨ 15 < m.a → exec (.mset u speed) s = .next
      { s with
        motors := s.motors.set u.toNat { m with value := some speed }
        latch := some (.error (.channel m.a))
        resp := some (.error (.channel m.a)) }) ∧
    (m.b ≠ m.a + 1 → 0 ≤ m.a → m.a ≤ 15 → m.b < 0 ∨ 15 < m.b → s.accepts 0 → exec (.mset u speed) s = .next
      { s.wrote [(0x06 + 4 * m.a.toNat, (encodedBlock s.cfg (legsOf (motorDrive m.alpha m.beta speed)).1).toBytes)] with
        motors := s.motors.set u.toNat { m with value := some speed }
        latch := some (.error (.channel m.b))
        resp := some (.error (.channel m.b)) })

/-- R102: `MWR` writes `alpha` or `beta` and nothing else, and refuses every other field. -/
def Obligations.MwrWritesACoefficient : Prop :=
  ∀ (s : State) (u : Int) (v : Rat) (m : Motor), s.latch = none → 0 ≤ u → s.motors[u.toNat]? = some m →
    exec (.mwr u 0 v) s = .next
      { s with motors := s.motors.set u.toNat { m with alpha := v }, cmdidx := s.cmdidx + 1, resp := some (.ok .none) } ∧
    exec (.mwr u 1 v) s = .next
      { s with motors := s.motors.set u.toNat { m with beta := v }, cmdidx := s.cmdidx + 1, resp := some (.ok .none) } ∧
    ∀ f : Int, f ≠ 0 → f ≠ 1 → exec (.mwr u f v) s = .next
      { s with latch := some (.refused .noSuchRegister), resp := some (.refused .noSuchRegister) }

/-- R103: `MRD` returns `alpha`, `beta` or `value`, refuses an unset `value` by name and every other field. -/
def Obligations.MrdReadsARegister : Prop :=
  ∀ (s : State) (u : Int) (m : Motor), s.latch = none → 0 ≤ u → s.motors[u.toNat]? = some m →
    exec (.mrd u 0) s = .next { s with cmdidx := s.cmdidx + 1, resp := some (.ok (.num m.alpha)) } ∧
    exec (.mrd u 1) s = .next { s with cmdidx := s.cmdidx + 1, resp := some (.ok (.num m.beta)) } ∧
    (∀ x, m.value = some x →
      exec (.mrd u 2) s = .next { s with cmdidx := s.cmdidx + 1, resp := some (.ok (.num x)) }) ∧
    (m.value = none → exec (.mrd u 2) s = .next
      { s with latch := some (.refused (.unset (.motorValue u.toNat))),
               resp := some (.refused (.unset (.motorValue u.toNat))) }) ∧
    ∀ f : Int, f ≠ 0 → f ≠ 1 → f ≠ 2 → exec (.mrd u f) s = .next
      { s with latch := some (.refused .noSuchRegister), resp := some (.refused .noSuchRegister) }

/-! ### Servo commands -/

/-- R115: `SCONFIG` completes for every unit and any widths once `DRV.freq` is set, with the five derived values; with
`DRV.freq` unset it is refused. -/
def Obligations.SconfigDerivesTheCoefficients : Prop :=
  ∀ (s : State) (u : Int) (minW centerW maxW : Rat) (v : Servo), s.latch = none → 0 ≤ u →
    s.servos[u.toNat]? = some v →
    (∀ (hz : Int) (period : Rat), s.freq = some hz → period = 1000000 / (hz : Rat) →
      exec (.sconfig u minW centerW maxW) s = .next
        { s with
          servos := s.servos.set u.toNat
            { v with
              minDuty := some (minW / period)
              maxDuty := some (maxW / period)
              alpha0 := some (maxW / period - centerW / period)
              alpha1 := some (centerW / period - minW / period)
              beta := some (centerW / period) }
          cmdidx := s.cmdidx + 1
          resp := some (.ok .none) }) ∧
    (s.freq = none → exec (.sconfig u minW centerW maxW) s = .next
      { s with latch := some (.refused (.unset .drvFreq)), resp := some (.refused (.unset .drvFreq)) })

/-- R116: `SDUTY` completes with the clamped line of the position's side, reading only that side's slope; a unit that
was never configured is refused (the register named first is the model's choice, log entry 11). -/
def Obligations.SdutyIsPiecewiseLinear : Prop :=
  ∀ (s : State) (u : Int) (pos : Rat) (v : Servo), s.latch = none → 0 ≤ u → s.servos[u.toNat]? = some v →
    (∀ a b lo hi : Rat, 0 < pos → v.alpha0 = some a → v.beta = some b → v.minDuty = some lo → v.maxDuty = some hi →
      exec (.sduty u pos) s = .next
        { s with cmdidx := s.cmdidx + 1, resp := some (.ok (.num (clamp (pos * a + b) lo hi))) }) ∧
    (∀ a b lo hi : Rat, pos ≤ 0 → v.alpha1 = some a → v.beta = some b → v.minDuty = some lo → v.maxDuty = some hi →
      exec (.sduty u pos) s = .next
        { s with cmdidx := s.cmdidx + 1, resp := some (.ok (.num (clamp (pos * a + b) lo hi))) }) ∧
    ((0 < pos ∧ v.alpha0 = none) ∨ (pos ≤ 0 ∧ v.alpha1 = none) ∨ v.beta = none ∨ v.minDuty = none ∨ v.maxDuty = none →
      ∃ f : ServoField, exec (.sduty u pos) s = .next
        { s with latch := some (.refused (.unset (.servo u.toNat f))),
                 resp := some (.refused (.unset (.servo u.toNat f))) })

/-- R121 (1) to (5): the laws of the Servo transform. -/
def Obligations.ServoLaws : Prop :=
  (∀ (s : State) (u : Int) (v : Servo) (a0 a1 b lo hi : Rat), s.latch = none → 0 ≤ u → s.servos[u.toNat]? = some v →
    v.alpha0 = some a0 → v.alpha1 = some a1 → v.beta = some b → v.minDuty = some lo → v.maxDuty = some hi →
    (lo ≤ b → b ≤ hi → answeredNum (exec (.sduty u 0) s) = some b) ∧
    (lo ≤ hi → ∀ pos, ∃ d, answeredNum (exec (.sduty u pos) s) = some d ∧ lo ≤ d ∧ d ≤ hi) ∧
    (∃ t, exec (.srev u) s = .next t ∧
      (∀ pos, answeredNum (exec (.sduty u pos) t) = answeredNum (exec (.sduty u (-pos)) s)) ∧
      ∃ t', exec (.srev u) t = .next t' ∧ t'.servos = s.servos)) ∧
  (∀ (s : State) (u hz : Int) (v : Servo) (minW centerW maxW : Rat), s.latch = none → 0 ≤ u →
    s.servos[u.toNat]? = some v → s.freq = some hz → 0 < hz → minW ≤ centerW → centerW ≤ maxW →
    ∃ (t : State) (a0 a1 b lo hi : Rat), exec (.sconfig u minW centerW maxW) s = .next t ∧
      t.servos[u.toNat]? = some { v with alpha0 := some a0, alpha1 := some a1, beta := some b, minDuty := some lo,
                                         maxDuty := some hi } ∧
      0 ≤ a0 ∧ 0 ≤ a1 ∧ b + a0 = hi ∧ b - a1 = lo ∧
      answeredNum (exec (.sduty u 1) t) = some hi ∧ answeredNum (exec (.sduty u (-1)) t) = some lo ∧
      answeredNum (exec (.sduty u 0) t) = some b ∧
      ∀ pos, -1 ≤ pos → pos ≤ 1 →
        answeredNum (exec (.sduty u pos) t) = some (if 0 < pos then pos * a0 + b else pos * a1 + b))

/-- R117, R116, R74: on a unit whose needed coefficients are set `SSET` completes with one write of the position's duty
cycle `d` to the unit's channel; a channel outside 0..15 raises `AddressingError`, and `d` outside [0, 1] raises
`ValueError`, without a transaction. R13: with a needed coefficient unset it is refused, naming one that is unset (which
of several is the model's choice, log entry 11). -/
def Obligations.SsetWritesTheDuty : Prop :=
  ∀ (s : State) (u : Int) (pos : Rat) (v : Servo), s.latch = none → 0 ≤ u → s.servos[u.toNat]? = some v →
    (∀ a b lo hi d : Rat, (0 < pos → v.alpha0 = some a) → (pos ≤ 0 → v.alpha1 = some a) → v.beta = some b →
      v.minDuty = some lo → v.maxDuty = some hi → d = clamp (pos * a + b) lo hi →
      (0 ≤ v.ch → v.ch ≤ 15 → 0 ≤ d → d ≤ 1 → s.accepts 0 →
        exec (.sset u pos) s = .next
          { s.wrote [(0x06 + 4 * v.ch.toNat, (encodedBlock s.cfg d).toBytes)] with
            cmdidx := s.cmdidx + 1
            resp := some (.ok .none) }) ∧
      (v.ch < 0 ∨ 15 < v.ch → exec (.sset u pos) s = .next
        { s with latch := some (.error (.channel v.ch)), resp := some (.error (.channel v.ch)) }) ∧
      (0 ≤ v.ch → v.ch ≤ 15 → d < 0 ∨ 1 < d → exec (.sset u pos) s = .next
        { s with latch := some (.error (.duty d)), resp := some (.error (.duty d)) })) ∧
    ((0 < pos ∧ v.alpha0 = none) ∨ (pos ≤ 0 ∧ v.alpha1 = none) ∨ v.beta = none ∨ v.minDuty = none ∨ v.maxDuty = none →
      ∃ f ∈ ([if 0 < pos then .alpha0 else .alpha1, .beta, .minDuty, .maxDuty] : List ServoField),
        v.get f = none ∧
        exec (.sset u pos) s = .next
          { s with latch := some (.refused (.unset (.servo u.toNat f))),
                   resp := some (.refused (.unset (.servo u.toNat f))) })

/-- R118: `SREV` completes when both slopes are set, with the two negated and exchanged and nothing else changed; twice
it restores the registers; on an unset slope it is refused. -/
def Obligations.SrevNegatesAndExchanges : Prop :=
  ∀ (s : State) (u : Int) (v : Servo), s.latch = none → 0 ≤ u → s.servos[u.toNat]? = some v →
    (∀ a0 a1 : Rat, v.alpha0 = some a0 → v.alpha1 = some a1 →
      exec (.srev u) s = .next
        { s with
          servos := s.servos.set u.toNat { v with alpha0 := some (-a1), alpha1 := some (-a0) }
          cmdidx := s.cmdidx + 1
          resp := some (.ok .none) } ∧
      ∀ t, exec (.srev u) s = .next t → exec (.srev u) t = .next
        { s with cmdidx := s.cmdidx + 2, resp := some (.ok .none) }) ∧
    (v.alpha0 = none ∨ v.alpha1 = none → ∃ f : ServoField, exec (.srev u) s = .next
      { s with latch := some (.refused (.unset (.servo u.toNat f))),
               resp := some (.refused (.unset (.servo u.toNat f))) })

/-- R119, R120: `SWR` writes the numbered coefficient and nothing else, `SRD` returns it or refuses it while unset; both
refuse every other field number. -/
def Obligations.ServoRegisterAccess : Prop :=
  ∀ (s : State) (u : Int) (x : Rat) (v : Servo), s.latch = none → 0 ≤ u → s.servos[u.toNat]? = some v →
    (∀ (f : Int) (w : Servo),
      (f, w) ∈ ([(0, { v with alpha0 := some x }), (1, { v with alpha1 := some x }), (2, { v with beta := some x }),
        (3, { v with minDuty := some x }), (4, { v with maxDuty := some x })] : List (Int × Servo)) →
      exec (.swr u f x) s = .next
        { s with servos := s.servos.set u.toNat w, cmdidx := s.cmdidx + 1, resp := some (.ok .none) }) ∧
    (∀ (f : Int) (fld : ServoField) (r : Option Rat),
      (f, fld, r) ∈ ([(0, .alpha0, v.alpha0), (1, .alpha1, v.alpha1), (2, .beta, v.beta), (3, .minDuty, v.minDuty),
        (4, .maxDuty, v.maxDuty)] : List (Int × ServoField × Option Rat)) →
      (∀ y, r = some y →
        exec (.srd u f) s = .next { s with cmdidx := s.cmdidx + 1, resp := some (.ok (.num y)) }) ∧
      (r = none → exec (.srd u f) s = .next
        { s with latch := some (.refused (.unset (.servo u.toNat fld))),
                 resp := some (.refused (.unset (.servo u.toNat fld))) })) ∧
    (∀ f : Int, f < 0 ∨ 4 < f →
      exec (.swr u f x) s = .next
        { s with latch := some (.refused .noSuchRegister), resp := some (.refused .noSuchRegister) } ∧
      exec (.srd u f) s = .next
        { s with latch := some (.refused .noSuchRegister), resp := some (.refused .noSuchRegister) })

/-- R150 (3), R153: a unit index outside 0..NM-1 or 0..NS-1 refuses every command that names a unit, whatever its other
operands, with nothing changed but the latch. -/
def Obligations.MissingUnitsAreRefused : Prop :=
  ∀ (s : State) (u f : Int) (x y z : Rat), s.latch = none →
    (u < 0 ∨ (s.motors.length : Int) ≤ u →
      ∀ i ∈ ([.mlegs u x, .mset u x, .mwr u f x, .mrd u f] : List Instr), exec i s = .next
        { s with latch := some (.refused .noSuchUnit), resp := some (.refused .noSuchUnit) }) ∧
    (u < 0 ∨ (s.servos.length : Int) ≤ u →
      ∀ i ∈ ([.sconfig u x y z, .sduty u x, .sset u x, .srev u, .swr u f x, .srd u f] : List Instr), exec i s = .next
        { s with latch := some (.refused .noSuchUnit), resp := some (.refused .noSuchUnit) })

/-! ### Calibration load and save -/

/-- R135: a document with every required field of every unit loads them all, and nothing else changes. -/
def Obligations.CalloadLoadsEveryUnit : Prop :=
  ∀ (s : State) (doc : DocMap) (motors : List Motor) (servos : List Servo), s.latch = none →
    motors.length = s.motors.length → servos.length = s.servos.length →
    (∀ (k : Nat) (m m' : Motor), s.motors[k]? = some m → motors[k]? = some m' →
      ∃ fs, docLookup doc m.name = some fs ∧ docLookup fs "alpha" = some m'.alpha ∧
        docLookup fs "beta" = some m'.beta ∧ m' = { m with alpha := m'.alpha, beta := m'.beta }) →
    (∀ (k : Nat) (v v' : Servo), s.servos[k]? = some v → servos[k]? = some v' →
      ∃ fs a0 a1 b lo hi, docLookup doc v.name = some fs ∧ docLookup fs "alpha0" = some a0 ∧
        docLookup fs "alpha1" = some a1 ∧ docLookup fs "beta" = some b ∧ docLookup fs "min_duty" = some lo ∧
        docLookup fs "max_duty" = some hi ∧
        v' = { v with alpha0 := some a0, alpha1 := some a1, beta := some b, minDuty := some lo, maxDuty := some hi }) →
    exec (.calload (.map doc)) s = .next
      { s with motors := motors, servos := servos, cmdidx := s.cmdidx + 1, resp := some (.ok .none) }

/-- R135, R138, R152, D25: `CALLOAD` of an absent or malformed document, or of one that lacks a unit or a required
field, raises `ConfigError` and changes no register; the first thing missing is reported, the Motor units before the
Servo units, each in index order, its fields in the order of R138. -/
def Obligations.FailedLoadChangesNothing : Prop :=
  ∀ s : State, s.latch = none →
    exec (.calload .absent) s = .next { s with latch := some (.error .docAbsent), resp := some (.error .docAbsent) } ∧
    exec (.calload .malformed) s = .next
      { s with latch := some (.error .docMalformed), resp := some (.error .docMalformed) } ∧
    ∀ (doc : DocMap) (good rest : List (String × List String)) (unit : String) (fields : List String),
      (s.motors.map fun m => (m.name, ["alpha", "beta"])) ++
        (s.servos.map fun v => (v.name, ["alpha0", "alpha1", "beta", "min_duty", "max_duty"])) =
          good ++ (unit, fields) :: rest →
      (∀ g ∈ good, ∃ fs, docLookup doc g.1 = some fs ∧ ∀ f ∈ g.2, docLookup fs f ≠ none) →
      (docLookup doc unit = none → exec (.calload (.map doc)) s = .next
        { s with latch := some (.error (.docMissingUnit unit)), resp := some (.error (.docMissingUnit unit)) }) ∧
      (∀ (fs : DocFields) (before after : List String) (field : String), docLookup doc unit = some fs →
        fields = before ++ field :: after → (∀ f ∈ before, docLookup fs f ≠ none) → docLookup fs field = none →
        exec (.calload (.map doc)) s = .next
          { s with latch := some (.error (.docMissingField unit field)),
                   resp := some (.error (.docMissingField unit field)) })

/-- R136: `CALSAVE` completes whenever every Servo coefficient is set; where the keys of the profile are distinct its
document holds exactly the units, each under its key with every required field and its register's value (that the
entries and fields stand in the order of R138 is the model's choice, log entry 15). R13: while a Servo coefficient is
unset it is refused, naming one that is unset (which of several is the model's choice, log entry 11). -/
def Obligations.CalsaveWritesTheFullDocument : Prop :=
  ∀ s : State, s.latch = none →
    ((∀ v ∈ s.servos, v.alpha0 ≠ none ∧ v.alpha1 ≠ none ∧ v.beta ≠ none ∧ v.minDuty ≠ none ∧ v.maxDuty ≠ none) →
      ∃ doc : DocMap,
        exec .calsave s = .next { s with cmdidx := s.cmdidx + 1, resp := some (.ok (.doc doc)) } ∧
        (((s.motors.map (·.name)) ++ (s.servos.map (·.name))).Nodup →
          (∀ m ∈ s.motors, docLookup doc m.name = some [("alpha", m.alpha), ("beta", m.beta)]) ∧
          (∀ v ∈ s.servos, ∃ a0 a1 b lo hi, v.alpha0 = some a0 ∧ v.alpha1 = some a1 ∧ v.beta = some b ∧
            v.minDuty = some lo ∧ v.maxDuty = some hi ∧
            docLookup doc v.name = some
              [("alpha0", a0), ("alpha1", a1), ("beta", b), ("min_duty", lo), ("max_duty", hi)]) ∧
          doc.map Prod.fst = (s.motors.map (·.name)) ++ (s.servos.map (·.name)))) ∧
    ((∃ v ∈ s.servos, v.alpha0 = none ∨ v.alpha1 = none ∨ v.beta = none ∨ v.minDuty = none ∨ v.maxDuty = none) →
      ∃ (k : Nat) (v : Servo) (f : ServoField), s.servos[k]? = some v ∧ v.get f = none ∧
        exec .calsave s = .next
          { s with latch := some (.refused (.unset (.servo k f))), resp := some (.refused (.unset (.servo k f))) })

/-- R137: loading what was just saved succeeds and leaves every coefficient register with its value. -/
def Obligations.SaveThenLoadKeepsCoefficients : Prop :=
  ∀ (s t : State) (doc : DocMap), s.latch = none →
    ((s.motors.map (·.name)) ++ (s.servos.map (·.name))).Nodup →
    exec .calsave s = .next t → t.resp = some (.ok (.doc doc)) →
    exec (.calload (.map doc)) t = .next { s with cmdidx := s.cmdidx + 2, resp := some (.ok .none) }

/-! ### Byte-format rows -/

/-- R54, R55, R56, R58: the encoder's rows answer the bytes of their word in the table and change nothing else (that a
row stands as an instruction of its own is the model's choice, log entry 7). -/
def Obligations.EncoderRowsAnswerTheirBytes : Prop :=
  ∀ s : State, s.latch = none →
    (∀ n : BitVec 12, n ≠ 0#12 → exec (.blkEncLinear n) s = .next
      { s with resp := some (.ok (.block ⟨0x00#8, 0x00#8, n.setWidth 8, (n >>> 8).setWidth 8⟩)) }) ∧
    exec .blkEncFullOn s = .next { s with resp := some (.ok (.block ⟨0x00#8, 0x00#8, 0xFF#8, 0x0F#8⟩)) } ∧
    exec .blkEncFullOffDoc s = .next { s with resp := some (.ok (.block ⟨0x00#8, 0x10#8, 0x00#8, 0x00#8⟩)) } ∧
    exec .blkEncFullOffNative s = .next { s with resp := some (.ok (.block ⟨0x00#8, 0x00#8, 0x00#8, 0x10#8⟩)) } ∧
    (∀ (i : Instr) (w : BitVec 32), wellFormed i = true → encode i = .encodeOut w →
      exec i s = .next { s with resp := some (.ok (.block (blockOfWord w))) })

/-- R57, R58: the decoder's rows answer what `DEC` answers on the block of their word, and change nothing else. -/
def Obligations.DecoderRowsAnswerAsDec : Prop :=
  ∀ (s : State) (i : Instr) (w : BitVec 32), s.latch = none → encode i = .decodeIn w →
    ∃ x : Rat, exec i s = .next { s with resp := some (.ok (.num x)) } ∧
      answeredNum (exec (.dec (blockOfWord w)) s) = some x

/-- R63: each byte row of `SETFREQ` is one one-byte write of its byte to its register, with `MODE1`'s other bits as
read, and completes when that write does. -/
def Obligations.SetfreqByteRowsWriteTheirByte : Prop :=
  ∀ s : State, s.latch = none → s.accepts 0 →
    (∀ r e a sl x y z c : Bool,
      exec (.setfreqW3 r e a sl x y z c) s = .next
        { s.wrote [(0x00, [mode1Byte r e a sl x y z c])] with resp := some (.ok .none) } ∧
      exec (.setfreqW1 e a x y z c) s = .next
        { s.wrote [(0x00, [(mode1Byte r e a sl x y z c &&& 0x7F#8) ||| 0x10#8])] with resp := some (.ok .none) } ∧
      exec (.setfreqW4 r e sl x y z c) s = .next
        { s.wrote [(0x00, [mode1Byte r e a sl x y z c ||| 0x20#8])] with resp := some (.ok .none) }) ∧
    (∀ p : Byte, exec (.setfreqW2 p) s = .next { s.wrote [(0xFE, [p])] with resp := some (.ok .none) }) ∧
    (∀ (i : Instr) (k : SetfreqWrite) (b : Byte), encode i = .setfreqByte k b →
      exec i s = .next
        { s.wrote [(match k with | .w2 => 0xFE | .w1 => 0x00 | .w3 => 0x00 | .w4 => 0x00, [b])] with
          resp := some (.ok .none) })
end

