-- ==== Sys2Proof/Laws/Memory.lean ====
section
/-! SUPPORT. The register file: what a read sees after a write, and that every operation keeps the canonical form. -/

namespace Sys2Proof.Machine.Memory

/-- Read after one write: the byte at its address, every other address as before (rule R45). -/
theorem read?_write (m : Memory) (x y : Nat) (v : Byte) :
    Memory.read? (Memory.write m x v) y = if y = x then some v else Memory.read? m y := by
  induction m with
  | nil => simp [Memory.write, Memory.read?]
  | cons c m ih =>
    obtain ⟨a, b⟩ := c
    by_cases hlt : x < a
    · simp [Memory.write, Memory.read?, hlt]
    · by_cases heq : x = a
      · subst heq
        by_cases hy : y = x <;> simp [Memory.write, Memory.read?, hy]
      · simp only [Memory.write, hlt, heq, if_false, Memory.read?, ih]
        by_cases hya : y = a
        · subst hya; simp [Ne.symm heq]
        · simp [hya]

theorem risingFrom_write (m : Memory) (x : Nat) (v : Byte) {k : Nat} (hk : k ≤ x)
    (h : Memory.risingFrom k m = true) : Memory.risingFrom k (Memory.write m x v) = true := by
  induction m generalizing k with
  | nil => simp [Memory.write, Memory.risingFrom, hk]
  | cons c m ih =>
    obtain ⟨a, b⟩ := c
    simp only [Memory.risingFrom, Bool.and_eq_true, decide_eq_true_eq] at h
    by_cases hlt : x < a
    · simp only [Memory.write, hlt, if_true, Memory.risingFrom, Bool.and_eq_true, decide_eq_true_eq]
      exact ⟨hk, by omega, h.2⟩
    · by_cases heq : x = a
      · subst heq
        simp only [Memory.write, Nat.lt_irrefl, if_false, if_true, Memory.risingFrom, Bool.and_eq_true,
          decide_eq_true_eq]
        exact h
      · simp only [Memory.write, hlt, heq, if_false, Memory.risingFrom, Bool.and_eq_true, decide_eq_true_eq]
        exact ⟨h.1, ih (by omega) h.2⟩

theorem mem_write {m : Memory} {x : Nat} {v : Byte} {c : Host.Cell} (h : c ∈ Memory.write m x v) :
    c = (x, v) ∨ c ∈ m := by
  induction m with
  | nil => simpa [Memory.write] using h
  | cons d m ih =>
    obtain ⟨a, b⟩ := d
    by_cases hlt : x < a
    · simpa [Memory.write, hlt] using h
    · by_cases heq : x = a
      · subst heq
        simp only [Memory.write, Nat.lt_irrefl, if_false, if_true, List.mem_cons] at h
        rcases h with h | h
        · exact .inl h
        · exact .inr (List.mem_cons_of_mem _ h)
      · simp only [Memory.write, hlt, heq, if_false, List.mem_cons] at h
        rcases h with h | h
        · exact .inr (by simp [h])
        · rcases ih h with h | h
          · exact .inl h
          · exact .inr (List.mem_cons_of_mem _ h)

theorem wf_iff {m : Memory} :
    Memory.wf m = true ↔ Memory.risingFrom 0 m = true ∧ ∀ c ∈ m, c.1 < 256 := by
  simp [Memory.wf]

theorem wf_nil : Memory.wf [] = true := rfl

/-- A write inside the register space keeps the canonical form. -/
theorem wf_write {m : Memory} (x : Nat) (v : Byte) (hx : x < 256) (h : Memory.wf m = true) :
    Memory.wf (Memory.write m x v) = true := by
  rw [wf_iff] at h ⊢
  refine ⟨risingFrom_write m x v (Nat.zero_le _) h.1, fun c hc => ?_⟩
  rcases mem_write hc with rfl | hc
  · exact hx
  · exact h.2 c hc

theorem wf_writeBytes {m : Memory} (reg : Nat) (bs : List Byte) (hreg : reg + bs.length ≤ 256)
    (h : Memory.wf m = true) : Memory.wf (Memory.writeBytes m reg bs) = true := by
  induction bs generalizing m reg with
  | nil => exact h
  | cons b bs ih =>
    simp only [List.length_cons] at hreg
    exact ih (reg + 1) (by omega) (wf_write reg b (by omega) h)

theorem wf_writeSome {m : Memory} (k reg i : Nat) (bs : List Byte) (hreg : reg + bs.length ≤ 256)
    (h : Memory.wf m = true) : Memory.wf (Memory.writeSome k m reg i bs) = true := by
  induction bs generalizing m reg i with
  | nil => exact h
  | cons b bs ih =>
    simp only [List.length_cons] at hreg
    refine ih (reg + 1) (i + 1) (by omega) ?_
    split
    · exact wf_write reg b (by omega) h
    · exact h

/-- What a burst write stores: byte `i` at `reg + i`, every other address as before (rules R30, R45). -/
theorem read?_writeBytes (m : Memory) (reg : Nat) (bs : List Byte) (a : Nat) :
    Memory.read? (Memory.writeBytes m reg bs) a =
      if reg ≤ a ∧ a < reg + bs.length then bs[a - reg]? else Memory.read? m a := by
  induction bs generalizing m reg with
  | nil =>
    rw [Memory.writeBytes, if_neg (by simp)]
  | cons b bs ih =>
    rw [Memory.writeBytes, ih, read?_write]
    by_cases h1 : reg + 1 ≤ a ∧ a < reg + 1 + bs.length
    · have h2 : reg ≤ a ∧ a < reg + (bs.length + 1) := by omega
      have h3 : a - reg = (a - (reg + 1)) + 1 := by omega
      rw [List.length_cons, if_pos h1, if_pos h2, h3, List.getElem?_cons_succ]
    · rw [if_neg h1]
      by_cases h2 : a = reg
      · subst h2
        simp
      · have h3 : ¬ (reg ≤ a ∧ a < reg + (bs.length + 1)) := by omega
        rw [List.length_cons, if_neg h3, if_neg h2]

/-- A failed write leaves every address outside its own as before (rule R33). -/
theorem read?_writeSome_outside (m : Memory) (k reg i : Nat) (bs : List Byte) (a : Nat)
    (ha : ¬ (reg ≤ a ∧ a < reg + bs.length)) :
    Memory.read? (Memory.writeSome k m reg i bs) a = Memory.read? m a := by
  induction bs generalizing m reg i with
  | nil => rfl
  | cons b bs ih =>
    simp only [List.length_cons] at ha
    have hne : a ≠ reg := by omega
    rw [Memory.writeSome, ih _ _ _ (by omega)]
    split
    · rw [read?_write, if_neg hne]
    · rfl

/-- A read returns as many bytes as asked. -/
theorem readBytes_length {m : Memory} {reg n : Nat} {bs : List Byte}
    (h : Memory.readBytes m reg n = .ok bs) : bs.length = n := by
  induction n generalizing reg bs with
  | zero => simp [Memory.readBytes] at h; simp [← h]
  | succ n ih =>
    simp only [Memory.readBytes] at h
    split at h
    · cases h
    · split at h
      · cases h
      · rename_i hb
        cases h
        simp [ih hb]

end Sys2Proof.Machine.Memory
end

