-- ==== Sys2Proof/Laws/State.lean ====
section
/-! SUPPORT. What each named update of the state does to each field: one lemma per field per update, all by `rfl`. -/

namespace Sys2Proof.Machine.State

variable (s : State)

/-! ### afterXact -/

@[simp] theorem afterXact_cfg (x : Xact) : (s.afterXact x).cfg = s.cfg := rfl
@[simp] theorem afterXact_freq (x : Xact) : (s.afterXact x).freq = s.freq := rfl
@[simp] theorem afterXact_latch (x : Xact) : (s.afterXact x).latch = s.latch := rfl
@[simp] theorem afterXact_motors (x : Xact) : (s.afterXact x).motors = s.motors := rfl
@[simp] theorem afterXact_servos (x : Xact) : (s.afterXact x).servos = s.servos := rfl
@[simp] theorem afterXact_chip (x : Xact) : (s.afterXact x).chip = s.chip := rfl
@[simp] theorem afterXact_trace (x : Xact) : (s.afterXact x).trace = s.trace ++ [x] := rfl
@[simp] theorem afterXact_cmdidx (x : Xact) : (s.afterXact x).cmdidx = s.cmdidx := rfl
@[simp] theorem afterXact_resp (x : Xact) : (s.afterXact x).resp = s.resp := rfl
@[simp] theorem afterXact_host (x : Xact) : (s.afterXact x).host = s.host := rfl
@[simp] theorem afterXact_busMode (x : Xact) : (s.afterXact x).busMode = s.busMode := rfl
@[simp] theorem afterXact_turns (x : Xact) : (s.afterXact x).turns = s.turns.tail := rfl
@[simp] theorem afterXact_busCount (x : Xact) : (s.afterXact x).busCount = s.busCount + 1 := rfl

/-! ### afterWrite -/

@[simp] theorem afterWrite_cfg (reg : Nat) (bs : List Byte) : (s.afterWrite reg bs).cfg = s.cfg := rfl
@[simp] theorem afterWrite_freq (reg : Nat) (bs : List Byte) : (s.afterWrite reg bs).freq = s.freq := rfl
@[simp] theorem afterWrite_latch (reg : Nat) (bs : List Byte) : (s.afterWrite reg bs).latch = s.latch := rfl
@[simp] theorem afterWrite_motors (reg : Nat) (bs : List Byte) : (s.afterWrite reg bs).motors = s.motors := rfl
@[simp] theorem afterWrite_servos (reg : Nat) (bs : List Byte) : (s.afterWrite reg bs).servos = s.servos := rfl
@[simp] theorem afterWrite_chip (reg : Nat) (bs : List Byte) :
    (s.afterWrite reg bs).chip = Memory.writeBytes s.chip reg bs := rfl
@[simp] theorem afterWrite_trace (reg : Nat) (bs : List Byte) :
    (s.afterWrite reg bs).trace = s.trace ++ [.write s.cfg.deviceAddr reg bs] := rfl
@[simp] theorem afterWrite_cmdidx (reg : Nat) (bs : List Byte) : (s.afterWrite reg bs).cmdidx = s.cmdidx := rfl
@[simp] theorem afterWrite_resp (reg : Nat) (bs : List Byte) : (s.afterWrite reg bs).resp = s.resp := rfl
@[simp] theorem afterWrite_host (reg : Nat) (bs : List Byte) : (s.afterWrite reg bs).host = s.host := rfl
@[simp] theorem afterWrite_busMode (reg : Nat) (bs : List Byte) : (s.afterWrite reg bs).busMode = s.busMode := rfl
@[simp] theorem afterWrite_turns (reg : Nat) (bs : List Byte) : (s.afterWrite reg bs).turns = s.turns.tail := rfl
@[simp] theorem afterWrite_busCount (reg : Nat) (bs : List Byte) :
    (s.afterWrite reg bs).busCount = s.busCount + 1 := rfl

/-! ### afterFailedWrite -/

@[simp] theorem afterFailedWrite_cfg (reg : Nat) (bs : List Byte) : (s.afterFailedWrite reg bs).cfg = s.cfg := rfl
@[simp] theorem afterFailedWrite_freq (reg : Nat) (bs : List Byte) : (s.afterFailedWrite reg bs).freq = s.freq := rfl
@[simp] theorem afterFailedWrite_latch (reg : Nat) (bs : List Byte) :
    (s.afterFailedWrite reg bs).latch = s.latch := rfl
@[simp] theorem afterFailedWrite_motors (reg : Nat) (bs : List Byte) :
    (s.afterFailedWrite reg bs).motors = s.motors := rfl
@[simp] theorem afterFailedWrite_servos (reg : Nat) (bs : List Byte) :
    (s.afterFailedWrite reg bs).servos = s.servos := rfl
@[simp] theorem afterFailedWrite_chip (reg : Nat) (bs : List Byte) :
    (s.afterFailedWrite reg bs).chip = Memory.writeSome s.busCount s.chip reg 0 bs := rfl
@[simp] theorem afterFailedWrite_trace (reg : Nat) (bs : List Byte) :
    (s.afterFailedWrite reg bs).trace = s.trace ++ [.writeFailed s.cfg.deviceAddr reg bs] := rfl
@[simp] theorem afterFailedWrite_cmdidx (reg : Nat) (bs : List Byte) :
    (s.afterFailedWrite reg bs).cmdidx = s.cmdidx := rfl
@[simp] theorem afterFailedWrite_resp (reg : Nat) (bs : List Byte) : (s.afterFailedWrite reg bs).resp = s.resp := rfl
@[simp] theorem afterFailedWrite_host (reg : Nat) (bs : List Byte) : (s.afterFailedWrite reg bs).host = s.host := rfl
@[simp] theorem afterFailedWrite_busMode (reg : Nat) (bs : List Byte) :
    (s.afterFailedWrite reg bs).busMode = s.busMode := rfl
@[simp] theorem afterFailedWrite_turns (reg : Nat) (bs : List Byte) :
    (s.afterFailedWrite reg bs).turns = s.turns.tail := rfl
@[simp] theorem afterFailedWrite_busCount (reg : Nat) (bs : List Byte) :
    (s.afterFailedWrite reg bs).busCount = s.busCount + 1 := rfl

/-! ### afterRead -/

@[simp] theorem afterRead_cfg (reg n : Nat) (bs : List Byte) : (s.afterRead reg n bs).cfg = s.cfg := rfl
@[simp] theorem afterRead_freq (reg n : Nat) (bs : List Byte) : (s.afterRead reg n bs).freq = s.freq := rfl
@[simp] theorem afterRead_latch (reg n : Nat) (bs : List Byte) : (s.afterRead reg n bs).latch = s.latch := rfl
@[simp] theorem afterRead_motors (reg n : Nat) (bs : List Byte) : (s.afterRead reg n bs).motors = s.motors := rfl
@[simp] theorem afterRead_servos (reg n : Nat) (bs : List Byte) : (s.afterRead reg n bs).servos = s.servos := rfl
@[simp] theorem afterRead_chip (reg n : Nat) (bs : List Byte) : (s.afterRead reg n bs).chip = s.chip := rfl
@[simp] theorem afterRead_trace (reg n : Nat) (bs : List Byte) :
    (s.afterRead reg n bs).trace = s.trace ++ [.read s.cfg.deviceAddr reg n bs] := rfl
@[simp] theorem afterRead_cmdidx (reg n : Nat) (bs : List Byte) : (s.afterRead reg n bs).cmdidx = s.cmdidx := rfl
@[simp] theorem afterRead_resp (reg n : Nat) (bs : List Byte) : (s.afterRead reg n bs).resp = s.resp := rfl
@[simp] theorem afterRead_host (reg n : Nat) (bs : List Byte) : (s.afterRead reg n bs).host = s.host := rfl
@[simp] theorem afterRead_busMode (reg n : Nat) (bs : List Byte) : (s.afterRead reg n bs).busMode = s.busMode := rfl
@[simp] theorem afterRead_turns (reg n : Nat) (bs : List Byte) : (s.afterRead reg n bs).turns = s.turns.tail := rfl
@[simp] theorem afterRead_busCount (reg n : Nat) (bs : List Byte) :
    (s.afterRead reg n bs).busCount = s.busCount + 1 := rfl

/-! ### afterFailedRead -/

@[simp] theorem afterFailedRead_cfg (reg n : Nat) : (s.afterFailedRead reg n).cfg = s.cfg := rfl
@[simp] theorem afterFailedRead_freq (reg n : Nat) : (s.afterFailedRead reg n).freq = s.freq := rfl
@[simp] theorem afterFailedRead_latch (reg n : Nat) : (s.afterFailedRead reg n).latch = s.latch := rfl
@[simp] theorem afterFailedRead_motors (reg n : Nat) : (s.afterFailedRead reg n).motors = s.motors := rfl
@[simp] theorem afterFailedRead_servos (reg n : Nat) : (s.afterFailedRead reg n).servos = s.servos := rfl
@[simp] theorem afterFailedRead_chip (reg n : Nat) : (s.afterFailedRead reg n).chip = s.chip := rfl
@[simp] theorem afterFailedRead_trace (reg n : Nat) :
    (s.afterFailedRead reg n).trace = s.trace ++ [.readFailed s.cfg.deviceAddr reg n] := rfl
@[simp] theorem afterFailedRead_cmdidx (reg n : Nat) : (s.afterFailedRead reg n).cmdidx = s.cmdidx := rfl
@[simp] theorem afterFailedRead_resp (reg n : Nat) : (s.afterFailedRead reg n).resp = s.resp := rfl
@[simp] theorem afterFailedRead_host (reg n : Nat) : (s.afterFailedRead reg n).host = s.host := rfl
@[simp] theorem afterFailedRead_busMode (reg n : Nat) : (s.afterFailedRead reg n).busMode = s.busMode := rfl
@[simp] theorem afterFailedRead_turns (reg n : Nat) : (s.afterFailedRead reg n).turns = s.turns.tail := rfl
@[simp] theorem afterFailedRead_busCount (reg n : Nat) : (s.afterFailedRead reg n).busCount = s.busCount + 1 := rfl

/-! ### setMotor -/

@[simp] theorem setMotor_cfg (u : Int) (m : Motor) : (s.setMotor u m).cfg = s.cfg := rfl
@[simp] theorem setMotor_freq (u : Int) (m : Motor) : (s.setMotor u m).freq = s.freq := rfl
@[simp] theorem setMotor_latch (u : Int) (m : Motor) : (s.setMotor u m).latch = s.latch := rfl
@[simp] theorem setMotor_motors (u : Int) (m : Motor) : (s.setMotor u m).motors = s.motors.set u.toNat m := rfl
@[simp] theorem setMotor_servos (u : Int) (m : Motor) : (s.setMotor u m).servos = s.servos := rfl
@[simp] theorem setMotor_chip (u : Int) (m : Motor) : (s.setMotor u m).chip = s.chip := rfl
@[simp] theorem setMotor_trace (u : Int) (m : Motor) : (s.setMotor u m).trace = s.trace := rfl
@[simp] theorem setMotor_cmdidx (u : Int) (m : Motor) : (s.setMotor u m).cmdidx = s.cmdidx := rfl
@[simp] theorem setMotor_resp (u : Int) (m : Motor) : (s.setMotor u m).resp = s.resp := rfl
@[simp] theorem setMotor_host (u : Int) (m : Motor) : (s.setMotor u m).host = s.host := rfl
@[simp] theorem setMotor_busMode (u : Int) (m : Motor) : (s.setMotor u m).busMode = s.busMode := rfl
@[simp] theorem setMotor_turns (u : Int) (m : Motor) : (s.setMotor u m).turns = s.turns := rfl
@[simp] theorem setMotor_busCount (u : Int) (m : Motor) : (s.setMotor u m).busCount = s.busCount := rfl

/-! ### setServo -/

@[simp] theorem setServo_cfg (u : Int) (v : Servo) : (s.setServo u v).cfg = s.cfg := rfl
@[simp] theorem setServo_freq (u : Int) (v : Servo) : (s.setServo u v).freq = s.freq := rfl
@[simp] theorem setServo_latch (u : Int) (v : Servo) : (s.setServo u v).latch = s.latch := rfl
@[simp] theorem setServo_motors (u : Int) (v : Servo) : (s.setServo u v).motors = s.motors := rfl
@[simp] theorem setServo_servos (u : Int) (v : Servo) : (s.setServo u v).servos = s.servos.set u.toNat v := rfl
@[simp] theorem setServo_chip (u : Int) (v : Servo) : (s.setServo u v).chip = s.chip := rfl
@[simp] theorem setServo_trace (u : Int) (v : Servo) : (s.setServo u v).trace = s.trace := rfl
@[simp] theorem setServo_cmdidx (u : Int) (v : Servo) : (s.setServo u v).cmdidx = s.cmdidx := rfl
@[simp] theorem setServo_resp (u : Int) (v : Servo) : (s.setServo u v).resp = s.resp := rfl
@[simp] theorem setServo_host (u : Int) (v : Servo) : (s.setServo u v).host = s.host := rfl
@[simp] theorem setServo_busMode (u : Int) (v : Servo) : (s.setServo u v).busMode = s.busMode := rfl
@[simp] theorem setServo_turns (u : Int) (v : Servo) : (s.setServo u v).turns = s.turns := rfl
@[simp] theorem setServo_busCount (u : Int) (v : Servo) : (s.setServo u v).busCount = s.busCount := rfl

/-! ### takeError -/

@[simp] theorem takeError_cfg (e : ErrorInfo) : (s.takeError e).cfg = s.cfg := rfl
@[simp] theorem takeError_freq (e : ErrorInfo) : (s.takeError e).freq = s.freq := rfl
@[simp] theorem takeError_latch (e : ErrorInfo) : (s.takeError e).latch = some (.error e) := rfl
@[simp] theorem takeError_motors (e : ErrorInfo) : (s.takeError e).motors = s.motors := rfl
@[simp] theorem takeError_servos (e : ErrorInfo) : (s.takeError e).servos = s.servos := rfl
@[simp] theorem takeError_chip (e : ErrorInfo) : (s.takeError e).chip = s.chip := rfl
@[simp] theorem takeError_trace (e : ErrorInfo) : (s.takeError e).trace = s.trace := rfl
@[simp] theorem takeError_cmdidx (e : ErrorInfo) : (s.takeError e).cmdidx = s.cmdidx := rfl
@[simp] theorem takeError_resp (e : ErrorInfo) : (s.takeError e).resp = some (.error e) := rfl
@[simp] theorem takeError_host (e : ErrorInfo) : (s.takeError e).host = s.host := rfl
@[simp] theorem takeError_busMode (e : ErrorInfo) : (s.takeError e).busMode = s.busMode := rfl
@[simp] theorem takeError_turns (e : ErrorInfo) : (s.takeError e).turns = s.turns := rfl
@[simp] theorem takeError_busCount (e : ErrorInfo) : (s.takeError e).busCount = s.busCount := rfl

/-! ### takeRefusal -/

@[simp] theorem takeRefusal_cfg (r : Reason) : (s.takeRefusal r).cfg = s.cfg := rfl
@[simp] theorem takeRefusal_freq (r : Reason) : (s.takeRefusal r).freq = s.freq := rfl
@[simp] theorem takeRefusal_latch (r : Reason) : (s.takeRefusal r).latch = some (.refused r) := rfl
@[simp] theorem takeRefusal_motors (r : Reason) : (s.takeRefusal r).motors = s.motors := rfl
@[simp] theorem takeRefusal_servos (r : Reason) : (s.takeRefusal r).servos = s.servos := rfl
@[simp] theorem takeRefusal_chip (r : Reason) : (s.takeRefusal r).chip = s.chip := rfl
@[simp] theorem takeRefusal_trace (r : Reason) : (s.takeRefusal r).trace = s.trace := rfl
@[simp] theorem takeRefusal_cmdidx (r : Reason) : (s.takeRefusal r).cmdidx = s.cmdidx := rfl
@[simp] theorem takeRefusal_resp (r : Reason) : (s.takeRefusal r).resp = some (.refused r) := rfl
@[simp] theorem takeRefusal_host (r : Reason) : (s.takeRefusal r).host = s.host := rfl
@[simp] theorem takeRefusal_busMode (r : Reason) : (s.takeRefusal r).busMode = s.busMode := rfl
@[simp] theorem takeRefusal_turns (r : Reason) : (s.takeRefusal r).turns = s.turns := rfl
@[simp] theorem takeRefusal_busCount (r : Reason) : (s.takeRefusal r).busCount = s.busCount := rfl

/-! ### refuseFaulted -/

@[simp] theorem refuseFaulted_cfg : (s.refuseFaulted).cfg = s.cfg := rfl
@[simp] theorem refuseFaulted_freq : (s.refuseFaulted).freq = s.freq := rfl
@[simp] theorem refuseFaulted_latch : (s.refuseFaulted).latch = s.latch := rfl
@[simp] theorem refuseFaulted_motors : (s.refuseFaulted).motors = s.motors := rfl
@[simp] theorem refuseFaulted_servos : (s.refuseFaulted).servos = s.servos := rfl
@[simp] theorem refuseFaulted_chip : (s.refuseFaulted).chip = s.chip := rfl
@[simp] theorem refuseFaulted_trace : (s.refuseFaulted).trace = s.trace := rfl
@[simp] theorem refuseFaulted_cmdidx : (s.refuseFaulted).cmdidx = s.cmdidx := rfl
@[simp] theorem refuseFaulted_resp : (s.refuseFaulted).resp = some (.refused .faulted) := rfl
@[simp] theorem refuseFaulted_host : (s.refuseFaulted).host = s.host := rfl
@[simp] theorem refuseFaulted_busMode : (s.refuseFaulted).busMode = s.busMode := rfl
@[simp] theorem refuseFaulted_turns : (s.refuseFaulted).turns = s.turns := rfl
@[simp] theorem refuseFaulted_busCount : (s.refuseFaulted).busCount = s.busCount := rfl

/-! ### complete -/

@[simp] theorem complete_cfg (r : Result) : (s.complete r).cfg = s.cfg := rfl
@[simp] theorem complete_freq (r : Result) : (s.complete r).freq = s.freq := rfl
@[simp] theorem complete_latch (r : Result) : (s.complete r).latch = s.latch := rfl
@[simp] theorem complete_motors (r : Result) : (s.complete r).motors = s.motors := rfl
@[simp] theorem complete_servos (r : Result) : (s.complete r).servos = s.servos := rfl
@[simp] theorem complete_chip (r : Result) : (s.complete r).chip = s.chip := rfl
@[simp] theorem complete_trace (r : Result) : (s.complete r).trace = s.trace := rfl
@[simp] theorem complete_cmdidx (r : Result) : (s.complete r).cmdidx = s.cmdidx + 1 := rfl
@[simp] theorem complete_resp (r : Result) : (s.complete r).resp = some (.ok r) := rfl
@[simp] theorem complete_host (r : Result) : (s.complete r).host = s.host := rfl
@[simp] theorem complete_busMode (r : Result) : (s.complete r).busMode = s.busMode := rfl
@[simp] theorem complete_turns (r : Result) : (s.complete r).turns = s.turns := rfl
@[simp] theorem complete_busCount (r : Result) : (s.complete r).busCount = s.busCount := rfl

/-! ### answer -/

@[simp] theorem answer_cfg (r : Result) : (s.answer r).cfg = s.cfg := rfl
@[simp] theorem answer_freq (r : Result) : (s.answer r).freq = s.freq := rfl
@[simp] theorem answer_latch (r : Result) : (s.answer r).latch = s.latch := rfl
@[simp] theorem answer_motors (r : Result) : (s.answer r).motors = s.motors := rfl
@[simp] theorem answer_servos (r : Result) : (s.answer r).servos = s.servos := rfl
@[simp] theorem answer_chip (r : Result) : (s.answer r).chip = s.chip := rfl
@[simp] theorem answer_trace (r : Result) : (s.answer r).trace = s.trace := rfl
@[simp] theorem answer_cmdidx (r : Result) : (s.answer r).cmdidx = s.cmdidx := rfl
@[simp] theorem answer_resp (r : Result) : (s.answer r).resp = some (.ok r) := rfl
@[simp] theorem answer_host (r : Result) : (s.answer r).host = s.host := rfl
@[simp] theorem answer_busMode (r : Result) : (s.answer r).busMode = s.busMode := rfl
@[simp] theorem answer_turns (r : Result) : (s.answer r).turns = s.turns := rfl
@[simp] theorem answer_busCount (r : Result) : (s.answer r).busCount = s.busCount := rfl

/-! ### popHost -/

@[simp] theorem popHost_cfg : (s.popHost).cfg = s.cfg := rfl
@[simp] theorem popHost_freq : (s.popHost).freq = s.freq := rfl
@[simp] theorem popHost_latch : (s.popHost).latch = s.latch := rfl
@[simp] theorem popHost_motors : (s.popHost).motors = s.motors := rfl
@[simp] theorem popHost_servos : (s.popHost).servos = s.servos := rfl
@[simp] theorem popHost_chip : (s.popHost).chip = s.chip := rfl
@[simp] theorem popHost_trace : (s.popHost).trace = s.trace := rfl
@[simp] theorem popHost_cmdidx : (s.popHost).cmdidx = s.cmdidx := rfl
@[simp] theorem popHost_resp : (s.popHost).resp = s.resp := rfl
@[simp] theorem popHost_host : (s.popHost).host = s.host.tail := rfl
@[simp] theorem popHost_busMode : (s.popHost).busMode = s.busMode := rfl
@[simp] theorem popHost_turns : (s.popHost).turns = s.turns := rfl
@[simp] theorem popHost_busCount : (s.popHost).busCount = s.busCount := rfl

/-! ### resetBlock -/

@[simp] theorem resetBlock_cfg (cfg : Config) : (s.resetBlock cfg).cfg = cfg := rfl
@[simp] theorem resetBlock_freq (cfg : Config) : (s.resetBlock cfg).freq = none := rfl
@[simp] theorem resetBlock_latch (cfg : Config) : (s.resetBlock cfg).latch = none := rfl
@[simp] theorem resetBlock_motors (cfg : Config) : (s.resetBlock cfg).motors = cfg.motors.map Motor.atReset := rfl
@[simp] theorem resetBlock_servos (cfg : Config) : (s.resetBlock cfg).servos = cfg.servos.map Servo.atReset := rfl
@[simp] theorem resetBlock_chip (cfg : Config) : (s.resetBlock cfg).chip = s.chip := rfl
@[simp] theorem resetBlock_trace (cfg : Config) : (s.resetBlock cfg).trace = [] := rfl
@[simp] theorem resetBlock_cmdidx (cfg : Config) : (s.resetBlock cfg).cmdidx = 0 := rfl
@[simp] theorem resetBlock_resp (cfg : Config) : (s.resetBlock cfg).resp = none := rfl
@[simp] theorem resetBlock_host (cfg : Config) : (s.resetBlock cfg).host = s.host := rfl
@[simp] theorem resetBlock_busMode (cfg : Config) : (s.resetBlock cfg).busMode = s.busMode := rfl
@[simp] theorem resetBlock_turns (cfg : Config) : (s.resetBlock cfg).turns = s.turns := rfl
@[simp] theorem resetBlock_busCount (cfg : Config) : (s.resetBlock cfg).busCount = s.busCount := rfl

end Sys2Proof.Machine.State
end

