-- ==== Sys2Proof/Laws/Run.lean ====
section
/-! SUPPORT. How a command's pseudocode is put together and ended, and one lemma per bus primitive and unit check that
says what it answers. -/

namespace Sys2Proof.Machine

/-! ### Sequencing -/

@[simp] theorem Run.andThen_done {α β : Type} (a : α) (s : State) (f : α → State → Run β) :
    (Run.done a s).andThen f = f a s := rfl

@[simp] theorem Run.andThen_raised {α β : Type} (e : ErrorInfo) (s : State) (f : α → State → Run β) :
    (Run.raised e s).andThen f = .raised e s := rfl

@[simp] theorem Run.andThen_refused {α β : Type} (r : Reason) (s : State) (f : α → State → Run β) :
    (Run.refused r s).andThen f = .refused r s := rfl

@[simp] theorem Run.ofExcept_ok {α : Type} (a : α) (s : State) : Run.ofExcept (.ok a) s = .done a s := rfl

@[simp] theorem Run.ofExcept_error {α : Type} (e : ErrorInfo) (s : State) :
    Run.ofExcept (.error e : Except ErrorInfo α) s = .raised e s := rfl

@[simp] theorem endCommand_done (r : Result) (s : State) : endCommand (.done r s) = s.complete r := rfl

@[simp] theorem endCommand_raised (e : ErrorInfo) (s : State) : endCommand (.raised e s) = s.takeError e := rfl

@[simp] theorem endCommand_refused (r : Reason) (s : State) : endCommand (.refused r s) = s.takeRefusal r := rfl

@[simp] theorem endFormat_done (r : Result) (s : State) : endFormat (.done r s) = s.answer r := rfl

@[simp] theorem endFormat_raised (e : ErrorInfo) (s : State) : endFormat (.raised e s) = s.takeError e := rfl

@[simp] theorem endFormat_refused (r : Reason) (s : State) : endFormat (.refused r s) = s.takeRefusal r := rfl

theorem runCommand_ready {body : State → Run Result} {s : State} (h : s.latch = none) :
    runCommand body s = endCommand (body s) := by
  simp [runCommand, h]

theorem runCommand_latched {body : State → Run Result} {s : State} (h : s.latch ≠ none) :
    runCommand body s = s.refuseFaulted := by
  unfold runCommand
  split
  · rfl
  · exact absurd ‹_› h

theorem runFormat_ready {body : State → Run Result} {s : State} (h : s.latch = none) :
    runFormat body s = endFormat (body s) := by
  simp [runFormat, h]

theorem runFormat_latched {body : State → Run Result} {s : State} (h : s.latch ≠ none) :
    runFormat body s = s.refuseFaulted := by
  unfold runFormat
  split
  · rfl
  · exact absurd ‹_› h

/-! ### Answers of the bus -/

theorem State.turnAt_congr {s t : State} (h1 : t.turns = s.turns) (h2 : t.busMode = s.busMode)
    (h3 : t.busCount = s.busCount) (k : Nat) : t.turnAt k = s.turnAt k := by
  simp [State.turnAt, h1, h2, h3]

/-- After `n` transactions the k-th answer from then is the (n + k)-th from now. -/
theorem State.turnAt_later {s t : State} {n : Nat} (h1 : t.turns = s.turns.drop n) (h2 : t.busMode = s.busMode)
    (h3 : t.busCount = s.busCount + n) (k : Nat) : t.turnAt k = s.turnAt (n + k) := by
  simp [State.turnAt, h1, h2, h3, Nat.add_assoc]

theorem busWrite_accepted {s : State} (h : s.accepts 0) (reg : Nat) (bs : List Byte) :
    busWrite reg bs s = .done () (s.afterWrite reg bs) := by
  unfold busWrite
  split
  · exact absurd ‹_› h
  · rfl
  · rfl

theorem busWrite_failed {s : State} (h : ¬ s.accepts 0) (reg : Nat) (bs : List Byte) :
    busWrite reg bs s = .raised (.transport .opaque s.trace.length) (s.afterFailedWrite reg bs) := by
  have h' : s.turnAt 0 = .answer .fail := Decidable.byContradiction h
  simp [busWrite, h']

/-- All a bus write can do. -/
theorem busWrite_cases (reg : Nat) (bs : List Byte) (s : State) :
    busWrite reg bs s = .done () (s.afterWrite reg bs) ∨
    busWrite reg bs s = .raised (.transport .opaque s.trace.length) (s.afterFailedWrite reg bs) := by
  by_cases h : s.accepts 0
  · exact .inl (busWrite_accepted h reg bs)
  · exact .inr (busWrite_failed h reg bs)

theorem busRead_answered {s : State} {reg n : Nat} {bs : List Byte} (h : s.readsAs 0 reg n bs) :
    busRead reg n s = .done bs (s.afterRead reg n bs) := by
  obtain ⟨hl, h | ⟨h, hf⟩⟩ := h
  · simp [busRead, h, hl]
  · simp [busRead, h, hf]

/-- All a bus read can do. -/
theorem busRead_cases (reg n : Nat) (s : State) :
    (∃ bs, s.readsAs 0 reg n bs ∧ busRead reg n s = .done bs (s.afterRead reg n bs)) ∨
    (∃ why, busRead reg n s = .raised (.transport why s.trace.length) (s.afterFailedRead reg n)) ∨
    (∃ a, busRead reg n s = .refused (.unset (.chip a)) s) := by
  rcases h : s.turnAt 0 with (_ | bs) | _
  · exact .inr (.inl ⟨.opaque, by simp [busRead, h]⟩)
  · by_cases hl : bs.length = n
    · exact .inl ⟨bs, ⟨hl, .inl h⟩, by simp [busRead, h, hl]⟩
    · exact .inr (.inl ⟨.shortRead, by simp [busRead, h, hl]⟩)
  · rcases hf : Memory.readBytes s.chip reg n with a | bs
    · exact .inr (.inr ⟨a, by simp [busRead, h, hf]⟩)
    · exact .inl ⟨bs, ⟨Memory.readBytes_length hf, .inr ⟨h, hf⟩⟩, by simp [busRead, h, hf]⟩

/-! ### Whole transactions in a row -/

theorem State.wrote_nil (s : State) : s.wrote [] = s := by simp [State.wrote]

theorem State.didRead_nil (s : State) : s.didRead [] = s := by simp [State.didRead]

theorem State.afterWrite_eq_wrote (s : State) (reg : Nat) (bs : List Byte) :
    s.afterWrite reg bs = s.wrote [(reg, bs)] := by
  simp [State.afterWrite, State.afterXact, State.wrote]

theorem State.wrote_wrote (s : State) (ws vs : List (Nat × List Byte)) :
    (s.wrote ws).wrote vs = s.wrote (ws ++ vs) := by
  simp [State.wrote, Nat.add_assoc]

theorem State.wrote_cons (s : State) (w : Nat × List Byte) (ws : List (Nat × List Byte)) :
    s.wrote (w :: ws) = (s.afterWrite w.1 w.2).wrote ws := by
  rw [afterWrite_eq_wrote, wrote_wrote]; rfl

theorem State.afterRead_eq_didRead {s : State} {reg n : Nat} {bs : List Byte} (h : bs.length = n) :
    s.afterRead reg n bs = s.didRead [(reg, bs)] := by
  simp [State.afterRead, State.afterXact, State.didRead, h]

theorem State.didRead_didRead (s : State) (rs qs : List (Nat × List Byte)) :
    (s.didRead rs).didRead qs = s.didRead (rs ++ qs) := by
  simp [State.didRead, Nat.add_assoc]

@[simp] theorem State.wrote_turnAt (s : State) (ws : List (Nat × List Byte)) (k : Nat) :
    (s.wrote ws).turnAt k = s.turnAt (ws.length + k) :=
  State.turnAt_later (s := s) (t := s.wrote ws) (n := ws.length) rfl rfl rfl k

@[simp] theorem State.didRead_turnAt (s : State) (rs : List (Nat × List Byte)) (k : Nat) :
    (s.didRead rs).turnAt k = s.turnAt (rs.length + k) :=
  State.turnAt_later (s := s) (t := s.didRead rs) (n := rs.length) rfl rfl rfl k

@[simp] theorem State.afterWrite_turnAt (s : State) (reg : Nat) (bs : List Byte) (k : Nat) :
    (s.afterWrite reg bs).turnAt k = s.turnAt (k + 1) := by
  rw [afterWrite_eq_wrote, wrote_turnAt, Nat.add_comm]; rfl

@[simp] theorem State.afterRead_turnAt (s : State) (reg n : Nat) (bs : List Byte) (k : Nat) :
    (s.afterRead reg n bs).turnAt k = s.turnAt (k + 1) := by
  rw [State.turnAt_later (s := s) (t := s.afterRead reg n bs) (n := 1) List.drop_one.symm rfl rfl, Nat.add_comm]

@[simp] theorem State.setMotor_turnAt (s : State) (u : Int) (m : Motor) (k : Nat) :
    (s.setMotor u m).turnAt k = s.turnAt k := rfl

/-! ### Units -/

theorem State.motor?_eq {s : State} {u : Int} {m : Motor} (hu : 0 ≤ u) (h : s.motors[u.toNat]? = some m) :
    s.motor? u = some m := by
  simp [State.motor?, Int.not_lt.mpr hu, h]

theorem State.motor?_none {s : State} {u : Int} (h : u < 0 ∨ (s.motors.length : Int) ≤ u) : s.motor? u = none := by
  unfold State.motor?
  split
  · rfl
  · rw [List.getElem?_eq_none]; omega

theorem State.servo?_eq {s : State} {u : Int} {v : Servo} (hu : 0 ≤ u) (h : s.servos[u.toNat]? = some v) :
    s.servo? u = some v := by
  simp [State.servo?, Int.not_lt.mpr hu, h]

theorem State.servo?_none {s : State} {u : Int} (h : u < 0 ∨ (s.servos.length : Int) ≤ u) : s.servo? u = none := by
  unfold State.servo?
  split
  · rfl
  · rw [List.getElem?_eq_none]; omega

theorem State.motor?_some {s : State} {u : Int} {m : Motor} (h : s.motor? u = some m) :
    0 ≤ u ∧ s.motors[u.toNat]? = some m := by
  unfold State.motor? at h
  split at h
  · cases h
  · exact ⟨by omega, h⟩

theorem State.servo?_some {s : State} {u : Int} {v : Servo} (h : s.servo? u = some v) :
    0 ≤ u ∧ s.servos[u.toNat]? = some v := by
  unfold State.servo? at h
  split at h
  · cases h
  · exact ⟨by omega, h⟩

theorem withMotor_some {α : Type} {u : Int} {s : State} {m : Motor} (k : Motor → State → Run α)
    (h : s.motor? u = some m) : withMotor u k s = k m s := by
  simp [withMotor, h]

theorem withMotor_none {α : Type} {u : Int} {s : State} (k : Motor → State → Run α) (h : s.motor? u = none) :
    withMotor u k s = .refused .noSuchUnit s := by
  simp [withMotor, h]

theorem withServo_some {α : Type} {u : Int} {s : State} {v : Servo} (k : Servo → State → Run α)
    (h : s.servo? u = some v) : withServo u k s = k v s := by
  simp [withServo, h]

theorem withServo_none {α : Type} {u : Int} {s : State} (k : Servo → State → Run α) (h : s.servo? u = none) :
    withServo u k s = .refused .noSuchUnit s := by
  simp [withServo, h]

@[simp] theorem requireSet_some {α β : Type} (r : RegName) (a : α) (k : α → State → Run β) (s : State) :
    requireSet r (some a) k s = k a s := rfl

@[simp] theorem requireSet_none {α β : Type} (r : RegName) (k : α → State → Run β) (s : State) :
    requireSet r none k s = .refused (.unset r) s := rfl

/-! ### Operand checks -/

theorem blockAddr_ok {ch : Int} (h0 : 0 ≤ ch) (h1 : ch ≤ 15) : blockAddr ch = .ok (0x06 + 4 * ch.toNat) := by
  simp [blockAddr, channelOk, h0, h1, blockBase, led0OnL]

theorem blockAddr_bad {ch : Int} (h : ch < 0 ∨ 15 < ch) : blockAddr ch = .error (.channel ch) := by
  have : ¬ (0 ≤ ch ∧ ch ≤ 15) := by omega
  simp [blockAddr, channelOk, this]

theorem encodeDuty_ok {cfg : Config} {d : Rat} (h0 : 0 ≤ d) (h1 : d ≤ 1) :
    encodeDuty cfg d = .ok (encodedBlock cfg d) := by
  simp [encodeDuty, dutyOk, h0, h1]

theorem encodeDuty_bad {cfg : Config} {d : Rat} (h : d < 0 ∨ 1 < d) : encodeDuty cfg d = .error (.duty d) := by
  have : ¬ (0 ≤ d ∧ d ≤ 1) := by
    rintro ⟨h0, h1⟩
    rcases h with h | h
    · exact absurd h0 (not_le.mpr h)
    · exact absurd h1 (not_le.mpr h)
  simp [encodeDuty, dutyOk, this]

theorem encodeBurst_ok {cfg : Config} {ds : List Rat} (h : ∀ d ∈ ds, 0 ≤ d ∧ d ≤ 1) :
    encodeBurst cfg ds = .ok (ds.map fun d => (encodedBlock cfg d).toBytes).flatten := by
  induction ds with
  | nil => rfl
  | cons d ds ih =>
    simp only [List.forall_mem_cons] at h
    simp [encodeBurst, encodeDuty_ok h.1.1 h.1.2, ih h.2]

theorem encodeBurst_bad {cfg : Config} {good rest : List Rat} {d : Rat} (h : ∀ x ∈ good, 0 ≤ x ∧ x ≤ 1)
    (hd : d < 0 ∨ 1 < d) : encodeBurst cfg (good ++ d :: rest) = .error (.duty d) := by
  induction good with
  | nil => simp [encodeBurst, encodeDuty_bad hd]
  | cons x good ih =>
    simp only [List.forall_mem_cons] at h
    simp [encodeBurst, encodeDuty_ok h.1.1 h.1.2, ih h.2]

/-- A burst has four bytes per duty cycle. -/
theorem encodeBurst_length {cfg : Config} {ds : List Rat} {bs : List Byte} (h : encodeBurst cfg ds = .ok bs) :
    bs.length = 4 * ds.length := by
  induction ds generalizing bs with
  | nil => simp [encodeBurst] at h; simp [← h]
  | cons d ds ih =>
    simp only [encodeBurst] at h
    split at h
    · cases h
    · split at h
      · cases h
      · rename_i hb
        cases h
        simp [ih hb, Block.toBytes]
        omega

/-- Legs are duty cycles (rule R104). -/
theorem legs_in_range (alpha beta speed : Rat) :
    (0 ≤ (legsOf (motorDrive alpha beta speed)).1 ∧ (legsOf (motorDrive alpha beta speed)).1 ≤ 1) ∧
    (0 ≤ (legsOf (motorDrive alpha beta speed)).2 ∧ (legsOf (motorDrive alpha beta speed)).2 ≤ 1) := by
  have hv : -1 ≤ motorDrive alpha beta speed ∧ motorDrive alpha beta speed ≤ 1 := by
    unfold motorDrive clamp
    split
    · exact ⟨le_refl _, by norm_num⟩
    · split
      · exact ⟨by norm_num, le_refl _⟩
      · constructor <;> linarith
  unfold legsOf
  split
  · exact ⟨⟨le_refl _, by norm_num⟩, by linarith, hv.2⟩
  · exact ⟨⟨by simp only; linarith, by simp only; linarith⟩, le_refl _, by norm_num⟩

end Sys2Proof.Machine
end

