-- ==== Sys2Proof/Laws/Effect.lean ====
section
/-! SUPPORT. Everything an instruction can do to the state, said once: what the bus part of a command's pseudocode can
do (`OnlyBus`), which registers each instruction can write (`regEffect`), and the one lemma `exec_effect` from which the
rules of the whole machine follow without unfolding a meaning again. -/

namespace Sys2Proof.Machine

/-! ### The state inside a run -/

/-- `P` holds of the state a run has come to, however it got there; and no pseudocode refuses as `faulted`, which only
the entry step does (rule R150). -/
def Run.All {α : Type} (P : State → Prop) : Run α → Prop
  | .done _ s => P s
  | .raised _ s => P s
  | .refused r s => r ≠ .faulted ∧ P s

@[simp] theorem Run.All_done {α : Type} (P : State → Prop) (a : α) (s : State) :
    (Run.done a s).All P ↔ P s := Iff.rfl

@[simp] theorem Run.All_raised {α : Type} (P : State → Prop) (e : ErrorInfo) (s : State) :
    (Run.raised e s : Run α).All P ↔ P s := Iff.rfl

@[simp] theorem Run.All_refused {α : Type} (P : State → Prop) (r : Reason) (s : State) :
    (Run.refused r s : Run α).All P ↔ r ≠ .faulted ∧ P s := Iff.rfl

theorem Run.All.mono {α : Type} {P Q : State → Prop} {x : Run α} (h : x.All P) (hpq : ∀ s, P s → Q s) :
    x.All Q := by
  cases x with
  | done a s => exact hpq _ h
  | raised e s => exact hpq _ h
  | refused r s => exact ⟨h.1, hpq _ h.2⟩

theorem Run.All.bind {α β : Type} {P Q : State → Prop} {x : Run α} {f : α → State → Run β} (h : x.All P)
    (hpq : ∀ s, P s → Q s) (hf : ∀ a t, P t → (f a t).All Q) : (x.andThen f).All Q := by
  cases x with
  | done a t => exact hf a t h
  | raised e t => exact hpq t h
  | refused r t => exact ⟨h.1, hpq t h.2⟩

theorem Run.All.andThen {α β : Type} {P : State → Prop} {x : Run α} {f : α → State → Run β} (h : x.All P)
    (hf : ∀ a t, P t → (f a t).All P) : (x.andThen f).All P :=
  h.bind (fun _ k => k) hf

theorem Run.All.ofExcept {α : Type} {P : State → Prop} {s : State} (h : P s) (x : Except ErrorInfo α) :
    (Run.ofExcept x s).All P := by
  cases x <;> exact h

/-! ### What the bus part of a command can do -/

/-- From `s` to `t` only transactions happened, each one satisfying `ok`: they stand in the trace, each used up one
answer, and the chip changed at most where they wrote. -/
structure OnlyBus (ok : Xact → Prop) (s t : State) : Prop where
  cfg : t.cfg = s.cfg
  freq : t.freq = s.freq
  latch : t.latch = s.latch
  motors : t.motors = s.motors
  servos : t.servos = s.servos
  cmdidx : t.cmdidx = s.cmdidx
  resp : t.resp = s.resp
  host : t.host = s.host
  busMode : t.busMode = s.busMode
  chip_wf : Memory.wf s.chip = true → Memory.wf t.chip = true
  grows : ∃ new : List Xact, t.trace = s.trace ++ new ∧ t.turns = s.turns.drop new.length ∧
    t.busCount = s.busCount + new.length ∧ (∀ x ∈ new, ok x) ∧
    (∀ a, (∀ x ∈ new, ¬ x.writesTo a) → Memory.read? t.chip a = Memory.read? s.chip a) ∧
    (new = [] → t.chip = s.chip)

theorem OnlyBus.refl (ok : Xact → Prop) (s : State) : OnlyBus ok s s where
  cfg := rfl
  freq := rfl
  latch := rfl
  motors := rfl
  servos := rfl
  cmdidx := rfl
  resp := rfl
  host := rfl
  busMode := rfl
  chip_wf := id
  grows := ⟨[], by simp⟩

theorem OnlyBus.trans {ok : Xact → Prop} {s t r : State} (h : OnlyBus ok s t) (k : OnlyBus ok t r) :
    OnlyBus ok s r where
  cfg := k.cfg.trans h.cfg
  freq := k.freq.trans h.freq
  latch := k.latch.trans h.latch
  motors := k.motors.trans h.motors
  servos := k.servos.trans h.servos
  cmdidx := k.cmdidx.trans h.cmdidx
  resp := k.resp.trans h.resp
  host := k.host.trans h.host
  busMode := k.busMode.trans h.busMode
  chip_wf := k.chip_wf ∘ h.chip_wf
  grows := by
    obtain ⟨n, t1, t2, t3, t4, t5, t6⟩ := h.grows
    obtain ⟨m, r1, r2, r3, r4, r5, r6⟩ := k.grows
    refine ⟨n ++ m, by rw [r1, t1, List.append_assoc], by rw [r2, t2, List.drop_drop, List.length_append],
      by rw [r3, t3, List.length_append, Nat.add_assoc], ?_, ?_, ?_⟩
    · intro x hx
      rcases List.mem_append.mp hx with hx | hx
      · exact t4 x hx
      · exact r4 x hx
    · intro a ha
      rw [r5 a fun x hx => ha x (List.mem_append_right _ hx), t5 a fun x hx => ha x (List.mem_append_left _ hx)]
    · intro he
      rw [r6 (List.append_eq_nil_iff.mp he).2, t6 (List.append_eq_nil_iff.mp he).1]

/-- A run that issues only such transactions, begun after others of them. -/
theorem OnlyBus.then {α : Type} {ok : Xact → Prop} {s t : State} {x : Run α} (h : OnlyBus ok s t)
    (hx : x.All (OnlyBus ok t)) : x.All (OnlyBus ok s) :=
  hx.mono fun _ k => h.trans k

theorem onlyBus_busWrite {ok : Xact → Prop} {s : State} {reg : Nat} {bs : List Byte} (hreg : reg + bs.length ≤ 256)
    (h1 : ok (.write s.cfg.deviceAddr reg bs)) (h2 : ok (.writeFailed s.cfg.deviceAddr reg bs)) :
    (busWrite reg bs s).All (OnlyBus ok s) := by
  rcases busWrite_cases reg bs s with h | h <;> rw [h]
  · refine ⟨rfl, rfl, rfl, rfl, rfl, rfl, rfl, rfl, rfl, Memory.wf_writeBytes reg bs hreg,
      [_], rfl, List.drop_one.symm, rfl, by simpa using h1, fun a ha => ?_, nofun⟩
    have : ¬ (reg ≤ a ∧ a < reg + bs.length) := ha _ (List.mem_singleton_self _)
    simp [Memory.read?_writeBytes, this]
  · refine ⟨rfl, rfl, rfl, rfl, rfl, rfl, rfl, rfl, rfl, Memory.wf_writeSome _ reg 0 bs hreg,
      [_], rfl, List.drop_one.symm, rfl, by simpa using h2, fun a ha => ?_, nofun⟩
    exact Memory.read?_writeSome_outside _ _ _ _ _ _ (ha _ (List.mem_singleton_self _))

theorem onlyBus_busRead {ok : Xact → Prop} {s : State} {reg n : Nat}
    (h1 : ∀ bs : List Byte, bs.length = n → ok (.read s.cfg.deviceAddr reg n bs))
    (h2 : ok (.readFailed s.cfg.deviceAddr reg n)) : (busRead reg n s).All (OnlyBus ok s) := by
  rcases busRead_cases reg n s with ⟨bs, hr, h⟩ | ⟨why, h⟩ | ⟨a, h⟩ <;> rw [h]
  · exact ⟨rfl, rfl, rfl, rfl, rfl, rfl, rfl, rfl, rfl, id, [_], rfl, List.drop_one.symm, rfl,
      by simpa using h1 bs hr.1, fun a _ => rfl, nofun⟩
  · exact ⟨rfl, rfl, rfl, rfl, rfl, rfl, rfl, rfl, rfl, id, [_], rfl, List.drop_one.symm, rfl,
      by simpa using h2, fun a _ => rfl, nofun⟩
  · exact ⟨nofun, OnlyBus.refl ok s⟩

/-! ### The two kinds of transaction -/

/-- A transaction on whole channel blocks, as the block may issue it (rules R35, R36, R80). -/
def channelXact (cfg : Config) (x : Xact) : Prop := x.ok cfg ∧ wholeBlocks x.reg x.len

/-- A one-byte transaction on `MODE1` or `PRESCALE`, as `SETFREQ` may issue it (rule R36). -/
def timebaseXact (cfg : Config) (x : Xact) : Prop := x.ok cfg ∧ (x.reg = regMode1 ∨ x.reg = regPrescale) ∧ x.len = 1

/-- The transactions an instruction may issue (rules R36, R80). -/
def mayIssue (i : Instr) (cfg : Config) (x : Xact) : Prop :=
  if programsTimebase i then timebaseXact cfg x else isQuiet i = false ∧ channelXact cfg x

theorem wholeBlocks_le {reg len : Nat} (h : wholeBlocks reg len) : reg + len ≤ 256 := by
  obtain ⟨ch, n, _, _, rfl, rfl⟩ := h
  simp only [led0OnL]
  omega

theorem onlyBus_writeBlocks {s : State} {reg : Nat} {ds : List Rat} {bs : List Byte}
    (hb : encodeBurst s.cfg ds = .ok bs) (hw : wholeBlocks reg bs.length) :
    (busWrite reg bs s).All (OnlyBus (channelXact s.cfg) s) :=
  onlyBus_busWrite (wholeBlocks_le hw) ⟨⟨rfl, .inr ⟨hw, ds, hb⟩⟩, hw⟩ ⟨⟨rfl, .inr ⟨hw, ds, hb⟩⟩, hw⟩

theorem onlyBus_readBlocks {s : State} {reg n : Nat} (hw : wholeBlocks reg n) :
    (busRead reg n s).All (OnlyBus (channelXact s.cfg) s) :=
  onlyBus_busRead (fun _ hl => ⟨⟨rfl, .inr hw, hl⟩, hw⟩) ⟨⟨rfl, .inr hw⟩, hw⟩

theorem onlyBus_writeTimebase {s : State} {reg : Nat} {b : Byte} (hreg : reg = regMode1 ∨ reg = regPrescale) :
    (busWrite reg [b] s).All (OnlyBus (timebaseXact s.cfg) s) := by
  refine onlyBus_busWrite ?_ ⟨⟨rfl, .inl ⟨hreg, rfl⟩⟩, hreg, rfl⟩ ⟨⟨rfl, .inl ⟨hreg, rfl⟩⟩, hreg, rfl⟩
  rcases hreg with rfl | rfl <;> simp [regMode1, regPrescale]

theorem onlyBus_readMode1 {s : State} : (busRead regMode1 1 s).All (OnlyBus (timebaseXact s.cfg) s) :=
  onlyBus_busRead (fun _ hl => ⟨⟨rfl, .inl ⟨rfl, rfl⟩, hl⟩, .inl rfl, rfl⟩) ⟨⟨rfl, .inl ⟨rfl, rfl⟩⟩, .inl rfl, rfl⟩

/-! ### The driver operations -/

theorem blockAddr_cases (ch : Int) :
    (blockAddr ch = .ok (blockBase ch) ∧ 0 ≤ ch ∧ ch ≤ 15) ∨ blockAddr ch = .error (.channel ch) := by
  by_cases h : 0 ≤ ch ∧ ch ≤ 15
  · exact .inl ⟨by simp [blockAddr, channelOk, h], h⟩
  · exact .inr (by simp [blockAddr, channelOk, h])

theorem encodeDuty_cases (cfg : Config) (d : Rat) :
    encodeDuty cfg d = .ok (encodedBlock cfg d) ∨ encodeDuty cfg d = .error (.duty d) := by
  unfold encodeDuty
  split <;> simp

theorem encodeBurst_one {cfg : Config} {d : Rat} {b : Block} (h : encodeDuty cfg d = .ok b) :
    encodeBurst cfg [d] = .ok b.toBytes := by
  simp [encodeBurst, h]

theorem wholeBlocks_one {ch : Int} (h0 : 0 ≤ ch) (h1 : ch ≤ 15) : wholeBlocks (blockBase ch) 4 :=
  ⟨ch.toNat, 1, by omega, by omega, rfl, rfl⟩

theorem wholeBlocks_range {start n : Int} (h : rangeOk start n = true) (hn : 1 ≤ n) :
    wholeBlocks (blockBase start) (4 * n.toNat) := by
  simp only [rangeOk, decide_eq_true_eq] at h
  exact ⟨start.toNat, n.toNat, by omega, by omega, rfl, rfl⟩

theorem driverSetDc_effect (ch : Int) (d : Rat) (s : State) :
    (driverSetDc ch d s).All (OnlyBus (channelXact s.cfg) s) := by
  unfold driverSetDc
  rcases blockAddr_cases ch with ⟨h, h0, h1⟩ | h <;> rw [h]
  · rcases hd : encodeDuty s.cfg d with e | b
    · simp [hd, OnlyBus.refl]
    · simp only [Run.ofExcept_ok, Run.andThen_done, hd]
      exact (onlyBus_writeBlocks (encodeBurst_one hd) (wholeBlocks_one h0 h1)).andThen fun _ _ k => k
  · simp [OnlyBus.refl]

theorem driverGetDc_effect (ch : Int) (s : State) : (driverGetDc ch s).All (OnlyBus (channelXact s.cfg) s) := by
  unfold driverGetDc
  rcases blockAddr_cases ch with ⟨h, h0, h1⟩ | h <;> rw [h]
  · exact (onlyBus_readBlocks (wholeBlocks_one h0 h1)).andThen fun _ _ k => k
  · simp [OnlyBus.refl]

theorem shapeOk_count {sh : Shape} (h : shapeOk sh = true) : 1 ≤ sh.n := by
  simp only [shapeOk, Bool.and_eq_true, decide_eq_true_eq] at h
  exact h.1.1

theorem driverSetRange_effect (start n : Int) (ds : List Rat) (s : State) :
    (driverSetRange start n ds s).All (OnlyBus (channelXact s.cfg) s) := by
  unfold driverSetRange
  by_cases hs : shapeOk ⟨n, none, some ds.length⟩ = true
  · have hn := shapeOk_count hs
    by_cases hr : rangeOk start n = true
    · rcases hb : encodeBurst s.cfg ds with e | bs
      · simp [hs, hr, OnlyBus.refl]
      · have hl : bs.length = 4 * n.toNat := by
          have := encodeBurst_length hb
          simp [shapeOk] at hs
          omega
        simp only [hs, hr, if_true, Run.ofExcept_ok, Run.andThen_done]
        exact (onlyBus_writeBlocks hb (hl ▸ wholeBlocks_range hr hn)).andThen fun _ _ k => k
    · simp [hs, hr, OnlyBus.refl]
  · simp [hs, OnlyBus.refl]

theorem driverGetRange_effect (start n : Int) (s : State) :
    (driverGetRange start n s).All (OnlyBus (channelXact s.cfg) s) := by
  unfold driverGetRange
  by_cases hs : shapeOk ⟨n, none, none⟩ = true
  · by_cases hr : rangeOk start n = true
    · simp only [hs, hr, if_true]
      exact (onlyBus_readBlocks (wholeBlocks_range hr (shapeOk_count hs))).andThen fun _ _ k => k
    · simp [hs, hr, OnlyBus.refl]
  · simp [hs, OnlyBus.refl]

theorem driverSetEach_effect (es : List (Int × Rat)) (s : State) :
    (driverSetEach es s).All (OnlyBus (channelXact s.cfg) s) := by
  induction es generalizing s with
  | nil => exact OnlyBus.refl _ s
  | cons e es ih => exact (driverSetDc_effect e.1 e.2 s).andThen fun _ t k => k.then (k.cfg ▸ ih t)

theorem driverGetEach_effect (chs : List Int) (s : State) :
    (driverGetEach chs s).All (OnlyBus (channelXact s.cfg) s) := by
  induction chs generalizing s with
  | nil => exact OnlyBus.refl _ s
  | cons ch chs ih =>
    exact (driverGetDc_effect ch s).andThen fun _ t k => Run.All.andThen (k.then (k.cfg ▸ ih t)) fun _ _ k => k

theorem driverSetList_effect (n : Int) (chs : List Int) (ds : List Rat) (s : State) :
    (driverSetList n chs ds s).All (OnlyBus (channelXact s.cfg) s) := by
  unfold driverSetList
  dsimp only
  split
  · exact driverSetEach_effect _ s
  · simp [OnlyBus.refl]

theorem driverGetList_effect (n : Int) (chs : List Int) (s : State) :
    (driverGetList n chs s).All (OnlyBus (channelXact s.cfg) s) := by
  unfold driverGetList
  dsimp only
  split
  · exact driverGetEach_effect _ s
  · simp [OnlyBus.refl]

theorem writeOneByte_effect {reg : Nat} (hreg : reg = regMode1 ∨ reg = regPrescale) (b : Byte) (s : State) :
    (writeOneByte reg b s).All (OnlyBus (timebaseXact s.cfg) s) :=
  (onlyBus_writeTimebase hreg).andThen fun _ _ k => k

theorem motorWriteLegs_effect (a b : Int) (legs : Rat × Rat) (s : State) :
    (motorWriteLegs a b legs s).All (OnlyBus (channelXact s.cfg) s) := by
  unfold motorWriteLegs
  split
  · exact driverSetRange_effect _ _ _ s
  · exact (driverSetDc_effect _ _ s).andThen fun _ t k => k.then (k.cfg ▸ driverSetDc_effect _ _ t)

/-! ### The registers -/

/-- The registers an instruction can write (rules R14 to R17): everything else stays. -/
def regEffect (i : Instr) (s t : State) : Prop :=
  match i with
  | .setfreq hz => (t.freq = s.freq ∨ (0 < hz ∧ t.freq = some hz)) ∧ t.motors = s.motors ∧ t.servos = s.servos
  | .mset u speed => t.freq = s.freq ∧ t.servos = s.servos ∧
      (t.motors = s.motors ∨
        ∃ m, s.motors[u.toNat]? = some m ∧ t.motors = s.motors.set u.toNat { m with value := some speed })
  | .mwr u _ x => t.freq = s.freq ∧ t.servos = s.servos ∧
      (t.motors = s.motors ∨
        ∃ m, s.motors[u.toNat]? = some m ∧
          (t.motors = s.motors.set u.toNat { m with alpha := x } ∨ t.motors = s.motors.set u.toNat { m with beta := x }))
  | .sconfig u _ _ _ | .srev u | .swr u _ _ => t.freq = s.freq ∧ t.motors = s.motors ∧
      (t.servos = s.servos ∨
        ∃ v w, s.servos[u.toNat]? = some v ∧ w.binding = v.binding ∧ t.servos = s.servos.set u.toNat w)
  | .calload _ => t.freq = s.freq ∧
      t.motors.map Motor.binding = s.motors.map Motor.binding ∧
      t.motors.map (·.value) = s.motors.map (·.value) ∧
      t.servos.map Servo.binding = s.servos.map Servo.binding
  | .enc _ | .dec _ | .getfreq | .setdc _ _ | .getdc _ | .setrange _ _ _ | .getrange _ _ | .setlist _ _ _
  | .getlist _ _ | .mlegs _ _ | .mrd _ _ | .sduty _ _ | .sset _ _ | .srd _ _ | .calsave
  | .blkEncLinear _ | .blkEncFullOn | .blkEncFullOffDoc | .blkEncFullOffNative | .blkDecFoff _ _ _ _ _
  | .blkDecFon _ _ _ _ | .blkDecLinear _ _ _ _ | .setfreqW1 _ _ _ _ _ _ | .setfreqW3 _ _ _ _ _ _ _ _
  | .setfreqW4 _ _ _ _ _ _ _ | .setfreqW2 _ => t.freq = s.freq ∧ t.motors = s.motors ∧ t.servos = s.servos

/-- All an instruction's pseudocode can do to the state: the registers of `regEffect` and transactions of
`mayIssue`. -/
structure Effect (i : Instr) (s t : State) : Prop where
  regs : regEffect i s t
  cfg : t.cfg = s.cfg
  latch : t.latch = s.latch
  cmdidx : t.cmdidx = s.cmdidx
  resp : t.resp = s.resp
  host : t.host = s.host
  busMode : t.busMode = s.busMode
  chip_wf : Memory.wf s.chip = true → Memory.wf t.chip = true
  grows : ∃ new : List Xact, t.trace = s.trace ++ new ∧ t.turns = s.turns.drop new.length ∧
    t.busCount = s.busCount + new.length ∧ (∀ x ∈ new, mayIssue i s.cfg x) ∧
    (∀ a, (∀ x ∈ new, ¬ x.writesTo a) → Memory.read? t.chip a = Memory.read? s.chip a) ∧
    (new = [] → t.chip = s.chip)

/-- An effect that is bus traffic after registers were written. -/
theorem Effect.of_bus {ok : Xact → Prop} {i : Instr} {s r t : State} (h : OnlyBus ok r t)
    (hok : ∀ x, ok x → mayIssue i s.cfg x) (hr : r = { s with freq := r.freq, motors := r.motors, servos := r.servos })
    (hregs : regEffect i s r → regEffect i s t) (hreg : regEffect i s r) : Effect i s t := by
  have c := congrArg State.cfg hr
  have l := congrArg State.latch hr
  have n := congrArg State.cmdidx hr
  have p := congrArg State.resp hr
  have o := congrArg State.host hr
  have m := congrArg State.busMode hr
  have e := congrArg State.chip hr
  have f := congrArg State.trace hr
  have g := congrArg State.turns hr
  have b := congrArg State.busCount hr
  simp only at c l n p o m e f g b
  obtain ⟨new, h1, h2, h3, h4, h5, h6⟩ := h.grows
  exact
    { regs := hregs hreg
      cfg := h.cfg.trans c
      latch := h.latch.trans l
      cmdidx := h.cmdidx.trans n
      resp := h.resp.trans p
      host := h.host.trans o
      busMode := h.busMode.trans m
      chip_wf := fun hw => h.chip_wf (e ▸ hw)
      grows := ⟨new, f ▸ h1, g ▸ h2, b ▸ h3, fun x hx => hok x (h4 x hx), fun a ha => by rw [h5 a ha, e],
        fun he => (h6 he).trans e⟩ }

/-- An effect that writes registers and issues no transaction. -/
theorem Effect.of_regs {i : Instr} {s t : State}
    (ht : t = { s with freq := t.freq, motors := t.motors, servos := t.servos }) (hreg : regEffect i s t) :
    Effect i s t :=
  Effect.of_bus (OnlyBus.refl (fun _ => False) t) (fun _ h => h.elim) ht id hreg

/-! ### Every instruction -/

theorem driverSetFreq_effect (hz : Int) (s : State) : (driverSetFreq hz s).All (Effect (.setfreq hz) s) := by
  have bus : ∀ t, OnlyBus (timebaseXact s.cfg) s t → Effect (.setfreq hz) s t := fun t h =>
    Effect.of_bus h (fun _ hx => by simpa [mayIssue, programsTimebase] using hx) rfl
      (fun _ => ⟨.inl h.freq, h.motors, h.servos⟩) ⟨.inl rfl, rfl, rfl⟩
  unfold driverSetFreq
  by_cases h0 : hz ≤ 0
  · simp only [h0, if_true]
    exact bus s (OnlyBus.refl _ s)
  by_cases hp : prescaleOf s.cfg hz > 255
  · simp only [h0, if_false, hp, if_true]
    exact bus s (OnlyBus.refl _ s)
  simp only [h0, hp, if_false]
  have mode1 : ∀ (b : Byte) (t : State), OnlyBus (timebaseXact s.cfg) s t →
      (busWrite regMode1 [b] t).All (OnlyBus (timebaseXact s.cfg) s) := fun b t k =>
    k.then (k.cfg ▸ onlyBus_writeTimebase (.inl rfl))
  have prescale : ∀ (b : Byte) (t : State), OnlyBus (timebaseXact s.cfg) s t →
      (busWrite regPrescale [b] t).All (OnlyBus (timebaseXact s.cfg) s) := fun b t k =>
    k.then (k.cfg ▸ onlyBus_writeTimebase (.inr rfl))
  refine onlyBus_readMode1.bind bus fun bs t1 k1 => ?_
  refine (mode1 _ t1 k1).bind bus fun _ t2 k2 => ?_
  refine (prescale _ t2 k2).bind bus fun _ t3 k3 => ?_
  refine (mode1 _ t3 k3).bind bus fun _ t4 k4 => ?_
  refine (mode1 _ t4 k4).bind bus fun _ t5 k5 => ?_
  have e := bus t5 k5
  exact { e with regs := ⟨.inr ⟨by omega, rfl⟩, k5.motors, k5.servos⟩ }

/-- A driver operation on the channels, run by an instruction that writes no register. -/
theorem Effect.of_channels {α : Type} {i : Instr} {s : State} {x : Run α} (h : x.All (OnlyBus (channelXact s.cfg) s))
    (hi : programsTimebase i = false ∧ isQuiet i = false)
    (hreg : ∀ t : State, t.freq = s.freq → t.motors = s.motors → t.servos = s.servos → regEffect i s t) :
    x.All (Effect i s) :=
  h.mono fun _ k => Effect.of_bus k (fun _ hx => by simpa [mayIssue, hi.1, hi.2] using hx) rfl
    (fun _ => hreg _ k.freq k.motors k.servos) (hreg s rfl rfl rfl)

/-- One byte write of `SETFREQ` by itself. -/
theorem Effect.of_timebase {i : Instr} {s : State} {x : Run Result} (h : x.All (OnlyBus (timebaseXact s.cfg) s))
    (hi : programsTimebase i = true)
    (hreg : ∀ t : State, t.freq = s.freq → t.motors = s.motors → t.servos = s.servos → regEffect i s t) :
    x.All (Effect i s) :=
  h.mono fun _ k => Effect.of_bus k (fun _ hx => by simpa [mayIssue, hi] using hx) rfl
    (fun _ => hreg _ k.freq k.motors k.servos) (hreg s rfl rfl rfl)

theorem regEffect_refl (i : Instr) (s : State) : regEffect i s s := by
  cases i <;> simp [regEffect]

/-- Nothing done yet. -/
theorem Effect.none {i : Instr} {s : State} : Effect i s s := Effect.of_regs rfl (regEffect_refl i s)

theorem withMotor_all {α : Type} {P : State → Prop} {u : Int} {k : Motor → State → Run α} {s : State} (h0 : P s)
    (h : ∀ m, s.motors[u.toNat]? = some m → (k m s).All P) : (withMotor u k s).All P := by
  unfold withMotor
  split
  · exact ⟨nofun, h0⟩
  · exact h _ (State.motor?_some ‹_›).2

theorem withServo_all {α : Type} {P : State → Prop} {u : Int} {k : Servo → State → Run α} {s : State} (h0 : P s)
    (h : ∀ v, s.servos[u.toNat]? = some v → (k v s).All P) : (withServo u k s).All P := by
  unfold withServo
  split
  · exact ⟨nofun, h0⟩
  · exact h _ (State.servo?_some ‹_›).2

theorem requireSet_all {α β : Type} {P : State → Prop} {r : RegName} {x : Option α} {k : α → State → Run β}
    {s : State} (h0 : P s) (h : ∀ a, x = some a → (k a s).All P) : (requireSet r x k s).All P := by
  cases x with
  | none => exact ⟨nofun, h0⟩
  | some a => exact h a rfl

theorem servoDuty_all {P : State → Prop} (u : Int) (v : Servo) (pos : Rat) {s : State} (h0 : P s) :
    (servoDuty u v pos s).All P :=
  requireSet_all h0 fun _ _ => requireSet_all h0 fun _ _ => requireSet_all h0 fun _ _ => requireSet_all h0 fun _ _ => h0

theorem loadMotor_keeps {doc : DocMap} {m m' : Motor} (h : loadMotor doc m = .ok m') :
    m'.binding = m.binding ∧ m'.value = m.value := by
  simp only [loadMotor, bind, Except.bind, pure, Except.pure] at h
  repeat' split at h
  all_goals first
    | cases h; exact ⟨rfl, rfl⟩
    | cases h

theorem loadServo_keeps {doc : DocMap} {v v' : Servo} (h : loadServo doc v = .ok v') : v'.binding = v.binding := by
  simp only [loadServo, bind, Except.bind, pure, Except.pure] at h
  repeat' split at h
  all_goals first
    | cases h; rfl
    | cases h

theorem loadUnits_map {α β : Type} {load : α → Except ErrorInfo α} {f : α → β}
    (hf : ∀ x y, load x = .ok y → f y = f x) {xs ys : List α} (h : loadUnits load xs = .ok ys) :
    ys.map f = xs.map f := by
  induction xs generalizing ys with
  | nil => simp [loadUnits] at h; simp [← h]
  | cons x xs ih =>
    simp only [loadUnits, bind, Except.bind, pure, Except.pure] at h
    split at h
    · cases h
    split at h
    · cases h
    rename_i hx _ _ hxs
    cases h
    simp [hf _ _ hx, ih hxs]

theorem loadDoc_keeps {doc : CalDoc} {s : State} {ms : List Motor} {vs : List Servo}
    (h : loadDoc doc s = .ok (ms, vs)) :
    ms.map Motor.binding = s.motors.map Motor.binding ∧ ms.map (·.value) = s.motors.map (·.value) ∧
      vs.map Servo.binding = s.servos.map Servo.binding := by
  cases doc with
  | absent => cases h
  | malformed => cases h
  | map m =>
    simp only [loadDoc, bind, Except.bind, pure, Except.pure] at h
    split at h
    · cases h
    split at h
    · cases h
    rename_i hm _ _ hv
    cases h
    exact ⟨loadUnits_map (fun _ _ h => (loadMotor_keeps h).1) hm, loadUnits_map (fun _ _ h => (loadMotor_keeps h).2) hm,
      loadUnits_map (fun _ _ h => loadServo_keeps h) hv⟩

/-- The end of an instruction: of a command (rule R11) or of a byte-format row. -/
def endOf (i : Instr) (x : Run Result) : State := if isCommand i then endCommand x else endFormat x

/-- Every instruction entered with the latch clear is a run of its pseudocode, whose effect is `Effect`, and its end. -/
theorem exec_effect (i : Instr) (s : State) (hl : s.latch = none) :
    ∃ x : Run Result, exec i s = .next (endOf i x) ∧ x.All (Effect i s) := by
  have format : ∀ body : State → Run Result, isCommand i = false → exec i s = .next (runFormat body s) →
      (body s).All (Effect i s) → ∃ x : Run Result, exec i s = .next (endOf i x) ∧ x.All (Effect i s) :=
    fun body hi he ha => ⟨body s, by rw [he, runFormat_ready hl, endOf, hi]; rfl, ha⟩
  have command : ∀ body : State → Run Result, isCommand i = true → exec i s = .next (runCommand body s) →
      (body s).All (Effect i s) → ∃ x : Run Result, exec i s = .next (endOf i x) ∧ x.All (Effect i s) :=
    fun body hi he ha => ⟨body s, by rw [he, runCommand_ready hl, endOf, hi]; rfl, ha⟩
  cases i with
  | enc d => exact command _ rfl rfl ((Run.All.ofExcept Effect.none _).andThen fun _ _ k => k)
  | dec blk => exact command _ rfl rfl Effect.none
  | setfreq hz => exact command _ rfl rfl (driverSetFreq_effect hz s)
  | getfreq =>
    exact command _ rfl rfl (requireSet_all Effect.none fun _ _ => Effect.none)
  | setdc ch d =>
    exact command _ rfl rfl (Effect.of_channels (driverSetDc_effect ch d s) ⟨rfl, rfl⟩ fun _ h1 h2 h3 => ⟨h1, h2, h3⟩)
  | getdc ch =>
    exact command _ rfl rfl (Run.All.andThen
      (Effect.of_channels (driverGetDc_effect ch s) ⟨rfl, rfl⟩ fun _ h1 h2 h3 => ⟨h1, h2, h3⟩) fun _ _ k => k)
  | setrange start n ds =>
    exact command _ rfl rfl
      (Effect.of_channels (driverSetRange_effect start n ds s) ⟨rfl, rfl⟩ fun _ h1 h2 h3 => ⟨h1, h2, h3⟩)
  | getrange start n =>
    exact command _ rfl rfl (Run.All.andThen
      (Effect.of_channels (driverGetRange_effect start n s) ⟨rfl, rfl⟩ fun _ h1 h2 h3 => ⟨h1, h2, h3⟩) fun _ _ k => k)
  | setlist n chs ds =>
    exact command _ rfl rfl
      (Effect.of_channels (driverSetList_effect n chs ds s) ⟨rfl, rfl⟩ fun _ h1 h2 h3 => ⟨h1, h2, h3⟩)
  | getlist n chs =>
    exact command _ rfl rfl (Run.All.andThen
      (Effect.of_channels (driverGetList_effect n chs s) ⟨rfl, rfl⟩ fun _ h1 h2 h3 => ⟨h1, h2, h3⟩) fun _ _ k => k)
  | mlegs u speed =>
    exact command _ rfl rfl (withMotor_all Effect.none fun _ _ => Effect.none)
  | mset u speed =>
    refine command _ rfl rfl (withMotor_all Effect.none fun m hm => ?_)
    refine (motorWriteLegs_effect _ _ _ _).mono fun t k => ?_
    exact Effect.of_bus k (fun _ hx => by simpa [mayIssue, programsTimebase, isQuiet] using hx) rfl
      (fun _ => ⟨k.freq, k.servos, .inr ⟨m, hm, k.motors⟩⟩) ⟨rfl, rfl, .inr ⟨m, hm, rfl⟩⟩
  | mwr u f x =>
    refine command _ rfl rfl (withMotor_all Effect.none fun m hm => ?_)
    split
    · exact Effect.of_regs rfl ⟨rfl, rfl, .inr ⟨m, hm, .inl rfl⟩⟩
    · exact Effect.of_regs rfl ⟨rfl, rfl, .inr ⟨m, hm, .inr rfl⟩⟩
    · exact ⟨nofun, Effect.none⟩
    · exact ⟨nofun, Effect.none⟩
  | mrd u f =>
    refine command _ rfl rfl (withMotor_all Effect.none fun m hm => ?_)
    split
    · exact Effect.none
    · exact Effect.none
    · exact requireSet_all Effect.none fun _ _ => Effect.none
    · exact ⟨nofun, Effect.none⟩
  | sconfig u minW centerW maxW =>
    refine command _ rfl rfl (withServo_all Effect.none fun v hv => ?_)
    exact requireSet_all Effect.none fun hz _ =>
      Effect.of_regs rfl ⟨rfl, rfl, .inr ⟨v, v.withCal (servoCalOf hz minW centerW maxW), hv, rfl, rfl⟩⟩
  | sduty u pos =>
    refine command _ rfl rfl (withServo_all Effect.none fun v hv => ?_)
    exact (servoDuty_all u v pos Effect.none).andThen fun _ _ k => k
  | sset u pos =>
    refine command _ rfl rfl (withServo_all Effect.none fun v hv => ?_)
    refine (servoDuty_all (P := fun t => t = s) u v pos rfl).bind ?_ ?_
    · rintro t rfl
      exact Effect.none
    · rintro d t rfl
      exact Effect.of_channels (driverSetDc_effect v.ch d _) ⟨rfl, rfl⟩ fun _ h1 h2 h3 => ⟨h1, h2, h3⟩
  | srev u =>
    refine command _ rfl rfl (withServo_all Effect.none fun v hv => ?_)
    exact requireSet_all Effect.none fun a1 _ =>
      requireSet_all Effect.none fun a0 _ =>
        Effect.of_regs rfl ⟨rfl, rfl, .inr ⟨v, { v with alpha0 := some (-a1), alpha1 := some (-a0) }, hv, rfl, rfl⟩⟩
  | swr u f x =>
    refine command _ rfl rfl (withServo_all Effect.none fun v hv => ?_)
    split
    · rename_i fld _
      exact Effect.of_regs rfl ⟨rfl, rfl, .inr ⟨v, v.set fld x, hv, by cases fld <;> rfl, rfl⟩⟩
    · exact ⟨nofun, Effect.none⟩
  | srd u f =>
    refine command _ rfl rfl (withServo_all Effect.none fun v hv => ?_)
    split
    · exact requireSet_all Effect.none fun _ _ => Effect.none
    · exact ⟨nofun, Effect.none⟩
  | calload doc =>
    refine command _ rfl rfl ?_
    rcases h : loadDoc doc s with e | ⟨ms, vs⟩
    · simpa using Effect.none
    · obtain ⟨h1, h2, h3⟩ := loadDoc_keeps h
      simp only [Run.ofExcept_ok, Run.andThen_done]
      exact Effect.of_regs rfl ⟨rfl, h1, h2, h3⟩
  | calsave =>
    refine command _ rfl rfl ?_
    split
    · exact ⟨nofun, Effect.none⟩
    · exact Effect.none
  | setfreqW1 extclk autoInc sub1 sub2 sub3 allcall =>
    exact format _ rfl rfl
      (Effect.of_timebase (writeOneByte_effect (.inl rfl) _ s) rfl fun _ h1 h2 h3 => ⟨h1, h2, h3⟩)
  | setfreqW3 restart extclk autoInc sleep sub1 sub2 sub3 allcall =>
    exact format _ rfl rfl
      (Effect.of_timebase (writeOneByte_effect (.inl rfl) _ s) rfl fun _ h1 h2 h3 => ⟨h1, h2, h3⟩)
  | setfreqW4 restart extclk sleep sub1 sub2 sub3 allcall =>
    exact format _ rfl rfl
      (Effect.of_timebase (writeOneByte_effect (.inl rfl) _ s) rfl fun _ h1 h2 h3 => ⟨h1, h2, h3⟩)
  | setfreqW2 p =>
    exact format _ rfl rfl
      (Effect.of_timebase (writeOneByte_effect (.inr rfl) _ s) rfl fun _ h1 h2 h3 => ⟨h1, h2, h3⟩)
  | blkEncLinear n => exact format _ rfl rfl Effect.none
  | blkEncFullOn => exact format _ rfl rfl Effect.none
  | blkEncFullOffDoc => exact format _ rfl rfl Effect.none
  | blkEncFullOffNative => exact format _ rfl rfl Effect.none
  | blkDecFoff rHi f rLo fon n => exact format _ rfl rfl Effect.none
  | blkDecFon rHi f rLo n => exact format _ rfl rfl Effect.none
  | blkDecLinear rHi f rLo n => exact format _ rfl rfl Effect.none

end Sys2Proof.Machine
end

