-- ==== Sys2Proof/Laws/Operations.lean ====
section
/-! SUPPORT. One lemma per shared operation that says what it answers: rounding and the bits of a block, the driver
operations, the Servo transform. -/

namespace Sys2Proof.Machine

/-! ### Numbers -/

/-- `round_T` is the floor or the next integer, whichever is not farther (rule R7). -/
theorem roundT_cases (t : RoundTie) (x : Rat) :
    (roundT t x = x.floor ∧ x - (x.floor : Rat) ≤ 1 / 2) ∨
    (roundT t x = x.floor + 1 ∧ 1 / 2 ≤ x - (x.floor : Rat)) := by
  unfold roundT
  split
  · exact .inl ⟨rfl, le_of_lt ‹_›⟩
  split
  · exact .inr ⟨rfl, le_of_lt ‹_›⟩
  have h : x - (x.floor : Rat) = 1 / 2 := le_antisymm (not_lt.mp ‹_›) (not_lt.mp ‹_›)
  cases t <;> dsimp only <;> (try split) <;> first | exact .inl ⟨rfl, h.le⟩ | exact .inr ⟨rfl, h.ge⟩

theorem clamp_inside {x lo hi : Rat} (h1 : lo ≤ x) (h2 : x ≤ hi) : clamp x lo hi = x := by
  simp [clamp, not_lt.mpr h1, not_lt.mpr h2]

theorem clamp_bounds {x lo hi : Rat} (h : lo ≤ hi) : lo ≤ clamp x lo hi ∧ clamp x lo hi ≤ hi := by
  unfold clamp
  split
  · exact ⟨le_rfl, h⟩
  split
  · exact ⟨h, le_rfl⟩
  · exact ⟨not_lt.mp ‹_›, not_lt.mp ‹_›⟩

/-! ### Blocks -/

theorem fullMask_bit : ∀ b : Byte, ((b &&& fullMask) != 0) = b.getLsbD 4 := by decide

theorem lowNibble : ∀ b : Byte, (b &&& 0x0F).toNat = b.toNat % 16 := by decide

/-- The bytes of a linear block (rule R54): the mask of the upper nibble changes nothing. -/
theorem linearBlock_bytes (n : Nat) (hn : n < 4096) :
    linearBlock n = ⟨0, 0, BitVec.ofNat 8 (n % 256), BitVec.ofNat 8 (n / 256)⟩ := by
  unfold linearBlock
  congr 1
  · apply BitVec.eq_of_toNat_eq; simp
  · have h16 : n / 256 < 16 := by omega
    rw [Nat.shiftRight_eq_div_pow, show 2 ^ 8 = 256 from rfl]
    clear hn
    generalize n / 256 = k at *
    clear n
    revert k
    decide

/-! ### Transactions after transactions -/

theorem State.accepts_wrote {s : State} {ws : List (Nat × List Byte)} {k : Nat} :
    (s.wrote ws).accepts k ↔ s.accepts (ws.length + k) := by
  simp [State.accepts]

theorem State.accepts_didRead {s : State} {rs : List (Nat × List Byte)} {k : Nat} :
    (s.didRead rs).accepts k ↔ s.accepts (rs.length + k) := by
  simp [State.accepts]

theorem State.readsAs_didRead {s : State} {rs : List (Nat × List Byte)} {k reg n : Nat} {bs : List Byte} :
    (s.didRead rs).readsAs k reg n bs ↔ s.readsAs (rs.length + k) reg n bs := by
  unfold State.readsAs
  rw [State.didRead_turnAt, show (s.didRead rs).chip = s.chip from rfl]

theorem State.afterRead_byte (s : State) (reg : Nat) (b : Byte) : s.afterRead reg 1 [b] = s.didRead [(reg, [b])] :=
  State.afterRead_eq_didRead rfl

theorem State.afterRead_block (s : State) (reg : Nat) (b0 b1 b2 b3 : Byte) :
    s.afterRead reg 4 [b0, b1, b2, b3] = s.didRead [(reg, [b0, b1, b2, b3])] :=
  State.afterRead_eq_didRead rfl

theorem busRead_failed {s : State} (h : ¬ s.accepts 0) (reg n : Nat) :
    busRead reg n s = .raised (.transport .opaque s.trace.length) (s.afterFailedRead reg n) := by
  have h' : s.turnAt 0 = .answer .fail := Decidable.byContradiction h
  simp [busRead, h']

/-- A read that fails, or answers a wrong number of bytes (rules R33, R46). -/
theorem busRead_raised {s : State} {reg n : Nat} {why : TransportInfo}
    (h : (why = .opaque ∧ s.turnAt 0 = .answer .fail) ∨
      (why = .shortRead ∧ ∃ bs, s.turnAt 0 = .answer (.bytes bs) ∧ bs.length ≠ n)) :
    busRead reg n s = .raised (.transport why s.trace.length) (s.afterFailedRead reg n) := by
  rcases h with ⟨rfl, h⟩ | ⟨rfl, bs, h, hn⟩
  · simp [busRead, h]
  · simp [busRead, h, hn]

/-! ### The driver operations -/

theorem driverSetDc_ok {s : State} {ch : Int} {d : Rat} (h0 : 0 ≤ ch) (h1 : ch ≤ 15) (d0 : 0 ≤ d) (d1 : d ≤ 1)
    (ha : s.accepts 0) :
    driverSetDc ch d s = .done .none (s.wrote [(0x06 + 4 * ch.toNat, (encodedBlock s.cfg d).toBytes)]) := by
  simp only [driverSetDc, blockAddr_ok h0 h1, encodeDuty_ok d0 d1, Run.ofExcept_ok, Run.andThen_done,
    busWrite_accepted ha, State.afterWrite_eq_wrote]

theorem driverSetDc_badChannel {s : State} {ch : Int} {d : Rat} (h : ch < 0 ∨ 15 < ch) :
    driverSetDc ch d s = .raised (.channel ch) s := by
  simp only [driverSetDc, blockAddr_bad h, Run.ofExcept_error, Run.andThen_raised]

theorem driverSetDc_badDuty {s : State} {ch : Int} {d : Rat} (h0 : 0 ≤ ch) (h1 : ch ≤ 15) (h : d < 0 ∨ 1 < d) :
    driverSetDc ch d s = .raised (.duty d) s := by
  simp only [driverSetDc, blockAddr_ok h0 h1, encodeDuty_bad h, Run.ofExcept_ok, Run.andThen_done,
    Run.ofExcept_error, Run.andThen_raised]

theorem driverGetDc_ok {s : State} {ch : Int} {b : Block} (h0 : 0 ≤ ch) (h1 : ch ≤ 15)
    (hr : s.readsAs 0 (0x06 + 4 * ch.toNat) 4 b.toBytes) :
    driverGetDc ch s =
      .done (decodeBlock s.cfg.polarity b) (s.didRead [(0x06 + 4 * ch.toNat, b.toBytes)]) := by
  simp only [driverGetDc, blockAddr_ok h0 h1, Run.ofExcept_ok, Run.andThen_done, busRead_answered hr,
    State.afterRead_eq_didRead hr.1]
  rfl

theorem shapeOk_set {n : Int} {k : Nat} (h1 : 1 ≤ n) (h2 : (k : Int) = n) : shapeOk ⟨n, none, some k⟩ = true := by
  simp [shapeOk, h1, h2]

theorem driverSetRange_ok {s : State} {start n : Int} {ds : List Rat} (h1 : 1 ≤ n) (h2 : (ds.length : Int) = n)
    (h3 : 0 ≤ start) (h4 : start + n - 1 ≤ 15) (h5 : ∀ d ∈ ds, 0 ≤ d ∧ d ≤ 1) (ha : s.accepts 0) :
    driverSetRange start n ds s =
      .done .none
        (s.wrote [(0x06 + 4 * start.toNat, (ds.map fun d => (encodedBlock s.cfg d).toBytes).flatten)]) := by
  have hr : rangeOk start n = true := by simp [rangeOk, h3, h4]
  simp only [driverSetRange, shapeOk_set h1 h2, if_true, hr, encodeBurst_ok h5, Run.ofExcept_ok, Run.andThen_done,
    busWrite_accepted ha, State.afterWrite_eq_wrote]
  rfl

theorem driverSetRange_badRange {s : State} {start n : Int} {ds : List Rat} (h1 : 1 ≤ n)
    (h2 : (ds.length : Int) = n) (h : start < 0 ∨ 15 < start + n - 1) :
    driverSetRange start n ds s = .raised (.channelRange start n) s := by
  have hr : rangeOk start n = false := by simp [rangeOk]; omega
  simp [driverSetRange, shapeOk_set h1 h2, hr]

/-- Good elements of a list write, each with its own transaction (rule R78). -/
theorem driverSetEach_ok (es rest : List (Int × Rat)) (s : State)
    (h : ∀ e ∈ es, 0 ≤ e.1 ∧ e.1 ≤ 15 ∧ 0 ≤ e.2 ∧ e.2 ≤ 1) (ha : ∀ k, k < es.length → s.accepts k) :
    driverSetEach (es ++ rest) s =
      driverSetEach rest
        (s.wrote (es.map fun e => (0x06 + 4 * e.1.toNat, (encodedBlock s.cfg e.2).toBytes))) := by
  induction es generalizing s with
  | nil => simp [State.wrote_nil]
  | cons e es ih =>
    obtain ⟨a, b, c, d⟩ := h e (by simp)
    simp only [List.cons_append, driverSetEach, driverSetDc_ok a b c d (ha 0 (by simp)), Run.andThen_done]
    rw [ih _ (fun e he => h e (by simp [he])), State.wrote_wrote]
    · rfl
    · intro k hk
      have := ha (k + 1) (by simp; omega)
      rw [State.accepts_wrote]
      simpa [Nat.add_comm] using this

/-- A list read whose every element is answered (rule R79). -/
theorem driverGetEach_ok (chs : List Int) (blks : List Block) (s : State) (hl : blks.length = chs.length)
    (hc : ∀ ch ∈ chs, 0 ≤ ch ∧ ch ≤ 15)
    (hr : ∀ (k : Nat) (ch : Int) (b : Block), chs[k]? = some ch → blks[k]? = some b →
      s.readsAs k (0x06 + 4 * ch.toNat) 4 b.toBytes) :
    driverGetEach chs s =
      .done (blks.map (decodeBlock s.cfg.polarity))
        (s.didRead ((chs.zip blks).map fun e => (0x06 + 4 * e.1.toNat, e.2.toBytes))) := by
  induction chs generalizing blks s with
  | nil =>
    cases blks with
    | nil => simp [driverGetEach, State.didRead_nil]
    | cons b blks => simp at hl
  | cons ch chs ih =>
    cases blks with
    | nil => simp at hl
    | cons b blks =>
      obtain ⟨h0, h1⟩ := hc ch (by simp)
      simp only [driverGetEach, driverGetDc_ok h0 h1 (hr 0 ch b rfl rfl), Run.andThen_done]
      rw [ih blks _ (by simpa using hl) (fun c h => hc c (by simp [h]))]
      · simp only [Run.andThen_done, State.didRead_didRead]
        rfl
      · intro k c b' p1 p2
        have := hr (k + 1) c b' (by simpa using p1) (by simpa using p2)
        rw [State.readsAs_didRead]
        simpa [Nat.add_comm] using this

theorem driverGetDc_badChannel {s : State} {ch : Int} (h : ch < 0 ∨ 15 < ch) :
    driverGetDc ch s = .raised (.channel ch) s := by
  simp only [driverGetDc, blockAddr_bad h, Run.ofExcept_error, Run.andThen_raised]

theorem driverGetDc_failed {s : State} {ch : Int} {why : TransportInfo} (h0 : 0 ≤ ch) (h1 : ch ≤ 15)
    (h : (why = .opaque ∧ s.turnAt 0 = .answer .fail) ∨
      (why = .shortRead ∧ ∃ bs, s.turnAt 0 = .answer (.bytes bs) ∧ bs.length ≠ 4)) :
    driverGetDc ch s =
      .raised (.transport why s.trace.length) (s.afterFailedRead (0x06 + 4 * ch.toNat) 4) := by
  simp only [driverGetDc, blockAddr_ok h0 h1, Run.ofExcept_ok, Run.andThen_done, busRead_raised h, Run.andThen_raised]

/-- A list read stops where an element raises, with the elements before it read (rules R79, R180). -/
theorem driverGetEach_raised {ch : Int} {rest : List Int} {e : ErrorInfo} {t : State} (good : List (Int × Block))
    (s : State) (hc : ∀ g ∈ good, 0 ≤ g.1 ∧ g.1 ≤ 15)
    (hr : ∀ (k : Nat) (g : Int × Block), good[k]? = some g →
      s.readsAs k (0x06 + 4 * g.1.toNat) 4 g.2.toBytes)
    (h : driverGetDc ch (s.didRead (good.map fun g => (0x06 + 4 * g.1.toNat, g.2.toBytes))) = .raised e t) :
    driverGetEach (good.map Prod.fst ++ ch :: rest) s = .raised e t := by
  induction good generalizing s with
  | nil =>
    rw [List.map_nil, State.didRead_nil] at h
    simp only [List.map_nil, List.nil_append, driverGetEach, h, Run.andThen_raised]
  | cons g good ih =>
    obtain ⟨h0, h1⟩ := hc g (by simp)
    simp only [List.map_cons, List.cons_append, driverGetEach, driverGetDc_ok h0 h1 (hr 0 g rfl), Run.andThen_done]
    rw [ih _ (fun x hx => hc x (by simp [hx])) _ (by rw [State.didRead_didRead]; exact h), Run.andThen_raised]
    intro k x hx
    rw [State.readsAs_didRead]
    simpa [Nat.add_comm] using hr (k + 1) x (by simpa using hx)

/-! ### The Servo transform -/

theorem servoDuty_done {s : State} (u : Int) {v : Servo} {pos a b lo hi : Rat}
    (h1 : v.get (slopeField pos) = some a) (h2 : v.beta = some b) (h3 : v.minDuty = some lo)
    (h4 : v.maxDuty = some hi) : servoDuty u v pos s = .done (clamp (pos * a + b) lo hi) s := by
  simp [servoDuty, h1, h2, h3, h4]

/-- With a coefficient that the position needs unset, one that is unset is named (rules R13, R116). -/
theorem servoDuty_unset {s : State} (u : Int) {v : Servo} {pos : Rat}
    (h : v.get (slopeField pos) = none ∨ v.beta = none ∨ v.minDuty = none ∨ v.maxDuty = none) :
    ∃ f ∈ [slopeField pos, .beta, .minDuty, .maxDuty], v.get f = none ∧
      servoDuty u v pos s = .refused (.unset (.servo u.toNat f)) s := by
  unfold servoDuty
  cases h1 : v.get (slopeField pos) with
  | none => exact ⟨_, by simp, h1, rfl⟩
  | some a =>
  cases h2 : v.beta with
  | none => exact ⟨.beta, by simp, h2, rfl⟩
  | some b =>
  cases h3 : v.minDuty with
  | none => exact ⟨.minDuty, by simp, h3, rfl⟩
  | some lo =>
  cases h4 : v.maxDuty with
  | none => exact ⟨.maxDuty, by simp, h4, rfl⟩
  | some hi => simp [h1, h2, h3, h4] at h

theorem slopeField_pos {pos : Rat} (h : 0 < pos) : slopeField pos = .alpha0 := if_pos h

theorem slopeField_nonpos {pos : Rat} (h : pos ≤ 0) : slopeField pos = .alpha1 := if_neg (not_lt.mpr h)

end Sys2Proof.Machine
end

