-- ==== Sys2Proof/Laws/Words.lean ====
section
/-! SUPPORT. The bits of the byte formats: what each bit of a channel-block word and of a `MODE1` byte is, and that a
word is made of its fields. -/

namespace Sys2Proof

/-- The eight bits of a `MODE1` byte, one by one (rule R19). -/
theorem mode1Byte_bits : ∀ r e a s x y z c : Bool,
    (mode1Byte r e a s x y z c).getLsbD 7 = r ∧ (mode1Byte r e a s x y z c).getLsbD 6 = e ∧
    (mode1Byte r e a s x y z c).getLsbD 5 = a ∧ (mode1Byte r e a s x y z c).getLsbD 4 = s ∧
    (mode1Byte r e a s x y z c).getLsbD 3 = x ∧ (mode1Byte r e a s x y z c).getLsbD 2 = y ∧
    (mode1Byte r e a s x y z c).getLsbD 1 = z ∧ (mode1Byte r e a s x y z c).getLsbD 0 = c := by decide

/-- A byte is made of its eight `MODE1` bits (rule R19). -/
theorem mode1Byte_split (b : Byte) :
    mode1Byte (b.getLsbD 7) (b.getLsbD 6) (b.getLsbD 5) (b.getLsbD 4) (b.getLsbD 3) (b.getLsbD 2) (b.getLsbD 1)
      (b.getLsbD 0) = b := by
  apply BitVec.eq_of_getLsbD_eq
  intro i hi
  obtain ⟨h7, h6, h5, h4, h3, h2, h1, h0⟩ := mode1Byte_bits (b.getLsbD 7) (b.getLsbD 6) (b.getLsbD 5) (b.getLsbD 4)
    (b.getLsbD 3) (b.getLsbD 2) (b.getLsbD 1) (b.getLsbD 0)
  interval_cases i <;> assumption

variable (rHi : BitVec 3) (foff : Bool) (off : BitVec 12) (rLo : BitVec 3) (fon : Bool) (on : BitVec 12)

/-- Every bit of a channel-block word (rule R50). -/
theorem blockWord_bit (i : Nat) :
    (blockWord rHi foff off rLo fon on).getLsbD i =
      if i < 12 then on.getLsbD i
      else if i = 12 then fon
      else if i < 16 then rLo.getLsbD (i - 13)
      else if i < 28 then off.getLsbD (i - 16)
      else if i = 28 then foff
      else rHi.getLsbD (i - 29) := by
  have hb : ∀ (b : Bool) j, (BitVec.ofBool b).getLsbD j = (decide (j = 0) && b) := by
    intro b j; cases j <;> simp
  unfold blockWord
  simp only [BitVec.getLsbD_append, hb]
  by_cases h1 : i < 12
  · rw [if_pos h1, if_pos h1]
  rw [if_neg h1, if_neg h1]
  by_cases h2 : i = 12
  · subst h2; simp
  rw [if_neg h2, if_neg (by omega : ¬ i - 12 < 1)]
  by_cases h3 : i < 16
  · rw [if_pos h3, if_pos (by omega : i - 12 - 1 < 3)]; congr 1
  rw [if_neg h3, if_neg (by omega : ¬ i - 12 - 1 < 3)]
  by_cases h4 : i < 28
  · rw [if_pos h4, if_pos (by omega : i - 12 - 1 - 3 < 12)]; congr 1
  rw [if_neg h4, if_neg (by omega : ¬ i - 12 - 1 - 3 < 12)]
  by_cases h5 : i = 28
  · subst h5; simp
  rw [if_neg h5, if_neg (by omega : ¬ i - 12 - 1 - 3 - 12 < 1)]; congr 1

theorem blockWord_on : (blockWord rHi foff off rLo fon on).extractLsb' 0 12 = on := by
  apply BitVec.eq_of_getLsbD_eq
  intro i hi
  simp [blockWord_bit, hi]

theorem blockWord_off : (blockWord rHi foff off rLo fon on).extractLsb' 16 12 = off := by
  apply BitVec.eq_of_getLsbD_eq
  intro i hi
  have h1 : ¬ 16 + i < 12 := by omega
  have h2 : ¬ 16 + i = 12 := by omega
  have h3 : ¬ 16 + i < 16 := by omega
  have h4 : 16 + i < 28 := by omega
  simp [blockWord_bit, hi, h1, h2, h3, h4]

theorem blockWord_rLo : (blockWord rHi foff off rLo fon on).extractLsb' 13 3 = rLo := by
  apply BitVec.eq_of_getLsbD_eq
  intro i hi
  have h1 : ¬ 13 + i < 12 := by omega
  have h2 : ¬ 13 + i = 12 := by omega
  have h3 : 13 + i < 16 := by omega
  simp [blockWord_bit, hi, h1, h2, h3]

theorem blockWord_rHi : (blockWord rHi foff off rLo fon on).extractLsb' 29 3 = rHi := by
  apply BitVec.eq_of_getLsbD_eq
  intro i hi
  have h1 : ¬ 29 + i < 12 := by omega
  have h2 : ¬ 29 + i = 12 := by omega
  have h3 : ¬ 29 + i < 16 := by omega
  have h4 : ¬ 29 + i < 28 := by omega
  have h5 : ¬ 29 + i = 28 := by omega
  simp [blockWord_bit, hi, h1, h2, h3, h4, h5]

theorem blockWord_foff : (blockWord rHi foff off rLo fon on).getLsbD 28 = foff := by
  rw [blockWord_bit]; rfl

theorem blockWord_fon : (blockWord rHi foff off rLo fon on).getLsbD 12 = fon := by
  rw [blockWord_bit]; rfl

/-- A channel-block word is made of its six fields (rule R50). -/
theorem blockWord_split (w : BitVec 32) :
    blockWord (w.extractLsb' 29 3) (w.getLsbD 28) (w.extractLsb' 16 12) (w.extractLsb' 13 3) (w.getLsbD 12)
      (w.extractLsb' 0 12) = w := by
  apply BitVec.eq_of_getLsbD_eq
  intro i hi
  rw [blockWord_bit]
  simp only [BitVec.getLsbD_extractLsb']
  split
  · simp [*]
  split
  · simp [*]
  split
  · have : i - 13 < 3 := by omega
    have : 13 + (i - 13) = i := by omega
    simp [*]
  split
  · have : i - 16 < 12 := by omega
    have : 16 + (i - 16) = i := by omega
    simp [*]
  split
  · simp [*]
  · have : i - 29 < 3 := by omega
    have : 29 + (i - 29) = i := by omega
    simp [*]

end Sys2Proof
end

