-- ==== Sys2Proof/Laws/PerInstr.lean ====
section
/-! SUPPORT. A family of statements about every instruction as syntax, one lemma per constructor: the word an
instruction is encoded to has the length and the fixed bits of its row of spec/opcode_table.json. -/

namespace Sys2Proof.Laws.EncodesInItsRow

/-- A row of spec/opcode_table.json: how many bits, which of them are fixed, and their values. -/
structure TableRow where
  nbits : Nat
  mask  : BitVec 32
  value : BitVec 32
deriving DecidableEq, Repr

/-- The row of an instruction, copied from the "encoding" column of the table. -/
def rowOf : Instr → TableRow
  | .enc _ => ⟨8, 0xFF#32, 0x00#32⟩
  | .dec _ => ⟨8, 0xFF#32, 0x01#32⟩
  | .setfreq _ => ⟨8, 0xFF#32, 0x02#32⟩
  | .getfreq => ⟨8, 0xFF#32, 0x03#32⟩
  | .setdc _ _ => ⟨8, 0xFF#32, 0x04#32⟩
  | .getdc _ => ⟨8, 0xFF#32, 0x05#32⟩
  | .setrange _ _ _ => ⟨8, 0xFF#32, 0x06#32⟩
  | .getrange _ _ => ⟨8, 0xFF#32, 0x07#32⟩
  | .setlist _ _ _ => ⟨8, 0xFF#32, 0x08#32⟩
  | .getlist _ _ => ⟨8, 0xFF#32, 0x09#32⟩
  | .mlegs _ _ => ⟨8, 0xFF#32, 0x10#32⟩
  | .mset _ _ => ⟨8, 0xFF#32, 0x11#32⟩
  | .mwr _ _ _ => ⟨8, 0xFF#32, 0x12#32⟩
  | .mrd _ _ => ⟨8, 0xFF#32, 0x13#32⟩
  | .sconfig _ _ _ _ => ⟨8, 0xFF#32, 0x20#32⟩
  | .sduty _ _ => ⟨8, 0xFF#32, 0x21#32⟩
  | .sset _ _ => ⟨8, 0xFF#32, 0x22#32⟩
  | .srev _ => ⟨8, 0xFF#32, 0x23#32⟩
  | .swr _ _ _ => ⟨8, 0xFF#32, 0x24#32⟩
  | .srd _ _ => ⟨8, 0xFF#32, 0x25#32⟩
  | .calload _ => ⟨8, 0xFF#32, 0x30#32⟩
  | .calsave => ⟨8, 0xFF#32, 0x31#32⟩
  | .blkEncLinear _ => ⟨32, 0xF000FFFF#32, 0x00000000#32⟩
  | .blkEncFullOn => ⟨32, 0xFFFFFFFF#32, 0x0FFF0000#32⟩
  | .blkEncFullOffDoc => ⟨32, 0xFFFFFFFF#32, 0x00001000#32⟩
  | .blkEncFullOffNative => ⟨32, 0xFFFFFFFF#32, 0x10000000#32⟩
  | .blkDecFoff _ _ _ _ _ => ⟨32, 0x10000000#32, 0x10000000#32⟩
  | .blkDecFon _ _ _ _ => ⟨32, 0x10001000#32, 0x00001000#32⟩
  | .blkDecLinear _ _ _ _ => ⟨32, 0x10001000#32, 0x00000000#32⟩
  | .setfreqW1 _ _ _ _ _ _ => ⟨8, 0x90#32, 0x10#32⟩
  | .setfreqW3 _ _ _ _ _ _ _ _ => ⟨8, 0x00#32, 0x00#32⟩
  | .setfreqW4 _ _ _ _ _ _ _ => ⟨8, 0x20#32, 0x20#32⟩
  | .setfreqW2 _ => ⟨8, 0x00#32, 0x00#32⟩

/-- The length and the bits of what stands at the host port. -/
def bitsOf : Presented → Nat × BitVec 32
  | .command op _ => (8, op.setWidth 32)
  | .encodeOut w => (32, w)
  | .decodeIn w => (32, w)
  | .setfreqByte _ b => (8, b.setWidth 32)

/-- The encoded word has its row's length and its row's fixed bits. -/
def Statement (i : Instr) : Prop :=
  (bitsOf (encode i)).1 = (rowOf i).nbits ∧ (bitsOf (encode i)).2 &&& (rowOf i).mask = (rowOf i).value

/-- A command's word is its opcode byte. -/
theorem command_row {i : Instr} {op : Byte} {ports : Ports} (h : encode i = .command op ports)
    (hr : rowOf i = ⟨8, 0xFF#32, op.setWidth 32⟩) : Statement i := by
  have low : ∀ b : Byte, b.setWidth 32 &&& 0xFF#32 = b.setWidth 32 := by decide
  rw [Statement, h, hr]
  exact ⟨rfl, low op⟩

/-- The two flag bits of a word under a decoder row's mask. -/
theorem flags_and (rHi : BitVec 3) (foff : Bool) (off : BitVec 12) (rLo : BitVec 3) (fon : Bool) (on : BitVec 12) :
    blockWord rHi foff off rLo fon on &&& 0x10001000#32 = blockWord 0 foff 0 0 fon 0 := by
  have hm : ∀ i, i < 32 → (0x10001000#32).getLsbD i = decide (i = 12 ∨ i = 28) := by decide
  apply BitVec.eq_of_getLsbD_eq
  intro i hi
  rw [BitVec.getLsbD_and, hm i hi, blockWord_bit, blockWord_bit]
  by_cases h : i = 12 ∨ i = 28
  · rcases h with rfl | rfl <;> simp
  · have h1 : ¬ i = 12 := fun e => h (.inl e)
    have h2 : ¬ i = 28 := fun e => h (.inr e)
    simp [h1, h2]

theorem enc (a : Rat) : Statement (.enc a) := command_row rfl rfl

theorem dec (a : Block) : Statement (.dec a) := command_row rfl rfl

theorem setfreq (a : Int) : Statement (.setfreq a) := command_row rfl rfl

theorem getfreq : Statement (.getfreq) := command_row rfl rfl

theorem setdc (a : Int) (b : Rat) : Statement (.setdc a b) := command_row rfl rfl

theorem getdc (a : Int) : Statement (.getdc a) := command_row rfl rfl

theorem setrange (a b : Int) (c : List Rat) : Statement (.setrange a b c) := command_row rfl rfl

theorem getrange (a b : Int) : Statement (.getrange a b) := command_row rfl rfl

theorem setlist (a : Int) (b : List Int) (c : List Rat) : Statement (.setlist a b c) := command_row rfl rfl

theorem getlist (a : Int) (b : List Int) : Statement (.getlist a b) := command_row rfl rfl

theorem mlegs (a : Int) (b : Rat) : Statement (.mlegs a b) := command_row rfl rfl

theorem mset (a : Int) (b : Rat) : Statement (.mset a b) := command_row rfl rfl

theorem mwr (a b : Int) (c : Rat) : Statement (.mwr a b c) := command_row rfl rfl

theorem mrd (a b : Int) : Statement (.mrd a b) := command_row rfl rfl

theorem sconfig (a : Int) (b c d : Rat) : Statement (.sconfig a b c d) := command_row rfl rfl

theorem sduty (a : Int) (b : Rat) : Statement (.sduty a b) := command_row rfl rfl

theorem sset (a : Int) (b : Rat) : Statement (.sset a b) := command_row rfl rfl

theorem srev (a : Int) : Statement (.srev a) := command_row rfl rfl

theorem swr (a b : Int) (c : Rat) : Statement (.swr a b c) := command_row rfl rfl

theorem srd (a b : Int) : Statement (.srd a b) := command_row rfl rfl

theorem calload (a : CalDoc) : Statement (.calload a) := command_row rfl rfl

theorem calsave : Statement (.calsave) := command_row rfl rfl

theorem blkEncLinear (n : BitVec 12) : Statement (.blkEncLinear n) := by
  refine ⟨rfl, ?_⟩
  have hm : ∀ i, i < 32 → (0xF000FFFF#32).getLsbD i = decide (i < 16 ∨ 28 ≤ i) := by decide
  apply BitVec.eq_of_getLsbD_eq
  intro i hi
  simp only [encode, bitsOf, rowOf]
  rw [BitVec.getLsbD_and, hm i hi, blockWord_bit]
  split
  · simp
  split
  · simp
  split
  · simp
  split
  · have : ¬ (i < 16 ∨ 28 ≤ i) := by omega
    simp [this]
  split <;> simp

theorem blkEncFullOn : Statement (.blkEncFullOn) := ⟨rfl, by decide⟩

theorem blkEncFullOffDoc : Statement (.blkEncFullOffDoc) := ⟨rfl, by decide⟩

theorem blkEncFullOffNative : Statement (.blkEncFullOffNative) := ⟨rfl, by decide⟩

theorem blkDecFoff (a : BitVec 3) (b : BitVec 12) (c : BitVec 3) (d : Bool) (e : BitVec 12) :
    Statement (.blkDecFoff a b c d e) := by
  refine ⟨rfl, ?_⟩
  have h := flags_and a true b c d e
  have k : blockWord 0 true 0 0 d 0 &&& 0x10000000#32 = 0x10000000#32 := by cases d <;> decide
  have m : (0x10001000#32 &&& 0x10000000#32 : BitVec 32) = 0x10000000#32 := by decide
  rw [← h, BitVec.and_assoc, m] at k
  exact k

theorem blkDecFon (a : BitVec 3) (b : BitVec 12) (c : BitVec 3) (d : BitVec 12) :
    Statement (.blkDecFon a b c d) :=
  ⟨rfl, (flags_and a false b c true d).trans (by decide : blockWord 0 false 0 0 true 0 = 0x00001000#32)⟩

theorem blkDecLinear (a : BitVec 3) (b : BitVec 12) (c : BitVec 3) (d : BitVec 12) :
    Statement (.blkDecLinear a b c d) :=
  ⟨rfl, (flags_and a false b c false d).trans (by decide : blockWord 0 false 0 0 false 0 = 0x00000000#32)⟩

theorem setfreqW1 (a b c d e f : Bool) : Statement (.setfreqW1 a b c d e f) := by
  refine ⟨rfl, ?_⟩
  revert a b c d e f
  decide

theorem setfreqW3 (a b c d e f g h : Bool) : Statement (.setfreqW3 a b c d e f g h) := ⟨rfl, BitVec.and_zero⟩

theorem setfreqW4 (a b c d e f g : Bool) : Statement (.setfreqW4 a b c d e f g) := by
  refine ⟨rfl, ?_⟩
  revert a b c d e f g
  decide

theorem setfreqW2 (a : Byte) : Statement (.setfreqW2 a) := ⟨rfl, BitVec.and_zero⟩

end Sys2Proof.Laws.EncodesInItsRow
end

