-- ==== Sys2Proof/Laws/Store.lean ====
section
/-! SUPPORT. Calibration documents: what a key gives after `doc[k] = v`, and what loading and saving answer. -/

namespace Sys2Proof.Machine

/-! ### Documents -/

theorem docLookup_docPut {α : Type} (m : List (String × α)) (k j : String) (v : α) :
    docLookup (docPut m k v) j = if k = j then some v else docLookup m j := by
  induction m with
  | nil => simp [docPut, docLookup]
  | cons c m ih =>
    obtain ⟨a, b⟩ := c
    by_cases h : a = k
    · subst h
      by_cases h2 : a = j <;> simp [docPut, docLookup, h2]
    · by_cases h2 : a = j
      · subst h2; simp [docPut, docLookup, h, Ne.symm h]
      · simp [docPut, docLookup, h, h2, ih]

theorem docPut_keys {α : Type} (m : List (String × α)) (k : String) (v : α) (h : k ∉ m.map Prod.fst) :
    (docPut m k v).map Prod.fst = m.map Prod.fst ++ [k] := by
  induction m with
  | nil => rfl
  | cons c m ih =>
    obtain ⟨a, b⟩ := c
    simp only [List.map_cons, List.mem_cons, not_or] at h
    have hne : ¬ a = k := fun e => h.1 e.symm
    simp [docPut, hne, ih h.2]

/-! ### Loading -/

theorem needField_ok {unit : String} {fs : DocFields} {f : String} (h : docLookup fs f ≠ none) :
    ∃ x, needField unit fs f = .ok x := by
  unfold needField
  cases h' : docLookup fs f <;> simp_all

theorem needField_missing {unit : String} {fs : DocFields} {f : String} (h : docLookup fs f = none) :
    needField unit fs f = .error (.docMissingField unit f) := by
  simp [needField, h]

theorem loadUnits_ok {α : Type} {load : α → Except ErrorInfo α} (xs ys : List α) (h : ys.length = xs.length)
    (hk : ∀ (k : Nat) x y, xs[k]? = some x → ys[k]? = some y → load x = .ok y) : loadUnits load xs = .ok ys := by
  induction xs generalizing ys with
  | nil =>
    cases ys with
    | nil => rfl
    | cons y ys => simp at h
  | cons x xs ih =>
    cases ys with
    | nil => simp at h
    | cons y ys =>
      have := ih ys (by simpa using h) (fun k a b h1 h2 => hk (k + 1) a b (by simpa using h1) (by simpa using h2))
      simp [loadUnits, hk 0 x y rfl rfl, this, bind, Except.bind, pure, Except.pure]

theorem loadUnits_total {α : Type} {load : α → Except ErrorInfo α} (xs : List α)
    (h : ∀ g ∈ xs, ∃ y, load g = .ok y) : ∃ ys, loadUnits load xs = .ok ys := by
  induction xs with
  | nil => exact ⟨[], rfl⟩
  | cons x xs ih =>
    obtain ⟨y, hy⟩ := h x (by simp)
    obtain ⟨ys, hys⟩ := ih fun g hg => h g (by simp [hg])
    simp [loadUnits, hy, hys, bind, Except.bind, pure, Except.pure]

theorem loadUnits_fails {α : Type} {load : α → Except ErrorInfo α} {e : ErrorInfo} (good : List α) (x : α)
    (rest : List α) (hg : ∀ g ∈ good, ∃ y, load g = .ok y) (h : load x = .error e) :
    loadUnits load (good ++ x :: rest) = .error e := by
  induction good with
  | nil => simp [loadUnits, h, bind, Except.bind]
  | cons g good ih =>
    obtain ⟨y, hy⟩ := hg g (by simp)
    simp [loadUnits, hy, ih fun g h => hg g (by simp [h]), bind, Except.bind]

/-! ### Saving -/

/-- What the Motor units put into a document (rule R136). -/
theorem saveMotors_spec (ms : List Motor) (doc : DocMap) (hn : (doc.map Prod.fst ++ ms.map (·.name)).Nodup) :
    (saveMotors ms doc).map Prod.fst = doc.map Prod.fst ++ ms.map (·.name) ∧
    (∀ m ∈ ms, docLookup (saveMotors ms doc) m.name = some [("alpha", m.alpha), ("beta", m.beta)]) ∧
    (∀ k, k ∉ ms.map (·.name) → docLookup (saveMotors ms doc) k = docLookup doc k) := by
  induction ms generalizing doc with
  | nil => simp [saveMotors]
  | cons m ms ih =>
    have hk : m.name ∉ doc.map Prod.fst := fun h => (List.nodup_append.mp hn).2.2 _ h m.name (by simp) rfl
    have hkeys := docPut_keys doc m.name [("alpha", m.alpha), ("beta", m.beta)] hk
    obtain ⟨a, b, c⟩ := ih (docPut doc m.name [("alpha", m.alpha), ("beta", m.beta)])
      (by rw [hkeys]; simpa using hn)
    refine ⟨by rw [saveMotors, a, hkeys]; simp, ?_, ?_⟩
    · intro x hx
      rcases List.mem_cons.mp hx with rfl | hx
      · have hd := (List.nodup_append.mp hn).2.1
        simp only [List.map_cons, List.nodup_cons] at hd
        rw [saveMotors, c _ hd.1, docLookup_docPut, if_pos rfl]
      · exact b x hx
    · intro k hk'
      simp only [List.map_cons, List.mem_cons, not_or] at hk'
      rw [saveMotors, c k hk'.2, docLookup_docPut, if_neg fun h => hk'.1 h.symm]

theorem Servo.cal?_ok {v : Servo} {c : ServoCal} (h : v.cal? = .ok c) :
    v.alpha0 = some c.alpha0 ∧ v.alpha1 = some c.alpha1 ∧ v.beta = some c.beta ∧ v.minDuty = some c.minDuty ∧
      v.maxDuty = some c.maxDuty := by
  unfold Servo.cal? at h
  split at h <;> cases h
  simp_all

theorem Servo.cal?_total {v : Servo}
    (h : v.alpha0 ≠ none ∧ v.alpha1 ≠ none ∧ v.beta ≠ none ∧ v.minDuty ≠ none ∧ v.maxDuty ≠ none) :
    ∃ c, v.cal? = .ok c := by
  unfold Servo.cal?
  split <;> simp_all

/-- The field `cal?` names is unset (rule R13). -/
theorem Servo.cal?_error {v : Servo} {f : ServoField} (h : v.cal? = .error f) : v.get f = none := by
  unfold Servo.cal? at h
  split at h <;> cases h <;> assumption

theorem Servo.cal?_unset {v : Servo}
    (h : v.alpha0 = none ∨ v.alpha1 = none ∨ v.beta = none ∨ v.minDuty = none ∨ v.maxDuty = none) :
    ∃ f, v.cal? = .error f := by
  unfold Servo.cal?
  split <;> simp_all

theorem saveServos_total (vs : List Servo) (u : Nat) (doc : DocMap) (h : ∀ v ∈ vs, ∃ c, v.cal? = .ok c) :
    ∃ d, saveServos u vs doc = .ok d := by
  induction vs generalizing u doc with
  | nil => exact ⟨doc, rfl⟩
  | cons v vs ih =>
    obtain ⟨c, hc⟩ := h v (by simp)
    simp only [saveServos, hc]
    exact ih _ _ fun v hv => h v (by simp [hv])

/-- Saving a unit with an unset coefficient names an unset register of a unit of the list (rules R13, R136). -/
theorem saveServos_unset (vs : List Servo) (u : Nat) (doc : DocMap) (h : ∃ v ∈ vs, ∃ f, v.cal? = .error f) :
    ∃ (k : Nat) (v : Servo) (f : ServoField), vs[k]? = some v ∧ v.get f = none ∧
      saveServos u vs doc = .error (.servo (u + k) f) := by
  induction vs generalizing u doc with
  | nil => simp at h
  | cons v vs ih =>
    cases hc : v.cal? with
    | error f => exact ⟨0, v, f, rfl, Servo.cal?_error hc, by simp [saveServos, hc]⟩
    | ok c =>
      obtain ⟨w, hw, f, hf⟩ := h
      have hw' : w ∈ vs := by
        rcases List.mem_cons.mp hw with rfl | hw
        · rw [hc] at hf; cases hf
        · exact hw
      obtain ⟨k, x, g, hk, hx, he⟩ := ih (u + 1) (docPut doc v.name (servoFields c)) ⟨w, hw', f, hf⟩
      refine ⟨k + 1, x, g, by simpa using hk, hx, ?_⟩
      simp only [saveServos, hc, he, Nat.add_assoc, Nat.add_comm 1 k]

/-- What the Servo units put into a document (rule R136). -/
theorem saveServos_spec (vs : List Servo) (u : Nat) (doc d : DocMap)
    (hn : (doc.map Prod.fst ++ vs.map (·.name)).Nodup) (hd : saveServos u vs doc = .ok d) :
    d.map Prod.fst = doc.map Prod.fst ++ vs.map (·.name) ∧
    (∀ v ∈ vs, ∃ c, v.cal? = .ok c ∧ docLookup d v.name = some (servoFields c)) ∧
    (∀ k, k ∉ vs.map (·.name) → docLookup d k = docLookup doc k) := by
  induction vs generalizing u doc with
  | nil => simp [saveServos] at hd; simp [hd]
  | cons m ms ih =>
    simp only [saveServos] at hd
    split at hd
    · cases hd
    rename_i c hc
    have hk : m.name ∉ doc.map Prod.fst := fun h => (List.nodup_append.mp hn).2.2 _ h m.name (by simp) rfl
    have hkeys := docPut_keys doc m.name (servoFields c) hk
    obtain ⟨a, b, e⟩ := ih (u + 1) (docPut doc m.name (servoFields c)) (by rw [hkeys]; simpa using hn) hd
    refine ⟨by rw [a, hkeys]; simp, ?_, ?_⟩
    · intro x hx
      rcases List.mem_cons.mp hx with rfl | hx
      · have hd' := (List.nodup_append.mp hn).2.1
        simp only [List.map_cons, List.nodup_cons] at hd'
        exact ⟨c, hc, by rw [e _ hd'.1, docLookup_docPut, if_pos rfl]⟩
      · exact b x hx
    · intro k hk'
      simp only [List.map_cons, List.mem_cons, not_or] at hk'
      rw [e k hk'.2, docLookup_docPut, if_neg fun h => hk'.1 h.symm]

end Sys2Proof.Machine
end

