-- ==== Sys2Proof/Tests/Slice0.lean ====
section
/-! SUPPORT. Tests: the well-formedness smoke, every constructor decoded from words written out from the table, single
steps with the results of 95_test_vectors.md, and for every statement that has hypotheses a witness that meets them. -/

namespace Sys2Proof.Tests

open Sys2Proof Sys2Proof.Machine

/- One theorem at a time: each `decide +kernel` waits for the kernel, and many of them waiting at once ask for more
threads than the check's memory limit allows. -/
set_option Elab.async false

/-! ### Small states -/

/-- Two Motor units, one on contiguous channels and one split, as in programs P2 and P5; one Servo unit with the
coefficients of the R115 example on channel 4, one unset. -/
def cfg : Config where
  refClock := 25000000
  deviceAddr := 5
  roundTie := .halfEven
  polarity := .doc
  motors := [⟨"left_motor", 0, 1, 1, 0⟩, ⟨"right_motor", 0, 2, -1, 0⟩]
  servos := [⟨"servo", 4, some ⟨9/200, 3/100, 3/40, 9/200, 3/25⟩⟩, ⟨"motor", 5, none⟩]

/-- After reset under the reference register file with `MODE1` holding 0 (rule R45), as the programs start. -/
def start : State := { State.resetWith cfg with busMode := .reference, chip := [(0, 0#8)] }

/-- The same with 50 Hz recorded. -/
def at50 : State := { start with freq := some 50 }

/-- The same after an `AddressingError` (P4). -/
def latched : State := { start with latch := some (.error (.channel 16)) }

/-- The next transaction fails. -/
def failing : State := { start with turns := [.answer .fail] }

/-- Only Motor units, bound to bad channels. -/
def badChannels : State :=
  { start with motors := [⟨"m", 15, 16, 1, 0, none⟩, ⟨"n", 0, 16, 1, 0, none⟩, ⟨"o", 16, 0, 1, 0, none⟩,
                          ⟨"p", 14, 15, 1, 0, none⟩, ⟨"q", -1, 0, 1, 0, none⟩, ⟨"r", 15, 15, 1, 0, none⟩] }

/-- One Servo unit, on channel 16. -/
def badServo : State := { start with servos := [⟨"s", 16, some 0, some 0, some 0, some 0, some 0⟩] }

/-- Everything set: one Motor unit, one Servo unit. -/
def oneEach : State :=
  { start with motors := [⟨"left_motor", 0, 1, 1, 0, none⟩],
               servos := [⟨"servo", 4, some (9/200), some (3/100), some (3/40), some (9/200), some (3/25)⟩] }

/-- What an instruction answers. -/
def resp (i : Instr) (s : State) : Option Response :=
  match exec i s with
  | .next t => t.resp
  | .fault _ => none
  | .refused _ => none

/-- What an instruction adds to the trace, without the device address. -/
def wrote (i : Instr) (s : State) : List (Nat × List Byte) :=
  match exec i s with
  | .next t => (t.trace.drop s.trace.length).filterMap fun x =>
      match x with
      | .write _ reg bs => some (reg, bs)
      | .read _ _ _ _ => none
      | .writeFailed _ _ _ => none
      | .readFailed _ _ _ => none
  | .fault _ => []
  | .refused _ => []

/-- A field of the state after an instruction. -/
def after {α : Type} (f : State → α) (i : Instr) (s : State) : Option α :=
  match exec i s with
  | .next t => some (f t)
  | .fault _ => none
  | .refused _ => none

/-! ### Well-formedness -/

theorem test_duplicate_unit_refused :
    wellFormed (.calload (.map [("a", []), ("a", [])])) = false := by decide

theorem test_duplicate_field_refused :
    wellFormed (.calload (.map [("a", [("alpha", 1), ("alpha", 2)])])) = false := by decide

theorem test_map_accepted :
    wellFormed (.calload (.map [("a", [("alpha", 1), ("beta", 2)]), ("b", [])])) = true := by decide

theorem test_linear_zero_refused : wellFormed (.blkEncLinear 0#12) = false := by decide

theorem test_linear_one_accepted : wellFormed (.blkEncLinear 1#12) = true := by decide

/-! ### Decoding: words written out bit by bit from the table -/

/-- Operands on every port. -/
def ports : Ports := ⟨3, 2, 1/2, 1/4, 3/4, [4, 5], [1, 0], ⟨1#8, 2#8, 3#8, 4#8⟩, .malformed⟩

theorem test_decode_driver :
    decode (.command 0b00000000#8 ports) = .ok (.enc (1/2)) ∧
    decode (.command 0b00000001#8 ports) = .ok (.dec ⟨1#8, 2#8, 3#8, 4#8⟩) ∧
    decode (.command 0b00000010#8 ports) = .ok (.setfreq 3) ∧
    decode (.command 0b00000011#8 ports) = .ok .getfreq ∧
    decode (.command 0b00000100#8 ports) = .ok (.setdc 3 (1/2)) ∧
    decode (.command 0b00000101#8 ports) = .ok (.getdc 3) ∧
    decode (.command 0b00000110#8 ports) = .ok (.setrange 3 2 [1, 0]) ∧
    decode (.command 0b00000111#8 ports) = .ok (.getrange 3 2) ∧
    decode (.command 0b00001000#8 ports) = .ok (.setlist 3 [4, 5] [1, 0]) ∧
    decode (.command 0b00001001#8 ports) = .ok (.getlist 3 [4, 5]) :=
  ⟨rfl, rfl, rfl, rfl, rfl, rfl, rfl, rfl, rfl, rfl⟩

theorem test_decode_motor :
    decode (.command 0b00010000#8 ports) = .ok (.mlegs 3 (1/2)) ∧
    decode (.command 0b00010001#8 ports) = .ok (.mset 3 (1/2)) ∧
    decode (.command 0b00010010#8 ports) = .ok (.mwr 3 2 (1/2)) ∧
    decode (.command 0b00010011#8 ports) = .ok (.mrd 3 2) := ⟨rfl, rfl, rfl, rfl⟩

theorem test_decode_servo :
    decode (.command 0b00100000#8 ports) = .ok (.sconfig 3 (1/2) (1/4) (3/4)) ∧
    decode (.command 0b00100001#8 ports) = .ok (.sduty 3 (1/2)) ∧
    decode (.command 0b00100010#8 ports) = .ok (.sset 3 (1/2)) ∧
    decode (.command 0b00100011#8 ports) = .ok (.srev 3) ∧
    decode (.command 0b00100100#8 ports) = .ok (.swr 3 2 (1/2)) ∧
    decode (.command 0b00100101#8 ports) = .ok (.srd 3 2) := ⟨rfl, rfl, rfl, rfl, rfl, rfl⟩

theorem test_decode_store :
    decode (.command 0b00110000#8 ports) = .ok (.calload .malformed) ∧
    decode (.command 0b00110001#8 ports) = .ok .calsave := ⟨rfl, rfl⟩

theorem test_decode_duplicate_key :
    decode (.command 0x30 { ports with doc := .map [("a", []), ("a", [])] }) = .error .notAMap := by decide

/-- `0000nnnnnnnnnnnn0000000000000000` and the three whole words. -/
theorem test_decode_encoder_rows :
    decode (.encodeOut 0b00000000000000010000000000000000#32) = .ok (.blkEncLinear 1#12) ∧
    decode (.encodeOut 0b00001000000000010000000000000000#32) = .ok (.blkEncLinear 2049#12) ∧
    decode (.encodeOut 0b00001111111111110000000000000000#32) = .ok .blkEncFullOn ∧
    decode (.encodeOut 0b00000000000000000001000000000000#32) = .ok .blkEncFullOffDoc ∧
    decode (.encodeOut 0b00010000000000000000000000000000#32) = .ok .blkEncFullOffNative ∧
    decode (.encodeOut 0b00001000000000000000000000000001#32) = .error .notARow := by decide

/-- `rrr1ffffffffffffrrrNnnnnnnnnnnnn`, `rrr0ffffffffffffrrr1nnnnnnnnnnnn`, `rrr0ffffffffffffrrr0nnnnnnnnnnnn`. -/
theorem test_decode_decoder_rows :
    decode (.decodeIn 0b10110000000000110110000000000101#32) = .ok (.blkDecFoff 5#3 3#12 3#3 false 5#12) ∧
    decode (.decodeIn 0b10100000000000110111000000000101#32) = .ok (.blkDecFon 5#3 3#12 3#3 5#12) ∧
    decode (.decodeIn 0b10100000000000110110000000000101#32) = .ok (.blkDecLinear 5#3 3#12 3#3 5#12) := by decide

/-- `0EA1xyzc`, `pppppppp`, `REASxyzc`, `RE1Sxyzc`. -/
theorem test_decode_setfreq_rows :
    decode (.setfreqByte .w1 0b01011010#8) = .ok (.setfreqW1 true false true false true false) ∧
    decode (.setfreqByte .w1 0b11011010#8) = .error .notARow ∧
    decode (.setfreqByte .w2 0b01111010#8) = .ok (.setfreqW2 122#8) ∧
    decode (.setfreqByte .w3 0b10010110#8) = .ok (.setfreqW3 true false false true false true true false) ∧
    decode (.setfreqByte .w4 0b10110110#8) = .ok (.setfreqW4 true false true false true true false) ∧
    decode (.setfreqByte .w4 0b10010110#8) = .error .notARow := by decide

theorem test_decode_reserved :
    decode (.command 0x0A ports) = .error .reservedOpcode ∧ decode (.command 0x32 ports) = .error .reservedOpcode ∧
    decode (.command 0xFF ports) = .error .reservedOpcode := by decide

theorem test_table_words :
    decodeTableWord 8 0x31 = some .calsave ∧ decodeTableWord 32 0x0FFF0000 = some .blkEncFullOn ∧
    decodeTableWord 32 0x10000001 = some (.blkDecFoff 0#3 0#12 0#3 false 1#12) ∧ decodeTableWord 8 0x0A = none := by
  decide

/-! ### Numbers (95_test_vectors.md section 2.1) -/

theorem test_round_ties :
    (roundT .halfEven (1/2), roundT .halfAway (1/2), roundT .halfUp (1/2)) = (0, 1, 1) ∧
    (roundT .halfEven (3/2), roundT .halfAway (3/2), roundT .halfUp (3/2)) = (2, 2, 2) ∧
    (roundT .halfEven (-1/2), roundT .halfAway (-1/2), roundT .halfUp (-1/2)) = (0, -1, 0) ∧
    (roundT .halfEven (-3/2), roundT .halfAway (-3/2), roundT .halfUp (-3/2)) = (-2, -2, -1) ∧
    (roundT .halfEven (7/4), roundT .halfAway (1/3), roundT .halfUp (8191/2)) = (2, 0, 4096) := by decide +kernel

theorem test_clamp_crossed :
    clamp (1/2) (3/4) (1/4) = 3/4 ∧ clamp 1 (3/4) (1/4) = 1/4 ∧ clamp (3/4) (3/4) (1/4) = 1/4 ∧
    clamp (-3/2) (-1) 1 = -1 := by decide +kernel

/-! ### Single steps: driver (sections 2.2 to 2.5) -/

theorem test_enc_third : resp (.enc (1/3)) start = some (.ok (.block ⟨0x00#8, 0x00#8, 0x55#8, 0x05#8⟩)) := by
  decide +kernel

theorem test_enc_full_on : resp (.enc (9999/10000)) start = some (.ok (.block ⟨0x00#8, 0x00#8, 0xFF#8, 0x0F#8⟩)) := by
  decide +kernel

theorem test_dec_negative : resp (.dec ⟨0x00#8, 0x08#8, 0x00#8, 0x04#8⟩) start = some (.ok (.num (-1/4))) := by
  decide +kernel

theorem test_dec_both_flags : resp (.dec ⟨0x00#8, 0x10#8, 0x00#8, 0x10#8⟩) start = some (.ok (.num 1)) := by
  decide +kernel

theorem test_setfreq_trace :
    wrote (.setfreq 1600) { start with chip := [(0, 0xA1#8)] } =
      [(0x00, [0x31#8]), (0xFE, [0x04#8]), (0x00, [0xA1#8]), (0x00, [0xA1#8])] := by decide +kernel

theorem test_setfreq_too_slow : resp (.setfreq 23) start = some (.error (.prescale 265)) := by decide +kernel

theorem test_getfreq_unset : resp .getfreq start = some (.refused (.unset .drvFreq)) := by decide +kernel

theorem test_getfreq : resp .getfreq at50 = some (.ok (.int 50)) := by decide +kernel

theorem test_setdc_15 : wrote (.setdc 15 1) start = [(0x42, [0x00#8, 0x00#8, 0xFF#8, 0x0F#8])] := by decide +kernel

theorem test_setdc_channel_first : resp (.setdc 16 2) start = some (.error (.channel 16)) := by decide +kernel

theorem test_getdc_3 :
    resp (.getdc 3) { start with chip := [(0x12, 0#8), (0x13, 0#8), (0x14, 0xFF#8), (0x15, 0x0F#8)] } =
      some (.ok (.num (4095/4096))) := by decide +kernel

theorem test_getdc_short :
    resp (.getdc 3) { start with turns := [.answer (.bytes [0#8, 0#8, 0#8])] } =
      some (.error (.transport .shortRead 0)) := by decide +kernel

theorem test_setrange_burst :
    wrote (.setrange 14 2 [1/4, 3/4]) start =
      [(0x3E, [0x00#8, 0x00#8, 0x00#8, 0x04#8, 0x00#8, 0x00#8, 0x00#8, 0x0C#8])] := by decide +kernel

theorem test_setrange_past_15 : resp (.setrange 15 2 [0, 0]) start = some (.error (.channelRange 15 2)) := by
  decide +kernel

theorem test_getrange :
    resp (.getrange 0 2) { start with turns := [.answer (.bytes [0#8, 0x10#8, 0#8, 0#8, 0#8, 0#8, 0#8, 0x08#8])] } =
      some (.ok (.nums [0, 1/2])) := by decide +kernel

theorem test_getrange_past_15 : resp (.getrange 10 7) start = some (.error (.channelRange 10 7)) := by decide +kernel

theorem test_setlist_repeats :
    wrote (.setlist 2 [3, 3] [1/4, 3/4]) start =
      [(0x12, [0x00#8, 0x00#8, 0x00#8, 0x04#8]), (0x12, [0x00#8, 0x00#8, 0x00#8, 0x0C#8])] := by decide +kernel

theorem test_setlist_partial :
    wrote (.setlist 2 [0, 16] [1/2, 1/2]) start = [(0x06, [0x00#8, 0x00#8, 0x00#8, 0x08#8])] := by decide +kernel

theorem test_getlist_order :
    resp (.getlist 2 [1, 0]) { start with turns := [.answer (.bytes [0#8, 0x10#8, 0#8, 0#8]),
        .answer (.bytes [0#8, 0#8, 0xFF#8, 0x0F#8])] } = some (.ok (.nums [0, 4095/4096])) := by decide +kernel

theorem test_getlist_shape : resp (.getlist 0 []) start = some (.error (.shape ⟨0, some 0, none⟩)) := by decide +kernel

/-! ### Single steps: Motor (section 2.6) -/

theorem test_mlegs_offset : resp (.mlegs 0 (-1/4)) start = some (.ok (.legs (1/4) 0)) := by decide +kernel

theorem test_mlegs_no_unit : resp (.mlegs 2 0) start = some (.refused .noSuchUnit) := by decide +kernel

theorem test_mset_burst :
    wrote (.mset 0 (1/2)) start = [(0x06, [0x00#8, 0x10#8, 0x00#8, 0x00#8, 0x00#8, 0x00#8, 0x00#8, 0x08#8])] := by
  decide +kernel

/-- `alpha = -1`: the legs swap (S14), on channels 0 and 2. -/
theorem test_mset_split :
    wrote (.mset 1 (1/2)) start =
      [(0x06, [0x00#8, 0x00#8, 0x00#8, 0x08#8]), (0x0E, [0x00#8, 0x10#8, 0x00#8, 0x00#8])] := by decide +kernel

theorem test_mwr_alpha :
    after (·.motors) (.mwr 0 0 (9/10)) start =
      some [⟨"left_motor", 0, 1, 9/10, 0, none⟩, ⟨"right_motor", 0, 2, -1, 0, none⟩] := by decide +kernel

theorem test_mwr_value : resp (.mwr 0 2 (1/2)) start = some (.refused .noSuchRegister) := by decide +kernel

theorem test_mrd_alpha : resp (.mrd 1 0) start = some (.ok (.num (-1))) := by decide +kernel

theorem test_mrd_unset : resp (.mrd 0 2) start = some (.refused (.unset (.motorValue 0))) := by decide +kernel

/-! ### Single steps: Servo (section 2.7) -/

theorem test_sconfig :
    after (fun t => t.servos[1]?) (.sconfig 1 900 1500 2400) at50 =
      some (some ⟨"motor", 5, some (9/200), some (3/100), some (3/40), some (9/200), some (3/25)⟩) := by decide +kernel

theorem test_sconfig_unset : resp (.sconfig 0 1 2 3) start = some (.refused (.unset .drvFreq)) := by decide +kernel

theorem test_sduty : resp (.sduty 0 (-1/2)) start = some (.ok (.num (3/50))) := by decide +kernel

theorem test_sduty_unset : resp (.sduty 1 0) start = some (.refused (.unset (.servo 1 .alpha1))) := by decide +kernel

theorem test_sset : wrote (.sset 0 (1/2)) start = [(0x16, [0x00#8, 0x00#8, 0x8F#8, 0x01#8])] := by decide +kernel

theorem test_sset_clamped : wrote (.sset 0 (-2)) start = [(0x16, [0x00#8, 0x00#8, 0xB8#8, 0x00#8])] := by
  decide +kernel

theorem test_srev :
    after (fun t => t.servos[0]?) (.srev 0) start =
      some (some ⟨"servo", 4, some (-3/100), some (-9/200), some (3/40), some (9/200), some (3/25)⟩) := by decide +kernel

theorem test_srev_no_unit : resp (.srev 2) start = some (.refused .noSuchUnit) := by decide +kernel

theorem test_swr :
    after (fun t => t.servos[1]?) (.swr 1 2 (77/1000)) start =
      some (some ⟨"motor", 5, none, none, some (77/1000), none, none⟩) := by decide +kernel

theorem test_srd : resp (.srd 0 3) start = some (.ok (.num (9/200))) := by decide +kernel

theorem test_srd_no_register : resp (.srd 0 5) start = some (.refused .noSuchRegister) := by decide +kernel

/-! ### Single steps: store (section 2.8) -/

theorem test_calload_extra_keys :
    after (·.motors) (.calload (.map [("left_motor", [("alpha", 1/2), ("beta", 0), ("note", 7)]),
        ("right_motor", [("alpha", -1), ("beta", 0)]), ("servo", [])])) { start with servos := [] } =
      some [⟨"left_motor", 0, 1, 1/2, 0, none⟩, ⟨"right_motor", 0, 2, -1, 0, none⟩] := by decide +kernel

theorem test_calload_missing :
    resp (.calload (.map [("left_motor", [("alpha", 1), ("beta", 0)]), ("right_motor", [("alpha", -1)])])) start =
      some (.error (.docMissingField "right_motor" "beta")) := by decide +kernel

theorem test_calsave :
    resp .calsave { start with servos := [] } =
      some (.ok (.doc [("left_motor", [("alpha", 1), ("beta", 0)]), ("right_motor", [("alpha", -1), ("beta", 0)])])) := by
  decide +kernel

theorem test_calsave_unset : resp .calsave start = some (.refused (.unset (.servo 1 .alpha0))) := by decide +kernel

/-! ### Single steps: byte rows (rules R54 to R58, R63) -/

theorem test_blk_enc :
    resp (.blkEncLinear 0x18F#12) start = some (.ok (.block ⟨0x00#8, 0x00#8, 0x8F#8, 0x01#8⟩)) ∧
    resp .blkEncFullOn start = some (.ok (.block ⟨0x00#8, 0x00#8, 0xFF#8, 0x0F#8⟩)) ∧
    resp .blkEncFullOffDoc start = some (.ok (.block ⟨0x00#8, 0x10#8, 0x00#8, 0x00#8⟩)) ∧
    resp .blkEncFullOffNative start = some (.ok (.block ⟨0x00#8, 0x00#8, 0x00#8, 0x10#8⟩)) := by decide +kernel

theorem test_blk_dec :
    resp (.blkDecFoff 7#3 0#12 0#3 true 0#12) start = some (.ok (.num 1)) ∧
    resp (.blkDecFon 7#3 1#12 0#3 0#12) start = some (.ok (.num 0)) ∧
    resp (.blkDecLinear 7#3 200#12 7#3 100#12) start = some (.ok (.num (25/1024))) := by decide +kernel

theorem test_setfreq_bytes :
    wrote (.setfreqW1 false true false false false true) start = [(0x00, [0x31#8])] ∧
    wrote (.setfreqW2 0x04#8) start = [(0xFE, [0x04#8])] ∧
    wrote (.setfreqW3 true false true false false false false true) start = [(0x00, [0xA1#8])] ∧
    wrote (.setfreqW4 false false true false false false true) start = [(0x00, [0x31#8])] := by decide +kernel

/-! ### Single steps: the latch (section 2.9) -/

theorem test_faulted_refuses_pure : resp (.enc (1/2)) latched = some (.refused .faulted) := by decide +kernel

theorem test_error_codes :
    [none, some (.error (.channel 16)), some (.error (.duty 2)), some (.error (.shape ⟨0, none, none⟩)),
      some (.error (.transport .opaque 0)), some (.error .docAbsent), some (.refused .noSuchUnit)].map latchCode =
      [0, 1, 2, 3, 4, 5, 6] := by decide +kernel

theorem test_reset_clears :
    (match step { latched with host := [.reset cfg] } with
      | .next t => t.latch
      | .fault _ => some (.refused .faulted)
      | .refused _ => some (.refused .faulted)) = none := by decide +kernel

theorem test_reserved_latches :
    (match step { start with host := [.present (.command 0x14 ports)] } with
      | .next t => t.latch
      | .fault _ => none
      | .refused _ => none) = some (.refused .reservedOpcode) := by decide +kernel

theorem test_fetched_word_runs :
    (match step (State.reset.withFetchWord 8 0x31) with
      | .next t => t.cmdidx
      | .fault _ => 0
      | .refused _ => 0) = 1 := by decide +kernel

/-! ### Witnesses: states and operands that meet the hypotheses of the statements, clause by clause -/

/-- The reference register file lets every write complete. -/
theorem start_accepts (k : Nat) : start.accepts k := by
  simp [State.accepts, State.turnAt, start, State.resetWith]

/-- The state after an instruction. -/
def stateAfter (i : Instr) (s : State) : State :=
  match exec i s with
  | .next t => t
  | .fault _ => s
  | .refused _ => s

/-- The answers of the four blocks of `GETLIST` and the reads of one block. -/
def reading : State := { start with turns := [.answer (.bytes [0#8, 0#8, 0#8, 8#8]), .answer (.bytes [0#8, 16#8, 0#8, 0#8])] }

/-- The sixteen blocks of `GETRANGE`. -/
def readingAll : State := { start with turns := [.answer (.bytes (List.replicate 64 0#8))] }

/-- Every channel block written: reads are answered by the reference register file. -/
def fileFull : State := { start with chip := (List.range 64).map fun k => (k + 6, 0#8) }

theorem witness_TableWordsDecode :
    docWellFormed ports.doc = true ∧ docWellFormed (.map [("a", [("alpha", 1)])]) = true := by decide

theorem witness_DecodeAfterEncode :
    wellFormed (.blkEncLinear 1#12) = true ∧ Instr.blkEncLinear 1#12 ≠ .blkEncLinear 4095#12 ∧
    wellFormed (.blkEncLinear 4094#12) = true ∧ Instr.blkEncLinear 4094#12 ≠ .blkEncLinear 4095#12 ∧
    wellFormed (.calload .absent) = true ∧ Instr.calload .absent ≠ .blkEncLinear 4095#12 := by decide

theorem witness_EncodeAfterDecode :
    decode (.command 0x31 ports) = .ok .calsave ∧ decode (.encodeOut 0x00010000#32) = .ok (.blkEncLinear 1#12) ∧
    decode (.decodeIn 0xFFFFFFFF#32) = .ok (.blkDecFoff 7#3 0xFFF#12 7#3 true 0xFFF#12) ∧
    decode (.setfreqByte .w2 0xFF#8) = .ok (.setfreqW2 0xFF#8) := by decide

theorem witness_StepRunsThePresentedInstruction :
    { start with host := [.present (.command 0x31 ports), .reset cfg] }.host =
      .present (.command 0x31 ports) :: [.reset cfg] ∧
    decode (.command 0x31 ports) = .ok .calsave ∧ start.host = [] := ⟨rfl, rfl, rfl⟩

theorem witness_ReservedOpcodesAreRefused :
    (0x0A : Byte) ∉ ([0x00, 0x01, 0x02, 0x03, 0x04, 0x05, 0x06, 0x07, 0x08, 0x09, 0x10, 0x11, 0x12, 0x13, 0x20, 0x21,
      0x22, 0x23, 0x24, 0x25, 0x30, 0x31] : List Byte) ∧
    { start with host := [.present (.command 0x0A ports)] }.host = .present (.command 0x0A ports) :: [] ∧
    { start with host := [.present (.command 0x0A ports)] }.latch = none ∧
    { latched with host := [.present (.command 0x0A ports)] }.host = .present (.command 0x0A ports) :: [] ∧
    { latched with host := [.present (.command 0x0A ports)] }.latch ≠ none :=
  ⟨by decide, rfl, rfl, rfl, nofun⟩

theorem witness_ResetMoveGivesResetValues :
    { latched with host := [.reset cfg, .reset cfg] }.host = .reset cfg :: [.reset cfg] := rfl

/-- A Servo unit that `CAL_INIT` has, and one that it lacks. -/
theorem witness_ResetStateValues :
    cfg.servos[0]? = some ⟨"servo", 4, some ⟨9/200, 3/100, 3/40, 9/200, 3/25⟩⟩ ∧
    cfg.servos[1]? = some ⟨"motor", 5, none⟩ := ⟨rfl, rfl⟩

/-- After a Motor write at 50 Hz, with a command presented. -/
def ran : State := stateAfter (.mset 0 (1/2)) { at50 with host := [.present (.command 0x31 ports)] }

theorem ran_invariant : Invariant ran where
  chip_wf := by decide +kernel
  freq_pos := by
    intro hz h
    have f : ran.freq = some 50 := by decide +kernel
    rw [f] at h
    exact Option.some.inj h ▸ by decide
  motors_bound := by decide +kernel
  servos_bound := by decide +kernel
  trace_ok := by
    have h : ran.trace = [.write 5 6 [0x00#8, 0x10#8, 0x00#8, 0x00#8, 0x00#8, 0x00#8, 0x00#8, 0x08#8]] := by
      decide +kernel
    have e : encodeBurst cfg [0, 1/2] = .ok [0x00#8, 0x10#8, 0x00#8, 0x00#8, 0x00#8, 0x00#8, 0x00#8, 0x08#8] := by
      decide +kernel
    have c : ran.cfg = cfg := by decide +kernel
    rw [h, c]
    intro x hx
    rw [List.mem_singleton.mp hx]
    exact ⟨rfl, .inr ⟨⟨0, 2, by decide, by decide, rfl, rfl⟩, ⟨[0, 1/2], e⟩⟩⟩
  latch_first := by decide +kernel
  resp_latched := by
    intro _ r hr
    have : ran.resp = some (.ok .none) := by decide +kernel
    exact ⟨.none, by rw [this] at hr; exact (Option.some.inj hr).symm⟩

theorem witness_StepKeepsInvariant :
    Invariant ran ∧ step ran = .next (stateAfter .calsave ran.popHost) ∧ stateAfter .calsave ran.popHost ≠ ran := by
  have h : ran.host = [.present (.command 0x31 ports)] := by decide +kernel
  refine ⟨ran_invariant, ?_, by decide +kernel⟩
  unfold step
  rw [h]
  rfl

theorem witness_SetLatchRefusesEveryInstruction : latched.latch ≠ none := nofun

theorem witness_ThreeOutcomesKeptApart : start.latch = none := rfl

theorem witness_OnlyResetClearsTheLatch :
    { latched with host := [.present (.command 0x31 ports)] }.latch = some (.error (.channel 16)) ∧
    (∀ cfg rest, { latched with host := [.present (.command 0x31 ports)] }.host ≠ .reset cfg :: rest) ∧
    ∃ t, step { latched with host := [.present (.command 0x31 ports)] } = .next t :=
  ⟨rfl, nofun, _, rfl⟩

theorem witness_BindingsStandAndTraceGrows :
    exec (.setlist 2 [15, 0] [0, 1]) start = .next (stateAfter (.setlist 2 [15, 0] [0, 1]) start) := rfl

theorem witness_QuietInstructionsTouchNoBus :
    isQuiet (.enc 1) = true ∧ exec (.enc 1) start = .next (stateAfter (.enc 1) start) ∧
    isQuiet .blkEncFullOn = true ∧ exec .blkEncFullOn start = .next (stateAfter .blkEncFullOn start) :=
  ⟨rfl, rfl, rfl, rfl⟩

/-- Channel 15 covers 0x42..0x45: the addresses next to it are untouched. -/
theorem witness_ChipChangesOnlyWhereWritten :
    exec (.setdc 15 1) start = .next (stateAfter (.setdc 15 1) start) ∧
    ∀ a ∈ [0x41, 0x46], ∀ x ∈ (stateAfter (.setdc 15 1) start).trace.drop start.trace.length, ¬ x.writesTo a := by
  refine ⟨rfl, ?_⟩
  have h : (stateAfter (.setdc 15 1) start).trace.drop start.trace.length =
      [.write 5 0x42 [0x00#8, 0x00#8, 0xFF#8, 0x0F#8]] := by decide +kernel
  rw [h]
  intro a ha x hx
  rw [List.mem_singleton.mp hx]
  simp only [Xact.writesTo, List.length_cons, List.length_nil]
  simp at ha
  omega

theorem witness_TransactionsStayInTheirRegisters :
    exec (.setdc 15 1) start = .next (stateAfter (.setdc 15 1) start) ∧ programsTimebase (.setdc 15 1) = false ∧
    (stateAfter (.setdc 15 1) start).trace.drop start.trace.length ≠ [] ∧
    exec (.setfreq 50) start = .next (stateAfter (.setfreq 50) start) ∧ programsTimebase (.setfreq 50) = true ∧
    (stateAfter (.setfreq 50) start).trace.drop start.trace.length ≠ [] := by
  refine ⟨rfl, rfl, ?_, rfl, rfl, ?_⟩ <;> decide +kernel

/-- `GETFREQ` is none of the instructions the first four clauses except; each other clause has its own instruction and
the unit next to the one it names. -/
theorem witness_RegisterFrames :
    exec .getfreq start = .next (stateAfter .getfreq start) ∧
    (∀ hz, Instr.getfreq ≠ .setfreq hz) ∧ (∀ u x, Instr.getfreq ≠ .mset u x) ∧
    (∀ u f x, Instr.getfreq ≠ .mwr u f x) ∧ (∀ doc, Instr.getfreq ≠ .calload doc) ∧
    (∀ u a b c, Instr.getfreq ≠ .sconfig u a b c) ∧ (∀ u, Instr.getfreq ≠ .srev u) ∧
    (∀ u f x, Instr.getfreq ≠ .swr u f x) ∧
    exec (.mset 0 1) start = .next (stateAfter (.mset 0 1) start) ∧ 1 ≠ (0 : Int).toNat ∧
    exec (.mwr 1 0 2) start = .next (stateAfter (.mwr 1 0 2) start) ∧ 0 ≠ (1 : Int).toNat ∧
    exec (.sconfig 1 1 2 3) at50 = .next (stateAfter (.sconfig 1 1 2 3) at50) ∧
    exec (.srev 0) start = .next (stateAfter (.srev 0) start) ∧
    exec (.swr 1 2 3) start = .next (stateAfter (.swr 1 2 3) start) :=
  ⟨rfl, nofun, nofun, nofun, nofun, nofun, nofun, nofun, rfl, by decide, rfl, by decide, rfl, rfl, rfl⟩

/-- The last register of the space, and the first. -/
theorem witness_StoredBytesReadBack :
    Memory.wf [(0, 1#8), (255, 2#8)] = true ∧ 252 + [1#8, 2#8, 3#8, 4#8].length ≤ 256 ∧
    0 + [1#8].length ≤ 256 := by decide

theorem witness_RoundingAndClamping :
    (1/2 : Rat) - ((1/2 : Rat).floor : Rat) = 1/2 ∧ (-1/2 : Rat) - ((-1/2 : Rat).floor : Rat) = 1/2 ∧
    (0 : Rat) ≤ 0 ∧ (1/8192 : Rat) * 4096 - (((1/8192 : Rat) * 4096).floor : Rat) = 1/2 ∧
    (1/8192 : Rat) = (2 * ((0 : Int) : Rat) + 1) / 8192 ∧ (1 : Rat) ≤ 1 ∧ (0 : Rat) < 1 := by decide +kernel

theorem witness_QuantizationOfDutyCycles :
    ((0 : Rat) ≤ 0 ∧ (0 : Rat) ≤ 1) ∧ ((0 : Rat) ≤ 1 ∧ (1 : Rat) ≤ 1) ∧
    ((0 : Rat) ≤ 1/8192 ∧ (1/8192 : Rat) ≤ 1) ∧ ((0 : Rat) ≤ 8191/8192 ∧ (8191/8192 : Rat) ≤ 1) := by decide +kernel

/-- The counts 0, 1, 4095, 4096, and the values next to the bounds. -/
theorem witness_EncReturnsTheBlock :
    start.latch = none ∧ ((0 : Rat) ≤ 0 ∧ (0 : Rat) ≤ 1) ∧ (0 : Int) = roundT start.cfg.roundTie (0 * 4096) ∧
    ((0 : Rat) ≤ 1 ∧ (1 : Rat) ≤ 1) ∧ (4096 : Int) = roundT start.cfg.roundTie (1 * 4096) ∧
    (1 : Int) = roundT start.cfg.roundTie (1/4096 * 4096) ∧ (4095 : Int) = roundT start.cfg.roundTie (4095/4096 * 4096) ∧
    (-1/8192 : Rat) < 0 ∧ (1 : Rat) < 8193/8192 := by decide +kernel

theorem witness_DecReturnsTheValue : start.latch = none := rfl

theorem witness_DecodeRangeAndReservedBits :
    encodeDuty cfg 0 = .ok ⟨0x00#8, 0x10#8, 0x00#8, 0x00#8⟩ ∧ encodeDuty cfg 1 = .ok ⟨0x00#8, 0x00#8, 0xFF#8, 0x0F#8⟩ ∧
    (Block.mk 0xFF#8 0xEF#8 0x00#8 0xE0#8).b1.getLsbD 4 = false ∧
    (Block.mk 0xFF#8 0xEF#8 0x00#8 0xE0#8).b3.getLsbD 4 = false := by decide +kernel

theorem witness_RoundTripOfDutyCycles :
    ((0 : Rat) ≤ 1/8192 ∧ (1/8192 : Rat) ≤ 1) ∧ intCycle cfg.roundTie (1/8192) = 0 ∧
    (1 ≤ intCycle cfg.roundTie (1/4096) ∧ intCycle cfg.roundTie (1/4096) ≤ 4095) ∧
    (1 ≤ intCycle cfg.roundTie (4095/4096) ∧ intCycle cfg.roundTie (4095/4096) ≤ 4095) ∧
    intCycle cfg.roundTie 1 = 4096 ∧ cfg.polarity = .doc ∧
    (Block.mk 0#8 0#8 0#8 0x10#8).b3.getLsbD 4 = true := by decide +kernel

/-- 24 Hz is the lowest frequency whose prescale fits. -/
theorem witness_SetfreqProgramsTheChip :
    start.latch = none ∧ (0 : Int) < 24 ∧
    (254 : Int) = roundT start.cfg.roundTie ((start.cfg.refClock : Rat) / 4096 / ((24 : Int) : Rat)) ∧
    (254 : Int) ≤ 255 ∧ start.readsAs 0 0x00 1 [0#8] ∧ start.accepts 1 ∧ start.accepts 2 ∧ start.accepts 3 ∧
    start.accepts 4 :=
  ⟨rfl, by decide, by decide +kernel, by decide, ⟨rfl, .inr ⟨rfl, rfl⟩⟩, start_accepts 1, start_accepts 2,
    start_accepts 3, start_accepts 4⟩

theorem witness_SetfreqValueErrors :
    start.latch = none ∧ (0 : Int) ≤ 0 ∧ (0 : Int) < 23 ∧
    (265 : Int) = roundT start.cfg.roundTie ((start.cfg.refClock : Rat) / 4096 / ((23 : Int) : Rat)) ∧
    (255 : Int) < 265 := by decide +kernel

/-- The next read is answered with no byte at all. -/
def noBytes : State := { start with turns := [.answer (.bytes [])] }

/-- One block, then a failure. -/
def readingOne : State := { start with turns := [.answer (.bytes [0#8, 0#8, 0#8, 8#8]), .answer .fail] }

/-- The fifth transaction fails. -/
def failingLast : State := { start with turns := [.file, .file, .file, .file, .answer .fail] }

theorem failingLast_accepts (j : Nat) (h : j < 4) : failingLast.accepts j := by
  simp only [State.accepts]
  match j, h with
  | 0, _ => exact nofun
  | 1, _ => exact nofun
  | 2, _ => exact nofun
  | 3, _ => exact nofun

/-- The first transaction and the last fail, and `MODE1` is answered with four bytes and with none. -/
theorem witness_SetfreqFailureKeepsFrequency :
    (failing.latch = none ∧ (0 : Int) < 50 ∧
      (122 : Int) = roundT failing.cfg.roundTie ((failing.cfg.refClock : Rat) / 4096 / ((50 : Int) : Rat)) ∧
      (122 : Int) ≤ 255 ∧ 0 < 5 ∧ (0 < 0 → failing.readsAs 0 0x00 1 [0#8]) ∧
      (∀ j, 0 < j → j < 0 → failing.accepts j) ∧ ¬ failing.accepts 0) ∧
    (failingLast.latch = none ∧
      (122 : Int) = roundT failingLast.cfg.roundTie ((failingLast.cfg.refClock : Rat) / 4096 / ((50 : Int) : Rat)) ∧
      4 < 5 ∧ (0 < 4 → failingLast.readsAs 0 0x00 1 [0#8]) ∧
      (∀ j, 0 < j → j < 4 → failingLast.accepts j) ∧ ¬ failingLast.accepts 4) ∧
    (reading.latch = none ∧
      (122 : Int) = roundT reading.cfg.roundTie ((reading.cfg.refClock : Rat) / 4096 / ((50 : Int) : Rat)) ∧
      reading.turnAt 0 = .answer (.bytes [0#8, 0#8, 0#8, 8#8]) ∧ [0#8, 0#8, 0#8, 8#8].length ≠ 1) ∧
    (noBytes.latch = none ∧ noBytes.turnAt 0 = .answer (.bytes []) ∧ ([] : List Byte).length ≠ 1) :=
  ⟨⟨rfl, by decide, by decide +kernel, by decide, by decide, nofun, by omega, fun h => h rfl⟩,
    ⟨rfl, by decide +kernel, by decide, fun _ => ⟨rfl, .inr ⟨rfl, rfl⟩⟩, fun j _ h => failingLast_accepts j h,
      fun h => h rfl⟩,
    ⟨rfl, by decide +kernel, rfl, by decide⟩, ⟨rfl, rfl, by decide⟩⟩

theorem witness_GetfreqReturnsTheRecord :
    at50.latch = none ∧ at50.freq = some 50 ∧ start.latch = none ∧ start.freq = none := ⟨rfl, rfl, rfl, rfl⟩

theorem witness_SetdcWritesOneBlock :
    start.latch = none ∧ ((0 : Int) ≤ 0 ∧ (0 : Int) ≤ 15) ∧ ((0 : Int) ≤ 15 ∧ (15 : Int) ≤ 15) ∧
    ((0 : Rat) ≤ 0 ∧ (0 : Rat) ≤ 1) ∧ ((0 : Rat) ≤ 1 ∧ (1 : Rat) ≤ 1) ∧ start.accepts 0 :=
  ⟨rfl, by decide, by decide, by decide +kernel, by decide +kernel, start_accepts 0⟩

theorem witness_SetdcChecksChannelThenDuty :
    start.latch = none ∧ (-1 : Int) < 0 ∧ (15 : Int) < 16 ∧ ((0 : Int) ≤ 0 ∧ (15 : Int) ≤ 15) ∧
    (-1/8192 : Rat) < 0 ∧ (1 : Rat) < 8193/8192 := by decide +kernel

theorem witness_SetdcTransportFailure :
    failing.latch = none ∧ ((0 : Int) ≤ 15 ∧ (15 : Int) ≤ 15) ∧ ((0 : Rat) ≤ 1 ∧ (1 : Rat) ≤ 1) ∧
    ¬ failing.accepts 0 ∧ 0x41 < 0x06 + 4 * (15 : Int).toNat ∧ 0x0A + 4 * (15 : Int).toNat ≤ 0x46 :=
  ⟨rfl, by decide, by decide +kernel, fun h => h rfl, by decide, by decide⟩

theorem witness_GetdcDecodesTheAnswer :
    (reading.latch = none ∧ (0 : Int) ≤ 15 ∧ (15 : Int) ≤ 15 ∧
      reading.readsAs 0 (0x06 + 4 * (15 : Int).toNat) 4 [0#8, 0#8, 0#8, 8#8]) ∧
    (fileFull.latch = none ∧ fileFull.readsAs 0 (0x06 + 4 * (15 : Int).toNat) 4 [0#8, 0#8, 0#8, 0#8]) ∧
    ((-1 : Int) < 0 ∧ (15 : Int) < 16) ∧ (failing.latch = none ∧ failing.turnAt 0 = .answer .fail) ∧
    ∃ bs, readingAll.turnAt 0 = .answer (.bytes bs) ∧ bs.length ≠ 4 :=
  ⟨⟨rfl, by decide, by decide, rfl, .inl rfl⟩, ⟨rfl, rfl, .inr ⟨rfl, by decide +kernel⟩⟩, by decide, ⟨rfl, rfl⟩,
    List.replicate 64 0#8, rfl, by decide⟩

/-- The last two channels, and channel 0 alone. -/
theorem witness_SetrangeWritesOneBurst :
    start.latch = none ∧
    ((1 : Int) ≤ 2 ∧ (([0, 1] : List Rat).length : Int) = 2 ∧ (0 : Int) ≤ 14 ∧ (14 : Int) + 2 - 1 ≤ 15 ∧
      ∀ d ∈ ([0, 1] : List Rat), 0 ≤ d ∧ d ≤ 1) ∧
    ((1 : Int) ≤ 1 ∧ (([1] : List Rat).length : Int) = 1 ∧ (0 : Int) ≤ 0 ∧ (0 : Int) + 1 - 1 ≤ 15 ∧
      ∀ d ∈ ([1] : List Rat), 0 ≤ d ∧ d ≤ 1) ∧ start.accepts 0 :=
  ⟨rfl, by decide +kernel, by decide +kernel, start_accepts 0⟩

theorem witness_SetrangeErrorOrder :
    start.latch = none ∧ (1 : Int) ≤ 2 ∧ (([0, 2] : List Rat).length : Int) = 2 ∧ (-1 : Int) < 0 ∧
    (15 : Int) < 15 + 2 - 1 ∧ (0 : Int) ≤ 14 ∧ (14 : Int) + 2 - 1 ≤ 15 ∧
    ([0, 2] : List Rat) = [0] ++ 2 :: [] ∧ (∀ x ∈ ([0] : List Rat), 0 ≤ x ∧ x ≤ 1) ∧ (1 : Rat) < 2 ∧
    ([-1, 0] : List Rat) = [] ++ (-1) :: [0] ∧ (-1 : Rat) < 0 := by decide +kernel

theorem witness_GetrangeReadsOneBurst :
    (readingAll.latch = none ∧ (1 : Int) ≤ 16 ∧ (0 : Int) ≤ 0 ∧ (0 : Int) + 16 - 1 ≤ 15 ∧
      readingAll.readsAs 0 (0x06 + 4 * (0 : Int).toNat) (4 * (16 : Int).toNat) (List.replicate 64 0#8) ∧
      ((List.replicate 64 0#8).drop (4 * 15)).take 4 = [0#8, 0#8, 0#8, 0#8]) ∧
    ((1 : Int) ≤ 1 ∧ (-1 : Int) < 0 ∧ (15 : Int) < 16 + 1 - 1) :=
  ⟨⟨rfl, by decide, by decide, by decide, ⟨rfl, .inl rfl⟩, rfl⟩, by decide⟩

theorem witness_SetlistWritesEachElement :
    start.latch = none ∧ (1 : Int) ≤ 3 ∧ (([15, 0, 15] : List Int).length : Int) = 3 ∧
    (([0, 1, 1/2] : List Rat).length : Int) = 3 ∧ (∀ ch ∈ ([15, 0, 15] : List Int), 0 ≤ ch ∧ ch ≤ 15) ∧
    (∀ d ∈ ([0, 1, 1/2] : List Rat), 0 ≤ d ∧ d ≤ 1) ∧ ∀ k : Nat, (k : Int) < 3 → start.accepts k :=
  ⟨rfl, by decide, rfl, rfl, by decide, by decide +kernel, fun k _ => start_accepts k⟩

/-- A bad channel with a bad value after one good element, and a bad value first. -/
theorem witness_SetlistStopsAtTheFirstBadElement :
    start.latch = none ∧
    ((2 : Int) = ((([(0, 1)] : List (Int × Rat)) ++ (16, 2) :: []).length : Int) ∧
      (∀ e ∈ ([(0, 1)] : List (Int × Rat)), 0 ≤ e.1 ∧ e.1 ≤ 15 ∧ 0 ≤ e.2 ∧ e.2 ≤ 1) ∧ (15 : Int) < 16) ∧
    ((2 : Int) = ((([] : List (Int × Rat)) ++ (15, 2) :: [(-1, 0)]).length : Int) ∧
      (0 : Int) ≤ 15 ∧ (15 : Int) ≤ 15 ∧ (1 : Rat) < 2) ∧
    ∀ k, k < ([(0, 1)] : List (Int × Rat)).length → start.accepts k :=
  ⟨rfl, by decide +kernel, by decide +kernel, fun k _ => start_accepts k⟩

/-- Every element read; then the first element bad or short, and the second bad, failing. -/
theorem witness_GetlistReadsEachElement :
    (reading.latch = none ∧ (1 : Int) ≤ 2 ∧ (([15, 0] : List Int).length : Int) = 2 ∧
      [Block.mk 0#8 0#8 0#8 8#8, Block.mk 0#8 16#8 0#8 0#8].length = ([15, 0] : List Int).length ∧
      (∀ ch ∈ ([15, 0] : List Int), 0 ≤ ch ∧ ch ≤ 15) ∧
      ∀ (k : Nat) (ch : Int) (b : Block), ([15, 0] : List Int)[k]? = some ch →
        [Block.mk 0#8 0#8 0#8 8#8, Block.mk 0#8 16#8 0#8 0#8][k]? = some b →
        reading.readsAs k (0x06 + 4 * ch.toNat) 4 [b.b0, b.b1, b.b2, b.b3]) ∧
    (readingOne.latch = none ∧
      (3 : Int) = ((([(15, Block.mk 0#8 0#8 0#8 8#8)] : List (Int × Block)).map Prod.fst ++ 16 :: [0]).length : Int) ∧
      (∀ e ∈ ([(15, Block.mk 0#8 0#8 0#8 8#8)] : List (Int × Block)), 0 ≤ e.1 ∧ e.1 ≤ 15) ∧
      (∀ (k : Nat) (e : Int × Block), ([(15, Block.mk 0#8 0#8 0#8 8#8)] : List (Int × Block))[k]? = some e →
        readingOne.readsAs k (0x06 + 4 * e.1.toNat) 4 [e.2.b0, e.2.b1, e.2.b2, e.2.b3]) ∧
      (15 : Int) < 16 ∧ (0 : Int) ≤ 15 ∧ readingOne.turnAt 1 = .answer .fail) ∧
    (noBytes.latch = none ∧ (1 : Int) = ((([] : List (Int × Block)).map Prod.fst ++ 0 :: []).length : Int) ∧
      (-1 : Int) < 0 ∧ (0 : Int) ≤ 0 ∧ noBytes.turnAt 0 = .answer (.bytes []) ∧ ([] : List Byte).length ≠ 4) := by
  refine ⟨⟨rfl, by decide, rfl, rfl, by decide, fun k ch b hc hb => ?_⟩,
    ⟨rfl, rfl, by decide, fun k e he => ?_, by decide, by decide, rfl⟩, rfl, rfl, by decide, by decide, rfl, by decide⟩
  · match k, hc, hb with
    | 0, rfl, rfl => exact ⟨rfl, .inl rfl⟩
    | 1, rfl, rfl => exact ⟨rfl, .inl rfl⟩
  · match k, he with
    | 0, rfl => exact ⟨rfl, .inl rfl⟩

theorem witness_BulkShapesAreChecked :
    start.latch = none ∧ (0 : Int) < 1 ∧ (([1] : List Rat).length : Int) ≠ 2 ∧ (([4, 5, 6] : List Int).length : Int) ≠ 2 := by
  decide +kernel

theorem witness_MlegsReturnsTheLegs :
    start.latch = none ∧ (0 : Int) ≤ 1 ∧
    start.motors[(1 : Int).toNat]? = some ⟨"right_motor", 0, 2, -1, 0, none⟩ ∧
    (-1 : Rat) = clamp (3/2 * -1 + 0) (-1) 1 ∧ (0 : Rat) = clamp (0 * -1 + 0) (-1) 1 ∧ (-1 : Int) < 0 ∧
    (start.motors.length : Int) ≤ 2 := by decide +kernel

theorem witness_LegLaws :
    ((-1 : Rat) ≤ -1 ∧ (-1 : Rat) ≤ 1 ∧ (-1 : Rat) ≠ 0) ∧ ((-1 : Rat) ≤ 0 ∧ (0 : Rat) ≤ 1 ∧ (0 : Rat) = 0) ∧
    start.latch = none ∧ at50.latch = none ∧ start.motors[(0 : Int).toNat]? = some ⟨"left_motor", 0, 1, 1, 0, none⟩ ∧
    at50.motors[(0 : Int).toNat]? = some ⟨"left_motor", 0, 1, 1, 0, none⟩ := by decide +kernel

/-- The highest pair, 14 and 15. -/
theorem witness_MsetContiguousBurst :
    badChannels.latch = none ∧ badChannels.motors[(3 : Int).toNat]? = some ⟨"p", 14, 15, 1, 0, none⟩ ∧
    (15 : Int) = 14 + 1 ∧ (0 : Int) ≤ 14 ∧ (14 : Int) ≤ 14 ∧ badChannels.accepts 0 :=
  ⟨rfl, rfl, rfl, by decide, by decide, start_accepts 0⟩

/-- Both legs on channel 15, and on 0 and 2. -/
theorem witness_MsetSplitWrites :
    badChannels.latch = none ∧ badChannels.motors[(5 : Int).toNat]? = some ⟨"r", 15, 15, 1, 0, none⟩ ∧
    (15 : Int) ≠ 15 + 1 ∧ (15 : Int) ≤ 15 ∧ badChannels.accepts 0 ∧ badChannels.accepts 1 ∧
    start.motors[(1 : Int).toNat]? = some ⟨"right_motor", 0, 2, -1, 0, none⟩ ∧ (2 : Int) ≠ 0 + 1 :=
  ⟨rfl, rfl, by decide, by decide, start_accepts 0, start_accepts 1, rfl, by decide⟩

/-- Contiguous pairs on both sides of the channels, `a` bad and `b` bad on the split path. -/
theorem witness_MsetCachesThenReportsBadChannels :
    badChannels.latch = none ∧
    (badChannels.motors[(0 : Int).toNat]? = some ⟨"m", 15, 16, 1, 0, none⟩ ∧ (16 : Int) = 15 + 1 ∧ (14 : Int) < 15) ∧
    (badChannels.motors[(4 : Int).toNat]? = some ⟨"q", -1, 0, 1, 0, none⟩ ∧ (0 : Int) = -1 + 1 ∧ (-1 : Int) < 0) ∧
    (badChannels.motors[(2 : Int).toNat]? = some ⟨"o", 16, 0, 1, 0, none⟩ ∧ (0 : Int) ≠ 16 + 1 ∧ (15 : Int) < 16) ∧
    (badChannels.motors[(1 : Int).toNat]? = some ⟨"n", 0, 16, 1, 0, none⟩ ∧ (16 : Int) ≠ 0 + 1 ∧ (15 : Int) < 16) ∧
    badChannels.accepts 0 :=
  ⟨rfl, ⟨rfl, rfl, by decide⟩, ⟨rfl, rfl, by decide⟩, ⟨rfl, by decide, by decide⟩, ⟨rfl, by decide, by decide⟩,
    start_accepts 0⟩

theorem witness_MwrWritesACoefficient :
    start.latch = none ∧ (0 : Int) ≤ 1 ∧ start.motors[(1 : Int).toNat]? = some ⟨"right_motor", 0, 2, -1, 0, none⟩ ∧
    ((2 : Int) ≠ 0 ∧ (2 : Int) ≠ 1) ∧ ((-1 : Int) ≠ 0 ∧ (-1 : Int) ≠ 1) := by decide +kernel

/-- A cached command, and none. -/
theorem witness_MrdReadsARegister :
    (ran.latch = none ∧ ran.motors[(0 : Int).toNat]? = some ⟨"left_motor", 0, 1, 1, 0, some (1/2)⟩) ∧
    (start.latch = none ∧ start.motors[(0 : Int).toNat]? = some ⟨"left_motor", 0, 1, 1, 0, none⟩) ∧
    ((3 : Int) ≠ 0 ∧ (3 : Int) ≠ 1 ∧ (3 : Int) ≠ 2) ∧ ((-1 : Int) ≠ 0 ∧ (-1 : Int) ≠ 1 ∧ (-1 : Int) ≠ 2) := by
  decide +kernel

theorem witness_SconfigDerivesTheCoefficients :
    (at50.latch = none ∧ (0 : Int) ≤ 1 ∧
      at50.servos[(1 : Int).toNat]? = some ⟨"motor", 5, none, none, none, none, none⟩ ∧ at50.freq = some 50 ∧
      (20000 : Rat) = 1000000 / ((50 : Int) : Rat)) ∧
    (start.latch = none ∧ start.servos[(1 : Int).toNat]? = some ⟨"motor", 5, none, none, none, none, none⟩ ∧
      start.freq = none) := by decide +kernel

theorem witness_SdutyIsPiecewiseLinear :
    start.latch = none ∧ ((0 : Int) ≤ 0 ∧ (0 : Int) ≤ 1) ∧ start.servos[(0 : Int).toNat]? =
      some ⟨"servo", 4, some (9/200), some (3/100), some (3/40), some (9/200), some (3/25)⟩ ∧
    (0 : Rat) < 1/1000 ∧ (0 : Rat) ≤ 0 ∧
    start.servos[(1 : Int).toNat]? = some ⟨"motor", 5, none, none, none, none, none⟩ := by decide +kernel

/-- The coefficients of the R115 example, and the widths that give them. -/
theorem witness_ServoLaws :
    (start.latch = none ∧ (0 : Int) ≤ 0 ∧ start.servos[(0 : Int).toNat]? =
        some ⟨"servo", 4, some (9/200), some (3/100), some (3/40), some (9/200), some (3/25)⟩ ∧
      (9/200 : Rat) ≤ 3/40 ∧ (3/40 : Rat) ≤ 3/25 ∧ (9/200 : Rat) ≤ 3/25) ∧
    (at50.latch = none ∧ (0 : Int) ≤ 1 ∧
      at50.servos[(1 : Int).toNat]? = some ⟨"motor", 5, none, none, none, none, none⟩ ∧ at50.freq = some 50 ∧
      (0 : Int) < 50 ∧ (900 : Rat) ≤ 1500 ∧ (1500 : Rat) ≤ 2400 ∧ (-1 : Rat) ≤ -1 ∧ (1 : Rat) ≤ 1) := by
  decide +kernel

/-- Duty cycles outside [0, 1] need limits outside [0, 1]. -/
def wideServo : State :=
  { start with servos := [⟨"s", 15, some 2, some 2, some 0, some (-2), some 2⟩] }

/-- Position 1/2 of a good unit on its last channel, a bad channel, positions beyond both limits of the duty cycle, and a
unit with nothing set. -/
theorem witness_SsetWritesTheDuty :
    (wideServo.latch = none ∧ (0 : Int) ≤ 0 ∧
      wideServo.servos[(0 : Int).toNat]? = some ⟨"s", 15, some 2, some 2, some 0, some (-2), some 2⟩ ∧
      (1 : Rat) = clamp (1/2 * 2 + 0) (-2) 2 ∧ (0 : Int) ≤ 15 ∧ (15 : Int) ≤ 15 ∧ (0 : Rat) ≤ 1 ∧ (1 : Rat) ≤ 1 ∧
      (2 : Rat) = clamp (1 * 2 + 0) (-2) 2 ∧ (1 : Rat) < 2 ∧ (-2 : Rat) = clamp (-1 * 2 + 0) (-2) 2 ∧ (-2 : Rat) < 0) ∧
    (badServo.latch = none ∧ badServo.servos[(0 : Int).toNat]? = some ⟨"s", 16, some 0, some 0, some 0, some 0, some 0⟩ ∧
      (0 : Rat) = clamp (0 * 0 + 0) 0 0 ∧ (15 : Int) < 16) ∧
    (start.latch = none ∧ (0 : Int) ≤ 1 ∧
      start.servos[(1 : Int).toNat]? = some ⟨"motor", 5, none, none, none, none, none⟩ ∧ (0 : Rat) < 1 ∧ (0 : Rat) ≤ 0) ∧
    wideServo.accepts 0 :=
  ⟨by decide +kernel, by decide +kernel, by decide +kernel, start_accepts 0⟩

theorem witness_SrevNegatesAndExchanges :
    start.latch = none ∧ (0 : Int) ≤ 0 ∧ start.servos[(0 : Int).toNat]? =
      some ⟨"servo", 4, some (9/200), some (3/100), some (3/40), some (9/200), some (3/25)⟩ ∧
    exec (.srev 0) start = .next (stateAfter (.srev 0) start) ∧ (0 : Int) ≤ 1 ∧
    start.servos[(1 : Int).toNat]? = some ⟨"motor", 5, none, none, none, none, none⟩ :=
  ⟨rfl, by decide, rfl, rfl, by decide, rfl⟩

theorem witness_ServoRegisterAccess :
    start.latch = none ∧ start.servos[(0 : Int).toNat]? =
      some ⟨"servo", 4, some (9/200), some (3/100), some (3/40), some (9/200), some (3/25)⟩ ∧
    start.servos[(1 : Int).toNat]? = some ⟨"motor", 5, none, none, none, none, none⟩ ∧ (-1 : Int) < 0 ∧
    (4 : Int) < 5 := by decide +kernel

theorem witness_MissingUnitsAreRefused :
    start.latch = none ∧ (-1 : Int) < 0 ∧ (start.motors.length : Int) ≤ 2 ∧ (start.servos.length : Int) ≤ 2 := by
  decide +kernel

/-- The documents of the load statements. -/
def fullDoc : DocMap :=
  [("left_motor", [("alpha", 1/2), ("beta", 0)]),
   ("servo", [("alpha0", 1), ("alpha1", 2), ("beta", 3), ("min_duty", 4), ("max_duty", 5)])]

theorem witness_CalloadLoadsEveryUnit :
    oneEach.latch = none ∧
    (∀ (k : Nat) (m m' : Motor), oneEach.motors[k]? = some m →
      ([⟨"left_motor", 0, 1, 1/2, 0, none⟩] : List Motor)[k]? = some m' →
      ∃ fs, docLookup fullDoc m.name = some fs ∧ docLookup fs "alpha" = some m'.alpha ∧
        docLookup fs "beta" = some m'.beta ∧ m' = { m with alpha := m'.alpha, beta := m'.beta }) ∧
    (∀ (k : Nat) (v v' : Servo), oneEach.servos[k]? = some v →
      ([⟨"servo", 4, some 1, some 2, some 3, some 4, some 5⟩] : List Servo)[k]? = some v' →
      ∃ fs a0 a1 b lo hi, docLookup fullDoc v.name = some fs ∧ docLookup fs "alpha0" = some a0 ∧
        docLookup fs "alpha1" = some a1 ∧ docLookup fs "beta" = some b ∧ docLookup fs "min_duty" = some lo ∧
        docLookup fs "max_duty" = some hi ∧
        v' = { v with alpha0 := some a0, alpha1 := some a1, beta := some b, minDuty := some lo, maxDuty := some hi }) := by
  refine ⟨rfl, fun k m m' h h' => ?_, fun k v v' h h' => ?_⟩
  · match k, h, h' with
    | 0, rfl, rfl => exact ⟨_, rfl, rfl, rfl, rfl⟩
  · match k, h, h' with
    | 0, rfl, rfl => exact ⟨_, 1, 2, 3, 4, 5, rfl, rfl, rfl, rfl, rfl, rfl, rfl⟩

/-- A missing unit, and a missing last field. -/
theorem witness_FailedLoadChangesNothing :
    oneEach.latch = none ∧
    (oneEach.motors.map fun m => (m.name, ["alpha", "beta"])) ++
        (oneEach.servos.map fun v => (v.name, ["alpha0", "alpha1", "beta", "min_duty", "max_duty"])) =
      [("left_motor", ["alpha", "beta"])] ++ ("servo", ["alpha0", "alpha1", "beta", "min_duty", "max_duty"]) :: [] ∧
    (∃ fs, docLookup fullDoc "left_motor" = some fs ∧ ∀ f ∈ ["alpha", "beta"], docLookup fs f ≠ none) ∧
    docLookup (fullDoc.take 1) "servo" = none ∧
    docLookup (fullDoc.take 1 ++ [("servo", [("alpha0", 1), ("alpha1", 2), ("beta", 3), ("min_duty", 4)])]) "servo" =
      some [("alpha0", 1), ("alpha1", 2), ("beta", 3), ("min_duty", 4)] ∧
    ["alpha0", "alpha1", "beta", "min_duty", "max_duty"] = ["alpha0", "alpha1", "beta", "min_duty"] ++ "max_duty" :: [] ∧
    (∀ f ∈ ["alpha0", "alpha1", "beta", "min_duty"],
      docLookup ([("alpha0", 1), ("alpha1", 2), ("beta", 3), ("min_duty", 4)] : DocFields) f ≠ none) ∧
    docLookup ([("alpha0", 1), ("alpha1", 2), ("beta", 3), ("min_duty", 4)] : DocFields) "max_duty" = none :=
  ⟨rfl, rfl, ⟨_, rfl, by decide +kernel⟩, rfl, by decide +kernel, rfl, by decide +kernel, by decide +kernel⟩

theorem witness_CalsaveWritesTheFullDocument :
    (oneEach.latch = none ∧ ((oneEach.motors.map (·.name)) ++ (oneEach.servos.map (·.name))).Nodup ∧
      ∀ v ∈ oneEach.servos, v.alpha0 ≠ none ∧ v.alpha1 ≠ none ∧ v.beta ≠ none ∧ v.minDuty ≠ none ∧ v.maxDuty ≠ none) ∧
    (start.latch = none ∧ (⟨"motor", 5, none, none, none, none, none⟩ : Servo) ∈ start.servos) := by decide +kernel

theorem witness_SaveThenLoadKeepsCoefficients :
    oneEach.latch = none ∧ ((oneEach.motors.map (·.name)) ++ (oneEach.servos.map (·.name))).Nodup ∧
    exec .calsave oneEach = .next (stateAfter .calsave oneEach) ∧
    (stateAfter .calsave oneEach).resp = some (.ok (.doc [("left_motor", [("alpha", 1), ("beta", 0)]),
      ("servo", [("alpha0", 9/200), ("alpha1", 3/100), ("beta", 3/40), ("min_duty", 9/200), ("max_duty", 3/25)])])) :=
  ⟨rfl, by decide, rfl, by decide +kernel⟩

theorem witness_EncoderRowsAnswerTheirBytes :
    start.latch = none ∧ (1#12 ≠ 0#12 ∧ 4095#12 ≠ 0#12) ∧ wellFormed (.blkEncLinear 1#12) = true ∧
    encode (.blkEncLinear 1#12) = .encodeOut 0x00010000#32 := ⟨rfl, by decide, rfl, rfl⟩

theorem witness_DecoderRowsAnswerAsDec :
    start.latch = none ∧ encode (.blkDecFoff 7#3 0xFFF#12 7#3 true 0xFFF#12) = .decodeIn 0xFFFFFFFF#32 ∧
    encode (.blkDecFon 0#3 0#12 7#3 1#12) = .decodeIn 0x0000F001#32 ∧
    encode (.blkDecLinear 7#3 1#12 0#3 0xFFF#12) = .decodeIn 0xE0010FFF#32 := ⟨rfl, rfl, rfl, rfl⟩

theorem witness_SetfreqByteRowsWriteTheirByte :
    start.latch = none ∧ start.accepts 0 ∧
    encode (.setfreqW1 true true true true true true) = .setfreqByte .w1 0x7F#8 ∧
    encode (.setfreqW2 0x04#8) = .setfreqByte .w2 0x04#8 ∧
    encode (.setfreqW3 true false true false false false false true) = .setfreqByte .w3 0xA1#8 ∧
    encode (.setfreqW4 false false false false false false false) = .setfreqByte .w4 0x20#8 :=
  ⟨rfl, start_accepts 0, rfl, rfl, rfl, rfl⟩

end Sys2Proof.Tests
end

section
/-! SUPPORT. The claims of 00_scope.md: how a step begins, the machine right after reset, the three outcomes of an
instruction, and the two numeric helpers `round_T` and `clamp`. -/

namespace Sys2Proof.Machine

/-! ### A step and the host port (rules R9, R11, R154) -/

theorem State.popHost_eq {s : State} {move : HostMove} {rest : List HostMove} (h : s.host = move :: rest) :
    s.popHost = { s with host := rest } := by
  simp [State.popHost, h]

theorem step_present {s : State} {p : Presented} {rest : List HostMove} {i : Instr}
    (h : s.host = .present p :: rest) (hd : decode p = .ok i) : step s = exec i s.popHost := by
  simp [step, h, hd]

theorem step_idle {s : State} (h : s.host = []) : step s = .next s := by
  simp [step, h]

/-- Settles O4: a presented instruction is run on the state with its move taken, and an empty port idles. -/
theorem stepRunsThePresentedInstruction : Obligations.StepRunsThePresentedInstruction := by
  unfold Obligations.StepRunsThePresentedInstruction
  refine ⟨fun s p rest i h hd => ?_, fun s h => step_idle h⟩
  rw [step_present h hd, State.popHost_eq h]

/-! ### Right after reset (rules R25, R172) -/

theorem Servo.atReset_of_cal {p : ServoParams} {c : ServoCal} (h : p.cal = some c) :
    Servo.atReset p =
      ⟨p.name, p.ch, some c.alpha0, some c.alpha1, some c.beta, some c.minDuty, some c.maxDuty⟩ := by
  simp [Servo.atReset, h]

theorem Servo.atReset_of_no_cal {p : ServoParams} (h : p.cal = none) :
    Servo.atReset p = ⟨p.name, p.ch, none, none, none, none, none⟩ := by
  simp [Servo.atReset, h]

theorem State.resetWith_servo {cfg : Config} {k : Nat} {p : ServoParams} (h : cfg.servos[k]? = some p) :
    (State.resetWith cfg).servos[k]? = some (Servo.atReset p) := by
  simp [State.resetWith, h]

/-- Settles O7: `State.resetWith` field by field; a Servo unit by whether `CAL_INIT` gives its coefficients. -/
theorem resetStateValues : Obligations.ResetStateValues := by
  unfold Obligations.ResetStateValues
  refine ⟨fun cfg => ⟨rfl, rfl, rfl, rfl, rfl, rfl, rfl, List.length_map _, fun k p hp => ?_⟩, rfl, rfl, rfl, rfl⟩
  rw [State.resetWith_servo hp]
  split
  · rw [Servo.atReset_of_cal ‹_›]
  · rw [Servo.atReset_of_no_cal ‹_›]

/-! ### The end of an instruction (rules R11, R151, R153) -/

section
variable (i : Instr) (s : State)

@[simp] theorem endOf_raised (e : ErrorInfo) : endOf i (.raised e s) = s.takeError e := by
  unfold endOf
  split <;> rfl

@[simp] theorem endOf_refused (r : Reason) : endOf i (.refused r s) = s.takeRefusal r := by
  unfold endOf
  split <;> rfl

@[simp] theorem endOf_done_resp (r : Result) : (endOf i (.done r s)).resp = some (.ok r) := by
  unfold endOf
  split <;> rfl

@[simp] theorem endOf_done_latch (r : Result) : (endOf i (.done r s)).latch = s.latch := by
  unfold endOf
  split <;> rfl

@[simp] theorem endOf_done_cmdidx (r : Result) :
    (endOf i (.done r s)).cmdidx = if isCommand i then s.cmdidx + 1 else s.cmdidx := by
  unfold endOf
  split <;> rfl

end

/-- Settles O11: an entered instruction is a run of its pseudocode (`exec_effect`), which leaves the latch and `cmdidx`
alone, and each of the three ways the run can stop is one of the three outcomes. -/
theorem threeOutcomesKeptApart : Obligations.ThreeOutcomesKeptApart := by
  unfold Obligations.ThreeOutcomesKeptApart
  intro i s hl
  obtain ⟨x, hx, hall⟩ := exec_effect i s hl
  refine ⟨endOf i x, hx, ?_⟩
  cases x with
  | done r t =>
    have e : Effect i s t := hall
    exact .inl ⟨r, by simp, by simp [e.latch, hl], by simp [e.cmdidx]⟩
  | raised err t =>
    have e : Effect i s t := hall
    exact .inr (.inl ⟨err, by simp, by simp, by simp [e.cmdidx]⟩)
  | refused r t =>
    obtain ⟨hr, e⟩ : r ≠ .faulted ∧ Effect i s t := hall
    exact .inr (.inr ⟨r, hr, by simp, by simp, by simp [e.cmdidx]⟩)

/-! ### `round_T` (rule R7) -/

theorem abs_roundT_sub_le (t : RoundTie) (x : Rat) : |(roundT t x : Rat) - x| ≤ 1 / 2 := by
  have hlow : (x.floor : Rat) ≤ x := Rat.floor_le x
  have hhigh : x < ((x.floor + 1 : Int) : Rat) := Rat.lt_floor_add_one x
  rw [abs_le]
  rcases roundT_cases t x with ⟨h, hd⟩ | ⟨h, hd⟩ <;> rw [h]
  · constructor <;> linarith
  · push_cast at hhigh ⊢
    constructor <;> linarith

section
variable {x : Rat} (h : x - (x.floor : Rat) = 1 / 2)
include h

theorem roundT_halfEven_tie : roundT .halfEven x = if x.floor % 2 = 0 then x.floor else x.floor + 1 := by
  simp [roundT, h]

theorem roundT_halfAway_tie : roundT .halfAway x = if x < 0 then x.floor else x.floor + 1 := by
  simp [roundT, h]

theorem roundT_halfUp_tie : roundT .halfUp x = x.floor + 1 := by
  simp [roundT, h]

theorem roundT_halfEven_tie_even : roundT .halfEven x % 2 = 0 := by
  rw [roundT_halfEven_tie h]
  split <;> omega

theorem abs_lt_abs_roundT_halfAway_tie : |x| < |(roundT .halfAway x : Rat)| := by
  rw [roundT_halfAway_tie h]
  split
  · have hx : (x.floor : Rat) < x := by linarith
    rw [abs_of_neg ‹x < 0›, abs_of_neg (by linarith)]
    linarith
  · have hx : x < (x.floor : Rat) + 1 := by linarith
    push_cast
    rw [abs_of_nonneg (by linarith), abs_of_nonneg (by linarith)]
    exact hx

end

theorem roundT_halfAway_eq_halfUp {x : Rat} (h : 0 ≤ x) : roundT .halfAway x = roundT .halfUp x := by
  simp [roundT, not_lt.mpr h]

/-- A tie is a number half way between two integers. -/
theorem sub_floor_eq_half_iff (x : Rat) : x - (x.floor : Rat) = 1 / 2 ↔ ∃ k : Int, x = k + 1 / 2 := by
  constructor
  · intro h
    exact ⟨x.floor, by linarith⟩
  · rintro ⟨k, rfl⟩
    have hk : ((k : Rat) + 1 / 2).floor = k := by
      refine le_antisymm (Int.lt_add_one_iff.mp (Rat.floor_lt_iff.mpr ?_)) (Rat.le_floor_iff.mpr ?_)
      · push_cast
        linarith
      · linarith
    rw [hk]
    ring

/-- The ties of `intCycle` (rule R53). -/
theorem duty_tie_iff (d : Rat) :
    d * 4096 - ((d * 4096).floor : Rat) = 1 / 2 ↔ ∃ k : Int, d = (2 * (k : Rat) + 1) / 8192 := by
  rw [sub_floor_eq_half_iff]
  refine exists_congr fun k => ?_
  constructor <;> intro h <;> linarith

/-! ### `clamp` (rule R8) -/

theorem clamp_eq_max_min (x : Rat) {lo hi : Rat} (h : lo ≤ hi) : clamp x lo hi = max lo (min x hi) := by
  unfold clamp
  split
  case isTrue hlo =>
    rw [min_eq_left (hlo.le.trans h), max_eq_left hlo.le]
  case isFalse hlo =>
    split
    case isTrue hhi => rw [min_eq_right hhi.le, max_eq_right h]
    case isFalse hhi => rw [min_eq_left (not_lt.mp hhi), max_eq_right (not_lt.mp hlo)]

theorem clamp_crossed (x : Rat) {lo hi : Rat} (h : hi < lo) : clamp x lo hi = if x < lo then lo else hi := by
  unfold clamp
  split
  · rfl
  case isFalse hlo => rw [if_pos (h.trans_le (not_lt.mp hlo))]

/-- Settles O19, clause by clause from the lemmas on `round_T` and `clamp`. -/
theorem roundingAndClamping : Obligations.RoundingAndClamping := by
  unfold Obligations.RoundingAndClamping
  exact ⟨abs_roundT_sub_le,
    fun _ h => ⟨roundT_halfEven_tie_even h, abs_lt_abs_roundT_halfAway_tie h, roundT_halfUp_tie h⟩,
    fun _ => roundT_halfAway_eq_halfUp, duty_tie_iff, fun x _ _ => clamp_eq_max_min x,
    fun x _ _ => clamp_crossed x⟩

end Sys2Proof.Machine
end

section
/-! SUPPORT. The claims of 10_state.md: what an ended instruction leaves unchanged (from `exec_effect`), the invariant
of the reachable states, the fault latch, `MSET`, `CALSAVE` and the byte rows of `SETFREQ`. -/

namespace Sys2Proof.Machine

/-! ### What an ended instruction has done -/

/-- Entered with the latch set, every instruction is refused: a command by its entry step (rule R150 (1)), a byte-format
row by the same one (log entry 7). -/
theorem exec_latched {s : State} (hl : s.latch ≠ none) (i : Instr) : exec i s = .next s.refuseFaulted := by
  have command : ∀ body, exec i s = .next (runCommand body s) → exec i s = .next s.refuseFaulted := fun body h => by
    rw [h, runCommand_latched hl]
  have format : ∀ body, exec i s = .next (runFormat body s) → exec i s = .next s.refuseFaulted := fun body h => by
    rw [h, runFormat_latched hl]
  cases i with
  | blkEncLinear n => exact format _ rfl
  | blkEncFullOn => exact format _ rfl
  | blkEncFullOffDoc => exact format _ rfl
  | blkEncFullOffNative => exact format _ rfl
  | blkDecFoff rHi f rLo fon n => exact format _ rfl
  | blkDecFon rHi f rLo n => exact format _ rfl
  | blkDecLinear rHi f rLo n => exact format _ rfl
  | setfreqW1 e a x y z c => exact format _ rfl
  | setfreqW3 r e a sl x y z c => exact format _ rfl
  | setfreqW4 r e sl x y z c => exact format _ rfl
  | setfreqW2 p => exact format _ rfl
  | _ => exact command _ rfl

/-- Settles O10: the entry step of every instruction refuses while the latch is set. -/
theorem setLatchRefusesEveryInstruction : Obligations.SetLatchRefusesEveryInstruction := by
  unfold Obligations.SetLatchRefusesEveryInstruction
  exact fun i s hl => exec_latched hl i

theorem Effect.of_outcome {i : Instr} {s t u : State} (e : Effect i s t)
    (hu : { u with latch := t.latch, cmdidx := t.cmdidx, resp := t.resp } = t) :
    Effect i s { u with latch := s.latch, cmdidx := s.cmdidx, resp := s.resp } := by
  rwa [← e.latch, ← e.cmdidx, ← e.resp, hu]

/-- The end of an instruction writes the latch, `cmdidx` and the response, and nothing else. -/
theorem Effect.of_endOf {i : Instr} {s : State} {x : Run Result} (h : x.All (Effect i s)) :
    Effect i s { endOf i x with latch := s.latch, cmdidx := s.cmdidx, resp := s.resp } := by
  cases x with
  | done r t =>
    refine Effect.of_outcome h ?_
    unfold endOf
    split <;> rfl
  | raised e t =>
    rw [endOf_raised]
    exact Effect.of_outcome h rfl
  | refused r t =>
    rw [endOf_refused]
    exact Effect.of_outcome h.2 rfl

/-- Apart from the outcome it reports, an instruction does what `Effect` allows, entered or refused. -/
theorem exec_next_effect {i : Instr} {s s' : State} (h : exec i s = .next s') :
    Effect i s { s' with latch := s.latch, cmdidx := s.cmdidx, resp := s.resp } := by
  by_cases hl : s.latch = none
  · obtain ⟨x, hx, hall⟩ := exec_effect i s hl
    cases hx.symm.trans h
    exact Effect.of_endOf hall
  · cases (exec_latched hl i).symm.trans h
    exact Effect.none

/-! ### The registers an instruction writes (rules R14 to R17) -/

/-- The list is as before but at `n`, where an element may have been replaced by one that `R` relates to it. -/
def ReplacedAt {α : Type} (n : Nat) (R : α → α → Prop) (l l' : List α) : Prop :=
  l' = l ∨ ∃ a b, l[n]? = some a ∧ R a b ∧ l' = l.set n b

theorem ReplacedAt.map_eq {α β : Type} {n : Nat} {R : α → α → Prop} {l l' : List α} (h : ReplacedAt n R l l')
    (f : α → β) (hf : ∀ a b, R a b → f b = f a) : l'.map f = l.map f := by
  obtain rfl | ⟨a, b, ha, hab, rfl⟩ := h
  · rfl
  · obtain ⟨hn, rfl⟩ := List.getElem?_eq_some_iff.mp ha
    rw [List.map_set, hf _ _ hab, ← List.map_set, List.set_getElem_self]

theorem ReplacedAt.getElem?_ne {α : Type} {n k : Nat} {R : α → α → Prop} {l l' : List α} (h : ReplacedAt n R l l')
    (hk : k ≠ n) : l'[k]? = l[k]? := by
  obtain rfl | ⟨a, b, -, -, rfl⟩ := h
  · rfl
  · exact List.getElem?_set_ne hk.symm

section
variable {i : Instr} {s t : State}

theorem regEffect_freq (h : regEffect i s t) :
    t.freq = s.freq ∨ ∃ hz, i = .setfreq hz ∧ 0 < hz ∧ t.freq = some hz := by
  cases i with
  | setfreq hz => exact h.1.imp_right fun ⟨hpos, hf⟩ => ⟨hz, rfl, hpos, hf⟩
  | _ => exact .inl h.1

theorem regEffect_mset {u : Int} {x : Rat} (h : regEffect (.mset u x) s t) :
    ReplacedAt u.toNat (fun m m' => m' = { m with value := some x }) s.motors t.motors :=
  h.2.2.imp_right fun ⟨m, hm, ht⟩ => ⟨m, _, hm, rfl, ht⟩

theorem regEffect_mwr {u f : Int} {x : Rat} (h : regEffect (.mwr u f x) s t) :
    ReplacedAt u.toNat (fun m m' => m' = { m with alpha := x } ∨ m' = { m with beta := x }) s.motors t.motors :=
  h.2.2.imp_right fun ⟨m, hm, ht⟩ => ht.elim (fun ht => ⟨m, _, hm, .inl rfl, ht⟩) fun ht => ⟨m, _, hm, .inr rfl, ht⟩

/-- The three commands that write the registers of one Servo unit. -/
def writesOneServo (u : Int) (i : Instr) : Prop :=
  (∃ a b c, i = .sconfig u a b c) ∨ i = .srev u ∨ ∃ f x, i = .swr u f x

theorem regEffect_oneServo {u : Int} (hi : writesOneServo u i) (h : regEffect i s t) :
    ReplacedAt u.toNat (fun v w => w.binding = v.binding) s.servos t.servos := by
  obtain ⟨a, b, c, rfl⟩ | rfl | ⟨f, x, rfl⟩ := hi <;> exact h.2.2

theorem regEffect_motor_bindings (h : regEffect i s t) : t.motors.map Motor.binding = s.motors.map Motor.binding := by
  cases i with
  | mset u x => exact (regEffect_mset h).map_eq _ fun _ _ hm => by rw [hm]; rfl
  | mwr u f x => exact (regEffect_mwr h).map_eq _ fun _ _ hm => by rcases hm with rfl | rfl <;> rfl
  | calload doc =>
    obtain ⟨-, hbindings, -⟩ := h
    exact hbindings
  | _ =>
    obtain ⟨-, hmotors, -⟩ := h
    rw [hmotors]

theorem regEffect_motor_values (hi : ∀ u x, i ≠ .mset u x) (h : regEffect i s t) :
    t.motors.map (·.value) = s.motors.map (·.value) := by
  cases i with
  | mset u x => exact absurd rfl (hi u x)
  | mwr u f x => exact (regEffect_mwr h).map_eq _ fun _ _ hm => by rcases hm with rfl | rfl <;> rfl
  | calload doc =>
    obtain ⟨-, -, hvalues, -⟩ := h
    exact hvalues
  | _ =>
    obtain ⟨-, hmotors, -⟩ := h
    rw [hmotors]

theorem regEffect_motor_coefficients (hw : ∀ u f x, i ≠ .mwr u f x) (hc : ∀ doc, i ≠ .calload doc)
    (h : regEffect i s t) :
    t.motors.map (fun m => (m.alpha, m.beta)) = s.motors.map (fun m => (m.alpha, m.beta)) := by
  cases i with
  | mset u x => exact (regEffect_mset h).map_eq _ fun _ _ hm => by rw [hm]
  | mwr u f x => exact absurd rfl (hw u f x)
  | calload doc => exact absurd rfl (hc doc)
  | _ =>
    obtain ⟨-, hmotors, -⟩ := h
    rw [hmotors]

theorem regEffect_servos (h : regEffect i s t) :
    t.servos = s.servos ∨ (∃ u, writesOneServo u i) ∨ ∃ doc, i = .calload doc := by
  cases i with
  | sconfig u a b c => exact .inr (.inl ⟨u, .inl ⟨a, b, c, rfl⟩⟩)
  | srev u => exact .inr (.inl ⟨u, .inr (.inl rfl)⟩)
  | swr u f x => exact .inr (.inl ⟨u, .inr (.inr ⟨f, x, rfl⟩)⟩)
  | calload doc => exact .inr (.inr ⟨doc, rfl⟩)
  | mset u x =>
    obtain ⟨-, hservos, -⟩ := h
    exact .inl hservos
  | mwr u f x =>
    obtain ⟨-, hservos, -⟩ := h
    exact .inl hservos
  | _ =>
    obtain ⟨-, -, hservos⟩ := h
    exact .inl hservos

theorem regEffect_servo_bindings (h : regEffect i s t) : t.servos.map Servo.binding = s.servos.map Servo.binding := by
  obtain he | ⟨u, hu⟩ | ⟨doc, rfl⟩ := regEffect_servos h
  · rw [he]
  · exact (regEffect_oneServo hu h).map_eq _ fun _ _ hv => hv
  · obtain ⟨-, -, -, hbindings⟩ := h
    exact hbindings

end

/-- Settles O17, clause by clause from `regEffect`. -/
theorem registerFrames : Obligations.RegisterFrames := by
  unfold Obligations.RegisterFrames
  intro i s s' h
  have e : regEffect i s { s' with latch := s.latch, cmdidx := s.cmdidx, resp := s.resp } := (exec_next_effect h).regs
  have oneServo : ∀ u k, writesOneServo u i → k ≠ u.toNat → s'.servos[k]? = s.servos[k]? :=
    fun u k hi hk => (regEffect_oneServo hi e).getElem?_ne hk
  refine ⟨fun hi => ?_, fun hi => regEffect_motor_values hi e, fun hw hc => regEffect_motor_coefficients hw hc e,
    fun hconf hrev hswr hload => ?_, ?_, ?_, fun u a b c k hi => oneServo u k (.inl ⟨a, b, c, hi⟩),
    fun u k hi => oneServo u k (.inr (.inl hi)), fun u f x k hi => oneServo u k (.inr (.inr ⟨f, x, hi⟩))⟩
  · exact (regEffect_freq e).resolve_right fun ⟨hz, hhz, _⟩ => hi hz hhz
  · refine (regEffect_servos e).resolve_right ?_
    rintro (⟨u, ⟨a, b, c, hi⟩ | hi | ⟨f, x, hi⟩⟩ | ⟨doc, hi⟩)
    · exact hconf u a b c hi
    · exact hrev u hi
    · exact hswr u f x hi
    · exact hload doc hi
  · rintro u x k rfl hk
    exact (regEffect_mset e).getElem?_ne hk
  · rintro u f x k rfl hk
    exact (regEffect_mwr e).getElem?_ne hk

/-! ### The trace (rules R32, R35, R36, R80) -/

/-- Settles O13, from `Effect`: the bindings stand because no register write touches them. -/
theorem bindingsStandAndTraceGrows : Obligations.BindingsStandAndTraceGrows := by
  unfold Obligations.BindingsStandAndTraceGrows
  intro i s s' h
  have e := exec_next_effect h
  obtain ⟨new, htrace, hturns, hcount, -⟩ := e.grows
  exact ⟨e.cfg, e.host, e.busMode, regEffect_motor_bindings e.regs, regEffect_servo_bindings e.regs,
    new, htrace, hturns, hcount⟩

theorem Effect.new_mayIssue {i : Instr} {s t : State} (e : Effect i s t) {x : Xact}
    (hx : x ∈ t.trace.drop s.trace.length) : mayIssue i s.cfg x := by
  obtain ⟨new, htrace, -, -, hok, -⟩ := e.grows
  rw [htrace, List.drop_left] at hx
  exact hok x hx

/-- Whole blocks in registers: inside 0x06..0x45, aligned, and a multiple of four bytes (rules R35, R52). -/
theorem wholeBlocks_registers {reg len : Nat} (h : wholeBlocks reg len) :
    0x06 ≤ reg ∧ reg + len ≤ 0x46 ∧ (reg - 0x06) % 4 = 0 ∧ len % 4 = 0 ∧ 4 ≤ len := by
  obtain ⟨ch, n, hn, hch, rfl, rfl⟩ := h
  simp only [led0OnL]
  omega

/-- Settles O16: each new transaction is of a kind `mayIssue` allows. -/
theorem transactionsStayInTheirRegisters : Obligations.TransactionsStayInTheirRegisters := by
  unfold Obligations.TransactionsStayInTheirRegisters
  intro i s s' h x hx
  have hmay : mayIssue i s.cfg x := (exec_next_effect h).new_mayIssue hx
  unfold mayIssue at hmay
  split
  case isTrue hi =>
    rw [if_pos hi] at hmay
    obtain ⟨-, hregisters⟩ := hmay
    exact hregisters
  case isFalse hi =>
    rw [if_neg hi] at hmay
    obtain ⟨-, -, hblocks⟩ := hmay
    exact wholeBlocks_registers hblocks

theorem mayIssue_ok {i : Instr} {cfg : Config} {x : Xact} (h : mayIssue i cfg x) : x.ok cfg := by
  unfold mayIssue at h
  split at h
  · obtain ⟨hok, -⟩ := h
    exact hok
  · obtain ⟨-, hok, -⟩ := h
    exact hok

/-! ### The invariant -/

/-- A reset gives the invariant back, whatever it finds but the register file (rules R170, R171). -/
theorem Invariant.of_resetBlock {s : State} (hchip : Memory.wf s.chip = true) (cfg : Config) :
    Invariant (s.resetBlock cfg) where
  chip_wf := hchip
  freq_pos := nofun
  motors_bound := List.map_map
  servos_bound := List.map_map
  trace_ok := nofun
  latch_first := nofun
  resp_latched := nofun

/-- Settles O8: right after reset the machine is as a reset with the same parameters would leave it, its register file
empty. -/
theorem resetMeetsInvariant : Obligations.ResetMeetsInvariant := by
  unfold Obligations.ResetMeetsInvariant
  have resetWith : ∀ cfg, Invariant (State.resetWith cfg) := fun cfg =>
    Invariant.of_resetBlock (s := State.resetWith cfg) Memory.wf_nil cfg
  exact ⟨resetWith Config.documented, resetWith⟩

namespace Invariant
variable {s : State} (hI : Invariant s)
include hI

theorem popHost : Invariant s.popHost := { hI with }

theorem takeError (e : ErrorInfo) : Invariant (s.takeError e) := { hI with latch_first := nofun, resp_latched := nofun }

theorem takeRefusal {r : Reason} (hr : r ≠ .faulted) : Invariant (s.takeRefusal r) :=
  { hI with
    latch_first := fun h => hr (by injection h with h; injection h)
    resp_latched := nofun }

theorem refuseFaulted (hl : s.latch ≠ none) : Invariant s.refuseFaulted :=
  { hI with resp_latched := fun h => absurd h hl }

theorem endOf_done (i : Instr) (r : Result) : Invariant (endOf i (.done r s)) := by
  unfold endOf
  split <;> exact { hI with resp_latched := fun _ _ h => ⟨r, (Option.some.inj h).symm⟩ }

theorem of_effect {i : Instr} {t : State} (e : Effect i s t) : Invariant t where
  chip_wf := e.chip_wf hI.chip_wf
  freq_pos := by
    intro hz hhz
    obtain hf | ⟨_, -, hpos, hf⟩ := regEffect_freq e.regs
    · exact hI.freq_pos hz (hf ▸ hhz)
    · cases hf.symm.trans hhz
      exact hpos
  motors_bound := by rw [regEffect_motor_bindings e.regs, hI.motors_bound, e.cfg]
  servos_bound := by rw [regEffect_servo_bindings e.regs, hI.servos_bound, e.cfg]
  trace_ok := by
    obtain ⟨new, htrace, -, -, hnew, -⟩ := e.grows
    intro x hx
    rw [e.cfg]
    rw [htrace] at hx
    exact (List.mem_append.mp hx).elim (hI.trace_ok x) fun hx => mayIssue_ok (hnew x hx)
  latch_first := e.latch ▸ hI.latch_first
  resp_latched := by
    rw [e.latch, e.resp]
    exact hI.resp_latched

theorem of_exec {i : Instr} {s' : State} (h : exec i s = .next s') : Invariant s' := by
  by_cases hl : s.latch = none
  · obtain ⟨x, hx, hall⟩ := exec_effect i s hl
    cases hx.symm.trans h
    cases x with
    | done r t => exact (hI.of_effect hall).endOf_done i r
    | raised e t => simpa using (hI.of_effect hall).takeError e
    | refused r t => simpa using (hI.of_effect hall.2).takeRefusal hall.1
  · cases (exec_latched hl i).symm.trans h
    exact hI.refuseFaulted hl

theorem of_reservedOpcode : Invariant (reservedOpcode s) := by
  by_cases hl : s.latch = none
  · rw [reservedOpcode, runCommand_ready hl]
    exact hI.takeRefusal nofun
  · rw [reservedOpcode, runCommand_latched hl]
    exact hI.refuseFaulted hl

end Invariant

/-- All a step that gives a next state can be: idling, a reset, an instruction, or a reserved opcode (rules R65, R154,
R188). -/
theorem step_cases {s s' : State} (h : step s = .next s') :
    (s.host = [] ∧ s' = s) ∨
    (∃ cfg rest, s.host = .reset cfg :: rest ∧ s' = s.popHost.resetBlock cfg) ∨
    (∃ p rest, s.host = .present p :: rest ∧
      ((∃ i, decode p = .ok i ∧ exec i s.popHost = .next s') ∨
       (decode p = .error .reservedOpcode ∧ s' = reservedOpcode s.popHost))) := by
  unfold step at h
  split at h
  case h_1 hhost => exact .inl ⟨hhost, by cases h; rfl⟩
  case h_2 cfg rest hhost => exact .inr (.inl ⟨cfg, rest, hhost, by cases h; rfl⟩)
  case h_3 p rest hhost =>
    refine .inr (.inr ⟨p, rest, hhost, ?_⟩)
    split at h
    case h_1 i hi => exact .inl ⟨i, hi, h⟩
    case h_2 hi => exact .inr ⟨hi, by cases h; rfl⟩
    case h_3 => cases h
    case h_4 => cases h

/-- Settles O9: the invariant through each kind of step. -/
theorem stepKeepsInvariant : Obligations.StepKeepsInvariant := by
  unfold Obligations.StepKeepsInvariant
  intro s s' hI h
  obtain ⟨-, rfl⟩ | ⟨cfg, -, -, rfl⟩ | ⟨p, -, -, ⟨i, -, hi⟩ | ⟨-, rfl⟩⟩ := step_cases h
  · exact hI
  · exact Invariant.of_resetBlock (s := s.popHost) hI.chip_wf cfg
  · exact hI.popHost.of_exec hi
  · exact hI.popHost.of_reservedOpcode

/-! ### The fault latch (rules R12, R157) -/

/-- Settles O12: with the latch set, every step but a reset leaves it. -/
theorem onlyResetClearsTheLatch : Obligations.OnlyResetClearsTheLatch := by
  unfold Obligations.OnlyResetClearsTheLatch
  intro s s' f hf hhost h
  have hl : s.popHost.latch ≠ none := by simp [hf]
  obtain ⟨-, rfl⟩ | ⟨cfg, rest, hr, -⟩ | ⟨p, -, -, ⟨i, -, hi⟩ | ⟨-, rfl⟩⟩ := step_cases h
  · exact hf
  · exact absurd hr (hhost cfg rest)
  · cases (exec_latched hl i).symm.trans hi
    exact hf
  · rw [reservedOpcode, runCommand_latched hl]
    exact hf

/-! ### `MSET` (rules R16, R101) -/

theorem motorWriteLegs_contiguous {a b : Int} (h : b = a + 1) (legs : Rat × Rat) (s : State) :
    motorWriteLegs a b legs s = driverSetRange a 2 [legs.1, legs.2] s := if_pos h

theorem motorWriteLegs_split {a b : Int} (h : b ≠ a + 1) (legs : Rat × Rat) (s : State) :
    motorWriteLegs a b legs s = (driverSetDc a legs.1 s).andThen fun _ t => driverSetDc b legs.2 t := if_neg h

theorem endCommand_motors {x : Run Result} {ms : List Motor} (h : x.All fun t => t.motors = ms) :
    (endCommand x).motors = ms := by
  cases x with
  | done r t => exact h
  | raised e t => exact h
  | refused r t => exact h.2

theorem State.accepts_setMotor {s : State} {u : Int} {m : Motor} {k : Nat} :
    (s.setMotor u m).accepts k ↔ s.accepts k := Iff.rfl

section
variable {s : State} {u : Int} {speed : Rat} {m : Motor} (hl : s.latch = none) (hu : 0 ≤ u)
  (hm : s.motors[u.toNat]? = some m)
include hl hu hm

/-- `MSET` of a unit there is: the speed cached, then the legs written. -/
theorem exec_mset : exec (.mset u speed) s = .next (endCommand
    (motorWriteLegs m.a m.b (legsOf (motorDrive m.alpha m.beta speed))
      (s.setMotor u { m with value := some speed }))) := by
  have hrun : exec (.mset u speed) s = .next (runCommand (withMotor u fun m s =>
    motorWriteLegs m.a m.b (legsOf (motorDrive m.alpha m.beta speed))
      (s.setMotor u { m with value := some speed })) s) := rfl
  rw [hrun, runCommand_ready hl, withMotor_some _ (State.motor?_eq hu hm)]

theorem exec_mset_split_legA (hb : m.b ≠ m.a + 1) (ha0 : 0 ≤ m.a) (ha1 : m.a ≤ 15) (hacc : s.accepts 0) :
    exec (.mset u speed) s = .next (endCommand (driverSetDc m.b (legsOf (motorDrive m.alpha m.beta speed)).2
      ((s.setMotor u { m with value := some speed }).wrote
        [(0x06 + 4 * m.a.toNat, (encodedBlock s.cfg (legsOf (motorDrive m.alpha m.beta speed)).1).toBytes)]))) := by
  obtain ⟨⟨hlow, hhigh⟩, -⟩ := legs_in_range m.alpha m.beta speed
  rw [exec_mset hl hu hm, motorWriteLegs_split hb,
    driverSetDc_ok ha0 ha1 hlow hhigh (State.accepts_setMotor.mpr hacc)]
  rfl

end

/-- Settles O42: both legs are duty cycles, so the contiguous path is one `SETRANGE` that completes. -/
theorem msetContiguousBurst : Obligations.MsetContiguousBurst := by
  unfold Obligations.MsetContiguousBurst
  intro s u speed m hl hu hm hb ha0 ha1 hacc
  obtain ⟨hleg1, hleg2⟩ := legs_in_range m.alpha m.beta speed
  have hlegs : ∀ d ∈ [(legsOf (motorDrive m.alpha m.beta speed)).1, (legsOf (motorDrive m.alpha m.beta speed)).2],
      0 ≤ d ∧ d ≤ 1 := List.forall_mem_cons.mpr ⟨hleg1, List.forall_mem_singleton.mpr hleg2⟩
  rw [exec_mset hl hu hm, motorWriteLegs_contiguous hb,
    driverSetRange_ok (n := 2) (by decide) rfl ha0 (by omega) hlegs (State.accepts_setMotor.mpr hacc)]
  rfl

/-- Settles O43: leg A's write, then leg B's on the state it leaves. -/
theorem msetSplitWrites : Obligations.MsetSplitWrites := by
  unfold Obligations.MsetSplitWrites
  intro s u speed m hl hu hm hb ha0 ha1 hb0 hb1 hacc0 hacc1
  obtain ⟨-, hlow, hhigh⟩ := legs_in_range m.alpha m.beta speed
  rw [exec_mset_split_legA hl hu hm hb ha0 ha1 hacc0,
    driverSetDc_ok hb0 hb1 hlow hhigh (State.accepts_wrote.mpr hacc1), State.wrote_wrote]
  rfl

/-- Settles O44: the legs' writes leave the Motor registers as the cached command made them, and a bad binding is
reported where the path first meets it. -/
theorem msetCachesThenReportsBadChannels : Obligations.MsetCachesThenReportsBadChannels := by
  unfold Obligations.MsetCachesThenReportsBadChannels
  intro s u speed m hl hu hm
  refine ⟨⟨_, exec_mset hl hu hm, ?_⟩, fun hb ha => ?_, fun hb ha => ?_, fun hb ha0 ha1 hbad hacc => ?_⟩
  · exact endCommand_motors ((motorWriteLegs_effect _ _ _ _).mono fun _ k => k.motors)
  · rw [exec_mset hl hu hm, motorWriteLegs_contiguous hb, driverSetRange_badRange (n := 2) (by decide) rfl (by omega)]
    rfl
  · rw [exec_mset hl hu hm, motorWriteLegs_split hb, driverSetDc_badChannel ha]
    rfl
  · rw [exec_mset_split_legA hl hu hm hb ha0 ha1 hacc, driverSetDc_badChannel hbad]
    rfl

/-! ### `CALSAVE` (rules R13, R136) -/

section
variable {s : State} (hl : s.latch = none)
include hl

theorem exec_calsave_ok {doc : DocMap} (h : saveServos 0 s.servos (saveMotors s.motors []) = .ok doc) :
    exec .calsave s = .next (s.complete (.doc doc)) := by
  simp [exec, execCalsave, runCommand_ready hl, h]

theorem exec_calsave_unset {r : RegName} (h : saveServos 0 s.servos (saveMotors s.motors []) = .error r) :
    exec .calsave s = .next (s.takeRefusal (.unset r)) := by
  simp [exec, execCalsave, runCommand_ready hl, h]

end

/-- Settles O56: the Motor units are put into the empty document and the Servo units into what that gives; distinct keys
keep the entries apart. -/
theorem calsaveWritesTheFullDocument : Obligations.CalsaveWritesTheFullDocument := by
  unfold Obligations.CalsaveWritesTheFullDocument
  intro s hl
  refine ⟨fun hset => ?_, fun ⟨w, hw, hunset⟩ => ?_⟩
  · obtain ⟨doc, hdoc⟩ := saveServos_total s.servos 0 (saveMotors s.motors []) fun v hv => Servo.cal?_total (hset v hv)
    refine ⟨doc, exec_calsave_ok hl hdoc, fun hkeys => ?_⟩
    obtain ⟨hmnodup, -, hapart⟩ := List.nodup_append.mp hkeys
    obtain ⟨hmkeys, hmotors, -⟩ := saveMotors_spec s.motors [] hmnodup
    rw [List.map_nil, List.nil_append] at hmkeys
    obtain ⟨hskeys, hservos, hrest⟩ := saveServos_spec s.servos 0 (saveMotors s.motors []) doc (by rwa [hmkeys]) hdoc
    refine ⟨fun m hm => ?_, fun v hv => ?_, by rw [hskeys, hmkeys]⟩
    · rw [hrest m.name fun hmem => hapart _ (List.mem_map_of_mem hm) _ hmem rfl, hmotors m hm]
    · obtain ⟨c, hc, hlook⟩ := hservos v hv
      obtain ⟨h0, h1, hb, hlo, hhi⟩ := Servo.cal?_ok hc
      exact ⟨_, _, _, _, _, h0, h1, hb, hlo, hhi, hlook⟩
  · obtain ⟨k, v, f, hv, hf, he⟩ :=
      saveServos_unset s.servos 0 (saveMotors s.motors []) ⟨w, hw, Servo.cal?_unset hunset⟩
    rw [Nat.zero_add] at he
    exact ⟨k, v, f, hv, hf, exec_calsave_unset hl he⟩

/-! ### The byte rows of `SETFREQ` (rules R19, R63) -/

theorem sleepByte_mode1Byte : ∀ r e a sl x y z c : Bool,
    sleepByte (mode1Byte r e a sl x y z c) = mode1Byte false e a true x y z c := by decide

theorem wakeByte_mode1Byte : ∀ r e a sl x y z c : Bool,
    wakeByte (mode1Byte r e a sl x y z c) = mode1Byte r e true sl x y z c := by decide

theorem runFormat_writeOneByte {s : State} (hl : s.latch = none) (hacc : s.accepts 0) (reg : Nat) (b : Byte) :
    runFormat (writeOneByte reg b) s = (s.wrote [(reg, [b])]).answer .none := by
  rw [runFormat_ready hl, writeOneByte, busWrite_accepted hacc, State.afterWrite_eq_wrote]
  rfl

/-- The register a write of `SETFREQ` goes to (rule R63). -/
def setfreqRegister : SetfreqWrite → Nat
  | .w1 => regMode1
  | .w2 => regPrescale
  | .w3 => regMode1
  | .w4 => regMode1

/-- A byte row is one write of its word's byte to its register (log entry 7). -/
theorem exec_setfreqByte {s : State} (hl : s.latch = none) (hacc : s.accepts 0) (i : Instr) (k : SetfreqWrite)
    {b : Byte} (hi : encode i = .setfreqByte k b) :
    exec i s = .next ((s.wrote [(setfreqRegister k, [b])]).answer .none) := by
  rw [← runFormat_writeOneByte hl hacc]
  cases i with
  | setfreqW1 e a x y z c => cases hi; rw [← sleepByte_mode1Byte false e a false]; rfl
  | setfreqW2 p => cases hi; rfl
  | setfreqW3 r e a sl x y z c => cases hi; rfl
  | setfreqW4 r e sl x y z c => cases hi; rw [← wakeByte_mode1Byte r e false]; rfl
  | _ => cases hi

/-- Settles O60: every row through `exec_setfreqByte`; the masks give the byte of the row's word whatever the two bits
they overwrite were. -/
theorem setfreqByteRowsWriteTheirByte : Obligations.SetfreqByteRowsWriteTheirByte := by
  unfold Obligations.SetfreqByteRowsWriteTheirByte
  intro s hl hacc
  have row : ∀ i k {b}, encode i = .setfreqByte k b →
      exec i s = .next ((s.wrote [(setfreqRegister k, [b])]).answer .none) :=
    fun i k _ hi => exec_setfreqByte hl hacc i k hi
  refine ⟨fun r e a sl x y z c => ⟨?_, ?_, ?_⟩, fun p => row (.setfreqW2 p) .w2 rfl, fun i k b hi => ?_⟩
  · exact row (.setfreqW3 r e a sl x y z c) .w3 rfl
  · exact row (.setfreqW1 e a x y z c) .w1 (congrArg _ (sleepByte_mode1Byte r e a sl x y z c).symm)
  · exact row (.setfreqW4 r e sl x y z c) .w4 (congrArg _ (wakeByte_mode1Byte r e a sl x y z c).symm)
  · rw [row i k hi]
    cases k <;> rfl

end Sys2Proof.Machine
end

section
/-! SUPPORT. The claims of 20_memory.md: which instructions leave the bus and the chip alone, what a write stores and
what it leaves, and what stands after a failed transaction of `SETFREQ` or `SETDC` or a bad element of `SETLIST`. -/

namespace Sys2Proof.Machine

/-! ### The chip and the instructions (rules R30, R36, R179) -/

theorem isQuiet_of_programsTimebase {i : Instr} (h : programsTimebase i = true) : isQuiet i = false := by
  cases i with
  | setfreq | setfreqW1 | setfreqW2 | setfreqW3 | setfreqW4 => rfl
  | _ => cases h

theorem not_mayIssue_of_isQuiet {i : Instr} (hi : isQuiet i = true) (cfg : Config) (x : Xact) :
    ¬ mayIssue i cfg x := by
  unfold mayIssue
  split
  case isTrue ht => simp [isQuiet_of_programsTimebase ht] at hi
  case isFalse => simp [hi]

/-- Settles O14: a quiet instruction may issue no transaction, so its trace has grown by none (`Effect`). -/
theorem quietInstructionsTouchNoBus : Obligations.QuietInstructionsTouchNoBus := by
  unfold Obligations.QuietInstructionsTouchNoBus
  intro i s s' hi h
  obtain ⟨new, htrace, hturns, hcount, hmay, -, hchip⟩ := (exec_next_effect h).grows
  have hnew : new = [] :=
    List.eq_nil_iff_forall_not_mem.mpr fun x hx => not_mayIssue_of_isQuiet hi s.cfg x (hmay x hx)
  subst hnew
  exact ⟨hchip rfl, by simpa using htrace, hturns, hcount⟩

/-- Settles O15: the frame of the chip that `Effect` carries, on the transactions that were added to the trace. -/
theorem chipChangesOnlyWhereWritten : Obligations.ChipChangesOnlyWhereWritten := by
  unfold Obligations.ChipChangesOnlyWhereWritten
  intro i s s' a h hnot
  obtain ⟨new, htrace, -, -, -, hframe, -⟩ := (exec_next_effect h).grows
  rw [show s'.trace = s.trace ++ new from htrace, List.drop_left] at hnot
  exact hframe a hnot

/-! ### Reading a burst back (rules R30, R45) -/

theorem Memory.readBytes_of_read? {m : Memory} {reg : Nat} {bs : List Byte}
    (h : ∀ k, k < bs.length → Memory.read? m (reg + k) = bs[k]?) : Memory.readBytes m reg bs.length = .ok bs := by
  induction bs generalizing reg with
  | nil => rfl
  | cons b bs ih =>
    have hfirst : Memory.read? m reg = some b := h 0 (Nat.succ_pos _)
    have hrest : Memory.readBytes m (reg + 1) bs.length = .ok bs := ih fun k hk => by
      rw [Nat.add_assoc, Nat.add_comm 1 k, h (k + 1) (Nat.succ_lt_succ hk), List.getElem?_cons_succ]
    simp [Memory.readBytes, hfirst, hrest]

theorem Memory.readBytes_writeBytes (m : Memory) (reg : Nat) (bs : List Byte) :
    Memory.readBytes (Memory.writeBytes m reg bs) reg bs.length = .ok bs :=
  Memory.readBytes_of_read? fun k hk => by
    rw [Memory.read?_writeBytes, if_pos ⟨Nat.le_add_right reg k, Nat.add_lt_add_left hk reg⟩, Nat.add_sub_cancel_left]

/-- Settles O18: the laws of `Memory.writeBytes`, for every burst. -/
theorem storedBytesReadBack : Obligations.StoredBytesReadBack := by
  unfold Obligations.StoredBytesReadBack
  exact fun m reg bs => ⟨Memory.read?_writeBytes m reg bs, Memory.readBytes_writeBytes m reg bs,
    fun hwf hreg => Memory.wf_writeBytes reg bs hreg hwf⟩

/-! ### After a failed transaction (rules R32, R33, R149) -/

theorem State.afterFailedRead_eq (s : State) (reg n : Nat) :
    s.afterFailedRead reg n = { s with
      trace := s.trace ++ [.readFailed s.cfg.deviceAddr reg n]
      turns := s.turns.drop 1
      busCount := s.busCount + 1 } := by
  rw [List.drop_one]
  rfl

theorem State.afterFailedWrite_eq (s : State) (reg : Nat) (bs : List Byte) :
    s.afterFailedWrite reg bs = { s with
      chip := Memory.writeSome s.busCount s.chip reg 0 bs
      trace := s.trace ++ [.writeFailed s.cfg.deviceAddr reg bs]
      turns := s.turns.drop 1
      busCount := s.busCount + 1 } := by
  rw [List.drop_one]
  rfl

/-! ### `SETDC` (rules R33, R74) -/

theorem exec_setdc {s : State} (hl : s.latch = none) (ch : Int) (d : Rat) :
    exec (.setdc ch d) s = .next (endCommand (driverSetDc ch d s)) :=
  congrArg _ (runCommand_ready hl)

theorem driverSetDc_failed {s : State} {ch : Int} {d : Rat} (h0 : 0 ≤ ch) (h1 : ch ≤ 15) (d0 : 0 ≤ d) (d1 : d ≤ 1)
    (hf : ¬ s.accepts 0) :
    driverSetDc ch d s = .raised (.transport .opaque s.trace.length)
      (s.afterFailedWrite (0x06 + 4 * ch.toNat) (encodedBlock s.cfg d).toBytes) := by
  simp only [driverSetDc, blockAddr_ok h0 h1, encodeDuty_ok d0 d1, Run.ofExcept_ok, Run.andThen_done,
    busWrite_failed hf, Run.andThen_raised]

/-- Settles O31: the one write of `SETDC` fails, and of its four registers any may have been stored, no other. -/
theorem setdcTransportFailure : Obligations.SetdcTransportFailure := by
  unfold Obligations.SetdcTransportFailure
  intro s ch d hl h0 h1 d0 d1 hf
  refine ⟨Memory.writeSome s.busCount s.chip (0x06 + 4 * ch.toNat) 0 (encodedBlock s.cfg d).toBytes, ?_, fun a ha => ?_⟩
  · rw [exec_setdc hl, driverSetDc_failed h0 h1 d0 d1 hf, endCommand_raised, State.afterFailedWrite_eq]
    rfl
  · have hlen : (encodedBlock s.cfg d).toBytes.length = 4 := rfl
    exact Memory.read?_writeSome_outside _ _ _ _ _ _ (by omega)

/-! ### `SETLIST` (rules R78, R180) -/

theorem driverSetDc_raised {s : State} {ch : Int} {d : Rat} {e : ErrorInfo}
    (h : ((ch < 0 ∨ 15 < ch) ∧ e = .channel ch) ∨ (0 ≤ ch ∧ ch ≤ 15 ∧ (d < 0 ∨ 1 < d) ∧ e = .duty d)) :
    driverSetDc ch d s = .raised e s := by
  obtain ⟨hch, rfl⟩ | ⟨h0, h1, hd, rfl⟩ := h
  · exact driverSetDc_badChannel hch
  · exact driverSetDc_badDuty h0 h1 hd

theorem exec_setlist_pairs {s : State} (hl : s.latch = none) {es : List (Int × Rat)} (hne : es ≠ []) :
    exec (.setlist es.length (es.map Prod.fst) (es.map Prod.snd)) s = .next (endCommand (driverSetEach es s)) := by
  have hshape : shapeOk ⟨es.length, some (es.map Prod.fst).length, some (es.map Prod.snd).length⟩ = true := by
    have hpos : 1 ≤ (es.length : Int) := Int.natCast_pos.mpr (List.length_pos_iff.mpr hne)
    simp [shapeOk, hpos]
  have hzip : (es.map Prod.fst).zip (es.map Prod.snd) = es := (List.zip_of_prod rfl rfl).symm
  have hrun : exec (.setlist es.length (es.map Prod.fst) (es.map Prod.snd)) s =
      .next (runCommand (driverSetList es.length (es.map Prod.fst) (es.map Prod.snd)) s) := rfl
  rw [hrun, runCommand_ready hl]
  simp only [driverSetList, hshape, if_true, hzip]

/-- Settles O37: the good elements are written, and the bad one raises on the state they leave. -/
theorem setlistStopsAtTheFirstBadElement : Obligations.SetlistStopsAtTheFirstBadElement := by
  unfold Obligations.SetlistStopsAtTheFirstBadElement
  intro s n good rest ch d hl hn hgood hacc e he
  rw [hn, exec_setlist_pairs hl (by simp), driverSetEach_ok good ((ch, d) :: rest) s hgood hacc, driverSetEach,
    driverSetDc_raised he]
  rfl

/-! ### `SETFREQ` (rules R63, R72, R180) -/

theorem Run.andThen_assoc {α β γ : Type} (x : Run α) (f : α → State → Run β) (g : β → State → Run γ) :
    (x.andThen f).andThen g = x.andThen fun a t => (f a t).andThen g := by
  cases x <;> rfl

/-- Writes issued one after another, up to the first that fails (rule R180). -/
def writeEach : List (Nat × List Byte) → State → Run Unit
  | [], s => .done () s
  | w :: ws, s => (busWrite w.1 w.2 s).andThen fun _ t => writeEach ws t

theorem writeEach_accepted (ws rest : List (Nat × List Byte)) (s : State) (ha : ∀ k, k < ws.length → s.accepts k) :
    writeEach (ws ++ rest) s = writeEach rest (s.wrote ws) := by
  induction ws generalizing s with
  | nil => rw [State.wrote_nil, List.nil_append]
  | cons w ws ih =>
    have hrest : ∀ k, k < ws.length → (s.wrote [w]).accepts k := fun k hk => by
      rw [State.accepts_wrote, List.length_singleton, Nat.add_comm]
      exact ha (k + 1) (Nat.succ_lt_succ hk)
    rw [List.cons_append, writeEach, busWrite_accepted (ha 0 (Nat.succ_pos _)), Run.andThen_done,
      State.afterWrite_eq_wrote, ih _ hrest, State.wrote_wrote]
    rfl

/-- The first write that fails is the last one issued; its place in the trace is recorded (rules R149, R180). -/
theorem writeEach_failed {ws : List (Nat × List Byte)} {s : State} {j : Nat} (hj : j < ws.length)
    (ha : ∀ k, k < j → s.accepts k) (hf : ¬ s.accepts j) :
    writeEach ws s = .raised (.transport .opaque (s.trace.length + j))
      ((s.wrote (ws.take j)).afterFailedWrite ws[j].1 ws[j].2) := by
  have hlen : (ws.take j).length = j := List.length_take_of_le hj.le
  have hfail : ¬ (s.wrote (ws.take j)).accepts 0 := by rwa [State.accepts_wrote, hlen]
  have hplace : (s.wrote (ws.take j)).trace.length = s.trace.length + j := by
    rw [State.wrote, List.length_append, List.length_map, hlen]
  calc writeEach ws s
      = writeEach (ws.take j ++ ws[j] :: ws.drop (j + 1)) s := by
        rw [← List.drop_eq_getElem_cons hj, List.take_append_drop]
    _ = writeEach (ws[j] :: ws.drop (j + 1)) (s.wrote (ws.take j)) :=
        writeEach_accepted _ _ s fun k hk => ha k (hlen ▸ hk)
    _ = _ := by rw [writeEach, busWrite_failed hfail, Run.andThen_raised, hplace]

/-- The four writes of `SETFREQ` on the `MODE1` byte `old` and the prescale byte `p` (rule R63). -/
def setfreqWrites (old p : Byte) : List (Nat × List Byte) :=
  [(regMode1, [sleepByte old]), (regPrescale, [p]), (regMode1, [old]), (regMode1, [wakeByte old])]

/-- Past its checks, `SETFREQ` is a read, four writes, and the frequency recorded (rule R72). -/
theorem driverSetFreq_checked {s : State} {hz : Int} (h0 : 0 < hz) (hp : prescaleOf s.cfg hz ≤ 255) :
    driverSetFreq hz s = (busRead regMode1 1 s).andThen fun bs t =>
      (writeEach (setfreqWrites (bs.getD 0 0) (BitVec.ofInt 8 (prescaleOf s.cfg hz))) t).andThen fun _ u =>
        .done .none { u with freq := some hz } := by
  simp only [driverSetFreq, if_neg (not_le.mpr h0), if_neg (not_lt.mpr hp), setfreqWrites, writeEach,
    Run.andThen_assoc, Run.andThen_done]

theorem exec_setfreq {s : State} (hl : s.latch = none) (hz : Int) :
    exec (.setfreq hz) s = .next (endCommand (driverSetFreq hz s)) :=
  congrArg _ (runCommand_ready hl)

/-- A read of `MODE1` that fails, or is short, is `SETFREQ`'s only transaction (rules R46, R149). -/
theorem driverSetFreq_readFailed {s : State} {hz : Int} {why : TransportInfo} (h0 : 0 < hz)
    (hp : prescaleOf s.cfg hz ≤ 255)
    (hr : busRead regMode1 1 s = .raised (.transport why s.trace.length) (s.afterFailedRead regMode1 1)) :
    driverSetFreq hz s = .raised (.transport why s.trace.length) (s.afterFailedRead regMode1 1) := by
  rw [driverSetFreq_checked h0 hp, hr, Run.andThen_raised]

/-- Write `j` of `SETFREQ`, its transaction `j + 1`, is the first to fail (rule R180). -/
theorem driverSetFreq_writeFailed {s : State} {hz : Int} {old : Byte} {ws : List (Nat × List Byte)} {j : Nat}
    (h0 : 0 < hz) (hp : prescaleOf s.cfg hz ≤ 255) (hr : s.readsAs 0 regMode1 1 [old])
    (hws : ws = setfreqWrites old (BitVec.ofInt 8 (prescaleOf s.cfg hz))) (hj : j < ws.length)
    (ha : ∀ k, k < j → s.accepts (1 + k)) (hf : ¬ s.accepts (1 + j)) :
    driverSetFreq hz s = .raised (.transport .opaque (s.trace.length + 1 + j))
      (((s.didRead [(regMode1, [old])]).wrote (ws.take j)).afterFailedWrite ws[j].1 ws[j].2) := by
  have hplace : (s.didRead [(regMode1, [old])]).trace.length = s.trace.length + 1 := List.length_append
  have hfail : ¬ (s.didRead [(regMode1, [old])]).accepts j := fun h => hf (State.accepts_didRead.mp h)
  rw [driverSetFreq_checked h0 hp, busRead_answered hr, Run.andThen_done, State.afterRead_byte, List.getD_cons_zero,
    ← hws, writeEach_failed hj (fun k hk => State.accepts_didRead.mpr (ha k hk)) hfail, Run.andThen_raised, hplace]

theorem State.trace_read_writes_failedWrite (s : State) (reg : Nat) (b : Byte) (ws : List (Nat × List Byte))
    (w : Nat × List Byte) :
    (((s.didRead [(reg, [b])]).wrote ws).afterFailedWrite w.1 w.2).trace = s.trace ++
      (.read s.cfg.deviceAddr reg 1 [b] :: ws.map (fun v => .write s.cfg.deviceAddr v.1 v.2) ++
        [.writeFailed s.cfg.deviceAddr w.1 w.2]) := by
  simp [State.wrote, State.didRead]

/-- Settles O27: transaction 0 is the read of `MODE1`, transaction `j + 1` is write `j` of the four. -/
theorem setfreqFailureKeepsFrequency : Obligations.SetfreqFailureKeepsFrequency := by
  unfold Obligations.SetfreqFailureKeepsFrequency
  intro s hz p hl h0 hp hle
  rw [← prescaleOf] at hp
  subst hp
  rw [exec_setfreq hl]
  refine ⟨fun old k hk hread hacc hfail => ?_, fun bs hturn hlen => ?_⟩
  · cases k with
    | zero =>
      rw [driverSetFreq_readFailed h0 hle (busRead_failed hfail _ _)]
      exact ⟨_, rfl, rfl, rfl, rfl, rfl, rfl⟩
    | succ j =>
      have hj : j < 4 := Nat.lt_of_succ_lt_succ hk
      have hacc' : ∀ k, k < j → s.accepts (1 + k) := fun k hk => hacc (1 + k) (by omega) (by omega)
      have hfail' : ¬ s.accepts (1 + j) := by rwa [Nat.add_comm]
      rw [driverSetFreq_writeFailed h0 hle (hread (Nat.succ_pos j)) rfl hj hacc' hfail', Nat.add_assoc, Nat.add_comm 1]
      refine ⟨_, rfl, rfl, rfl, rfl, rfl, (State.trace_read_writes_failedWrite _ _ _ _ _).trans ?_⟩
      interval_cases j <;> rfl
  · rw [driverSetFreq_readFailed h0 hle (busRead_raised (.inr ⟨rfl, bs, hturn, hlen⟩)), State.afterFailedRead_eq]
    rfl

end Sys2Proof.Machine
end

section
/-! SUPPORT. The claims of 30_encoding.md: decoder and encoder against each other, reserved opcodes, the count of a
duty cycle and its block, what a block reads back as, the burst commands, and the rows of the byte formats. -/

namespace Sys2Proof.Machine

/-! ### The decoder on the encoder's words (rules R50, R57, R63) -/

/-- Every bit of a linear encoder row's word (rule R54). -/
theorem linearWord_bit (n : BitVec 12) (i : Nat) :
    (blockWord 0 false n 0 false 0).getLsbD i = (decide (16 ≤ i) && n.getLsbD (i - 16)) := by
  rw [blockWord_bit]
  by_cases hlo : i < 16
  · have : ¬ 16 ≤ i := by omega
    simp [hlo, this]
  · have h12 : ¬ i < 12 := by omega
    have h12' : i ≠ 12 := by omega
    have h16 : 16 ≤ i := by omega
    by_cases hhi : i < 28
    · simp [hlo, h12, h12', h16, hhi]
    · have : n.getLsbD (i - 16) = false := BitVec.getLsbD_of_ge _ _ (by omega)
      simp [hlo, h12, h12', hhi, this]

theorem off_of_linearWord {n : BitVec 12} {w : BitVec 32} (h : blockWord 0 false n 0 false 0 = w) :
    n = w.extractLsb' 16 12 := by
  rw [← h, blockWord_off]

/-- A word that has the fixed bits of the linear encoder row is that row's word (rule R54). -/
theorem linearWord_split {w : BitVec 32} (h : w &&& 0xF000FFFF#32 = 0#32) :
    blockWord 0 false (w.extractLsb' 16 12) 0 false 0 = w := by
  have hm : ∀ i, i < 32 → (0xF000FFFF#32).getLsbD i = decide (i < 16 ∨ 28 ≤ i) := by decide
  apply BitVec.eq_of_getLsbD_eq
  intro i hi
  have hw : (w.getLsbD i && decide (i < 16 ∨ 28 ≤ i)) = false := by
    rw [← hm i hi, ← BitVec.getLsbD_and, h, BitVec.getLsbD_zero]
  rw [linearWord_bit, BitVec.getLsbD_extractLsb']
  by_cases hoff : 16 ≤ i ∧ i < 28
  · have hlt : i - 16 < 12 := by omega
    have hadd : 16 + (i - 16) = i := by omega
    simp [hoff.1, hlt, hadd]
  · have hfixed : i < 16 ∨ 28 ≤ i := by omega
    have hno : ¬ (16 ≤ i ∧ i - 16 < 12) := by omega
    rw [decide_eq_true hfixed, Bool.and_true] at hw
    rw [← Bool.and_assoc, ← Bool.decide_and, decide_eq_false hno, Bool.false_and, hw]

theorem decodeEncodeOut_linear {n : BitVec 12} (h0 : n ≠ 0#12) (h1 : n ≠ 4095#12) :
    decodeEncodeOut (blockWord 0 false n 0 false 0) = .ok (.blkEncLinear n) := by
  have hmask : blockWord 0 false n 0 false 0 &&& 0xF000FFFF#32 = 0#32 := (Laws.EncodesInItsRow.blkEncLinear n).2
  rw [decodeEncodeOut, if_neg fun h => h1 (off_of_linearWord h), if_neg fun h => h0 (off_of_linearWord h),
    if_neg fun h => h0 (off_of_linearWord h), blockWord_off, if_pos ⟨hmask, h0⟩]

theorem decodeDecodeIn_blockWord (rHi : BitVec 3) (foff : Bool) (f : BitVec 12) (rLo : BitVec 3) (fon : Bool)
    (n : BitVec 12) :
    decodeDecodeIn (blockWord rHi foff f rLo fon n) =
      if foff then .blkDecFoff rHi f rLo fon n
      else if fon then .blkDecFon rHi f rLo n
      else .blkDecLinear rHi f rLo n := by
  simp only [decodeDecodeIn, blockWord_on, blockWord_off, blockWord_rLo, blockWord_rHi, blockWord_foff, blockWord_fon]

theorem decodeSetfreqByte_w1 (e a x y z c : Bool) :
    decodeSetfreqByte .w1 (mode1Byte false e a true x y z c) = .ok (.setfreqW1 e a x y z c) := by
  simp only [decodeSetfreqByte, mode1Byte_bits, and_self, if_true]

theorem decodeSetfreqByte_w3 (r e a s x y z c : Bool) :
    decodeSetfreqByte .w3 (mode1Byte r e a s x y z c) = .ok (.setfreqW3 r e a s x y z c) := by
  simp only [decodeSetfreqByte, mode1Byte_bits]

theorem decodeSetfreqByte_w4 (r e s x y z c : Bool) :
    decodeSetfreqByte .w4 (mode1Byte r e true s x y z c) = .ok (.setfreqW4 r e s x y z c) := by
  simp only [decodeSetfreqByte, mode1Byte_bits, if_true]

/-- Settles O2: the commands by their opcode, the byte formats by the fields of their words. -/
theorem decodeAfterEncode : Obligations.DecodeAfterEncode := by
  unfold Obligations.DecodeAfterEncode
  refine ⟨fun i hwf hne => ?_, by decide⟩
  cases i with
  | calload doc => exact if_pos hwf
  | blkEncLinear n =>
    have h0 : n ≠ 0#12 := by
      rintro rfl
      cases hwf
    exact decodeEncodeOut_linear h0 fun h => hne (congrArg _ h)
  | blkDecFoff rHi f rLo fon n => exact congrArg Except.ok (decodeDecodeIn_blockWord rHi true f rLo fon n)
  | blkDecFon rHi f rLo n => exact congrArg Except.ok (decodeDecodeIn_blockWord rHi false f rLo true n)
  | blkDecLinear rHi f rLo n => exact congrArg Except.ok (decodeDecodeIn_blockWord rHi false f rLo false n)
  | setfreqW1 e a x y z c => exact decodeSetfreqByte_w1 e a x y z c
  | setfreqW3 r e a s x y z c => exact decodeSetfreqByte_w3 r e a s x y z c
  | setfreqW4 r e s x y z c => exact decodeSetfreqByte_w4 r e s x y z c
  | _ => rfl

/-! ### The encoder on the decoder's instructions (rules R50, R57, R63 to R65) -/

theorem command_of_toNat {i : Instr} {op k : Byte} {q : Ports} (hi : encode i = .command k q)
    (hk : op.toNat = k.toNat) : ∃ q, encode i = .command op q :=
  ⟨q, by rw [hi, BitVec.eq_of_toNat_eq hk]⟩

/-- The arms of `decodeCommand`: arm 21 is `CALLOAD`, whose document is checked; the last is the reserved opcodes. -/
theorem decodeCommand_ok {op : Byte} {p : Ports} {i : Instr} (h : decodeCommand op p = .ok i) :
    wellFormed i = true ∧ ∃ q, encode i = .command op q := by
  unfold decodeCommand at h
  split at h
  case h_21 hk =>
    split at h
    case isTrue hdoc => cases h; exact ⟨hdoc, command_of_toNat rfl hk⟩
    case isFalse => cases h
  case h_23 => cases h
  all_goals
    cases h
    exact ⟨rfl, command_of_toNat rfl ‹_›⟩

theorem decodeEncodeOut_ok {w : BitVec 32} {i : Instr} (h : decodeEncodeOut w = .ok i) :
    wellFormed i = true ∧ encode i = .encodeOut w := by
  unfold decodeEncodeOut at h
  split at h
  case isTrue hw => cases h; exact ⟨rfl, congrArg _ hw.symm⟩
  split at h
  case isTrue hw => cases h; exact ⟨rfl, congrArg _ hw.symm⟩
  split at h
  case isTrue hw => cases h; exact ⟨rfl, congrArg _ hw.symm⟩
  split at h
  case isTrue hw =>
    cases h
    obtain ⟨hmask, hn⟩ := hw
    have hpos : 1 ≤ (w.extractLsb' 16 12).toNat := Nat.pos_of_ne_zero fun h => hn (BitVec.eq_of_toNat_eq h)
    exact ⟨decide_eq_true hpos, congrArg _ (linearWord_split hmask)⟩
  case isFalse => cases h

theorem encode_decodeDecodeIn (w : BitVec 32) :
    wellFormed (decodeDecodeIn w) = true ∧ encode (decodeDecodeIn w) = .decodeIn w := by
  rw [← blockWord_split w, decodeDecodeIn_blockWord]
  cases w.getLsbD 28 with
  | true => exact ⟨rfl, rfl⟩
  | false => cases w.getLsbD 12 <;> exact ⟨rfl, rfl⟩

theorem decodeSetfreqByte_ok {k : SetfreqWrite} {b : Byte} {i : Instr} (h : decodeSetfreqByte k b = .ok i) :
    wellFormed i = true ∧ encode i = .setfreqByte k b := by
  have hb := mode1Byte_split b
  cases k with
  | w1 =>
    dsimp only [decodeSetfreqByte] at h
    split at h
    case isTrue hbits =>
      rw [hbits.1, hbits.2] at hb
      cases h
      exact ⟨rfl, congrArg _ hb⟩
    case isFalse => cases h
  | w2 => cases h; exact ⟨rfl, rfl⟩
  | w3 => cases h; exact ⟨rfl, congrArg _ hb⟩
  | w4 =>
    dsimp only [decodeSetfreqByte] at h
    split at h
    case isTrue hbit =>
      rw [hbit] at hb
      cases h
      exact ⟨rfl, congrArg _ hb⟩
    case isFalse => cases h

/-- Settles O3, place by place: each decoder's inversion gives back the word it was handed. -/
theorem encodeAfterDecode : Obligations.EncodeAfterDecode := by
  unfold Obligations.EncodeAfterDecode
  intro p i h
  cases p with
  | command op ports => exact decodeCommand_ok h
  | encodeOut w => exact decodeEncodeOut_ok h
  | decodeIn w => cases h; exact encode_decodeDecodeIn w
  | setfreqByte k b => exact decodeSetfreqByte_ok h

/-- Settles O1: the opcode map and the rows of the byte formats, evaluated. -/
theorem tableWordsDecode : Obligations.TableWordsDecode := by
  unfold Obligations.TableWordsDecode
  refine ⟨fun p => ?_, by decide⟩
  exact ⟨rfl, rfl, rfl, rfl, rfl, rfl, rfl, rfl, rfl, rfl, rfl, rfl, rfl, rfl, rfl, rfl, rfl, rfl, rfl, rfl,
    fun hdoc => if_pos hdoc, rfl, rfl, rfl, rfl⟩

/-! ### Reserved opcodes (rules R65, R150, R153) -/

/-- Every arm of `decodeCommand` but the last is the opcode of a listed byte (rule R65). -/
theorem decodeCommand_reserved {op : Byte}
    (h : op ∉ ([0x00, 0x01, 0x02, 0x03, 0x04, 0x05, 0x06, 0x07, 0x08, 0x09, 0x10, 0x11, 0x12, 0x13, 0x20, 0x21, 0x22,
      0x23, 0x24, 0x25, 0x30, 0x31] : List Byte)) (p : Ports) :
    decodeCommand op p = .error .reservedOpcode := by
  have hop := mt (List.mem_map_of_injective fun _ _ => BitVec.eq_of_toNat_eq).mp h
  unfold decodeCommand
  split
  case h_23 => rfl
  all_goals
    rw [‹op.toNat = _›] at hop
    exact absurd (by decide) hop

theorem step_reserved {s : State} {op : Byte} {ports : Ports} {rest : List HostMove}
    (h : s.host = .present (.command op ports) :: rest) (hd : decodeCommand op ports = .error .reservedOpcode) :
    step s = .next (reservedOpcode s.popHost) := by
  simp [step, h, decode, hd]

/-- Settles O5: the decoder reserves the opcode, and the refusal is entered like a command. -/
theorem reservedOpcodesAreRefused : Obligations.ReservedOpcodesAreRefused := by
  unfold Obligations.ReservedOpcodesAreRefused
  intro op ports hop s rest hhost
  rw [step_reserved hhost (decodeCommand_reserved hop ports), State.popHost_eq hhost]
  refine ⟨fun hl => ?_, fun hl => ?_⟩
  · exact congrArg _ (runCommand_ready hl)
  · exact congrArg _ (runCommand_latched hl)

/-! ### Quantization (rule R53) -/

/-- The only integer nearer than one half is the one `round_T` gives. -/
theorem roundT_eq_of_abs_lt (t : RoundTie) {x : Rat} {n : Int} (h : |(n : Rat) - x| < 1 / 2) : roundT t x = n := by
  have hr := abs_le.mp (abs_roundT_sub_le t x)
  have hn := abs_lt.mp h
  have hlow : ((n - 1 : Int) : Rat) < (roundT t x : Rat) := by push_cast; linarith
  have hhigh : (roundT t x : Rat) < ((n + 1 : Int) : Rat) := by push_cast; linarith
  have hlow' := Int.cast_lt.mp hlow
  have hhigh' := Int.cast_lt.mp hhigh
  omega

/-- The lowest tie of a duty cycle goes to 0 exactly under `half_even` (rule R53). -/
theorem roundT_half_eq_zero_iff (t : RoundTie) : roundT t (1 / 2) = 0 ↔ t = .halfEven := by
  cases t <;> decide +kernel

/-- The highest tie of a duty cycle goes to 4096 under every rule: 4095 is odd. -/
theorem roundT_top_tie (t : RoundTie) : roundT t (8191 / 2) = 4096 := by
  cases t <;> decide +kernel

theorem intCycle_nonneg (t : RoundTie) {d : Rat} (h0 : 0 ≤ d) : 0 ≤ intCycle t d := by
  have herr := abs_le.mp (abs_roundT_sub_le t (d * 4096))
  have hlow : ((-1 : Int) : Rat) < (intCycle t d : Rat) := by rw [intCycle]; push_cast; linarith
  exact Int.cast_lt.mp hlow

theorem intCycle_le (t : RoundTie) {d : Rat} (h1 : d ≤ 1) : intCycle t d ≤ 4096 := by
  have herr := abs_le.mp (abs_roundT_sub_le t (d * 4096))
  have hhigh : (intCycle t d : Rat) < ((4097 : Int) : Rat) := by rw [intCycle]; push_cast; linarith
  exact Int.lt_add_one_iff.mp (Int.cast_lt.mp hhigh)

theorem abs_intCycle_sub_le (t : RoundTie) (d : Rat) : |(intCycle t d : Rat) / 4096 - d| ≤ 1 / 8192 := by
  have h := abs_le.mp (abs_roundT_sub_le t (d * 4096))
  rw [intCycle, abs_le]
  constructor <;> linarith

theorem intCycle_eq_zero_iff (t : RoundTie) {d : Rat} (h0 : 0 ≤ d) :
    intCycle t d = 0 ↔ d < 1 / 8192 ∨ (d = 1 / 8192 ∧ t = .halfEven) := by
  rcases lt_trichotomy d (1 / 8192) with h | rfl | h
  · refine iff_of_true (roundT_eq_of_abs_lt t ?_) (.inl h)
    rw [abs_lt]
    constructor <;> push_cast <;> linarith
  · have hx : (1 / 8192 * 4096 : Rat) = 1 / 2 := by norm_num
    simp only [intCycle, hx, roundT_half_eq_zero_iff, lt_irrefl, false_or, true_and]
  · refine iff_of_false (fun hn => ?_) (not_or.mpr ⟨h.not_gt, fun e => h.ne' e.1⟩)
    have herr := abs_le.mp (abs_intCycle_sub_le t d)
    rw [hn] at herr
    push_cast at herr
    linarith

theorem intCycle_eq_top_iff (t : RoundTie) {d : Rat} (h1 : d ≤ 1) : intCycle t d = 4096 ↔ 8191 / 8192 ≤ d := by
  rcases lt_trichotomy d (8191 / 8192) with h | rfl | h
  · refine iff_of_false (fun hn => ?_) (not_le.mpr h)
    have herr := abs_le.mp (abs_intCycle_sub_le t d)
    rw [hn] at herr
    push_cast at herr
    linarith
  · have hx : (8191 / 8192 * 4096 : Rat) = 8191 / 2 := by norm_num
    simp only [intCycle, hx, roundT_top_tie, le_refl]
  · refine iff_of_true (roundT_eq_of_abs_lt t ?_) h.le
    rw [abs_lt]
    constructor <;> push_cast <;> linarith

/-- Settles O20: `round_T` is off by at most one half, and the two extreme ties decide the ends. -/
theorem quantizationOfDutyCycles : Obligations.QuantizationOfDutyCycles := by
  unfold Obligations.QuantizationOfDutyCycles
  exact fun t d h0 h1 => ⟨intCycle_nonneg t h0, intCycle_le t h1, abs_intCycle_sub_le t d,
    intCycle_eq_zero_iff t h0, intCycle_eq_top_iff t h1⟩

/-! ### The encoder's blocks (rules R54 to R56) -/

/-- The bytes of the block of a count, written out (rules R54, R55, R56). -/
theorem blockOfCount_bytes (p : FlagPolarity) {n : Int} (h0 : 0 ≤ n) (h1 : n ≤ 4096) :
    blockOfCount p n =
      if n = 0 then fullOffBlock p
      else if n = 4096 then fullOnBlock
      else ⟨0x00#8, 0x00#8, BitVec.ofInt 8 (n % 256), BitVec.ofInt 8 (n / 256)⟩ := by
  unfold blockOfCount
  split
  · rfl
  split
  · rfl
  · obtain ⟨k, rfl⟩ := Int.eq_ofNat_of_zero_le h0
    exact linearBlock_bytes k (by omega)

theorem exec_enc {s : State} (hl : s.latch = none) (d : Rat) :
    exec (.enc d) s =
      .next (endCommand ((Run.ofExcept (encodeDuty s.cfg d) s).andThen fun b t => .done (.block b) t)) :=
  congrArg _ (runCommand_ready hl)

/-- Settles O21: inside [0, 1] the count lies in 0..4096, whose blocks are written out; outside the check raises. -/
theorem encReturnsTheBlock : Obligations.EncReturnsTheBlock := by
  unfold Obligations.EncReturnsTheBlock
  refine fun s d hl => ⟨fun h0 h1 n hn => ?_, fun hd => ?_⟩
  · have hb : encodedBlock s.cfg d = blockOfCount s.cfg.polarity n := by rw [hn]; rfl
    have hn0 : 0 ≤ n := hn ▸ intCycle_nonneg _ h0
    have hn1 : n ≤ 4096 := hn ▸ intCycle_le _ h1
    rw [exec_enc hl, encodeDuty_ok h0 h1, hb, blockOfCount_bytes _ hn0 hn1]
    cases s.cfg.polarity <;> rfl
  · rw [exec_enc hl, encodeDuty_bad hd]
    rfl

/-! ### The decoder's values (rules R57 to R60) -/

theorem decodeBlock_eq (p : FlagPolarity) (b : Block) :
    decodeBlock p b =
      if b.b3.getLsbD 4 then foffValue p
      else if b.b1.getLsbD 4 then fonValue p
      else linearValue (b.b0.toNat + 256 * (b.b1.toNat % 16)) (b.b2.toNat + 256 * (b.b3.toNat % 16)) := by
  simp only [decodeBlock, foffBit, fonBit, onCount, offCount, fullMask_bit, lowNibble]

theorem exec_dec {s : State} (hl : s.latch = none) (b : Block) :
    exec (.dec b) s = .next (s.complete (.num (decodeBlock s.cfg.polarity b))) :=
  congrArg _ (runCommand_ready hl)

/-- Settles O22, from the value of every block. -/
theorem decReturnsTheValue : Obligations.DecReturnsTheValue := by
  unfold Obligations.DecReturnsTheValue
  intro s b hl
  rw [exec_dec hl, decodeBlock_eq]
  cases s.cfg.polarity <;> rfl

/-- Bits 7..5 replaced in a byte do not show under a mask of the other bits. -/
theorem reserved_and {m : Byte} (hkeep : 0x1F#8 &&& m = m) (hreserved : 0xE0#8 &&& m = 0#8) (b r : Byte) :
    ((b &&& 0x1F#8) ||| (r &&& 0xE0#8)) &&& m = b &&& m := by
  rw [BitVec.and_or_distrib_right, BitVec.and_assoc, BitVec.and_assoc, hkeep, hreserved, BitVec.and_zero,
    BitVec.or_zero]

/-- All that the decoder looks at (rule R57). -/
theorem decodeBlock_congr (p : FlagPolarity) {b c : Block} (hfoff : foffBit b = foffBit c)
    (hfon : fonBit b = fonBit c) (hon : onCount b = onCount c) (hoff : offCount b = offCount c) :
    decodeBlock p b = decodeBlock p c := by
  simp only [decodeBlock, hfoff, hfon, hon, hoff]

theorem decodeBlock_reserved (p : FlagPolarity) (b : Block) (r1 r3 : Byte) :
    decodeBlock p ⟨b.b0, (b.b1 &&& 0x1F#8) ||| (r1 &&& 0xE0#8), b.b2, (b.b3 &&& 0x1F#8) ||| (r3 &&& 0xE0#8)⟩ =
      decodeBlock p b := by
  have hflag := reserved_and (m := fullMask) (by decide) (by decide)
  have hcount := reserved_and (m := 0x0F) (by decide) (by decide)
  exact decodeBlock_congr p (congrArg (· != 0) (hflag b.b3 r3)) (congrArg (· != 0) (hflag b.b1 r1))
    (congrArg (b.b0.toNat + 256 * BitVec.toNat ·) (hcount b.b1 r1))
    (congrArg (b.b2.toNat + 256 * BitVec.toNat ·) (hcount b.b3 r3))

theorem blockOfCount_reserved (p : FlagPolarity) (n : Int) :
    (blockOfCount p n).b1 &&& 0xE0#8 = 0#8 ∧ (blockOfCount p n).b3 &&& 0xE0#8 = 0#8 := by
  unfold blockOfCount
  split
  · cases p <;> decide
  split
  · decide
  · refine ⟨BitVec.zero_and, ?_⟩
    rw [linearBlock, BitVec.and_assoc]
    exact BitVec.and_zero

theorem encodeDuty_eq_ok {cfg : Config} {d : Rat} {b : Block} (h : encodeDuty cfg d = .ok b) :
    b = encodedBlock cfg d := by
  unfold encodeDuty at h
  split at h
  · exact (Except.ok.inj h).symm
  · cases h

/-- The linear case on two 12-bit counts (rule R60). -/
theorem linearValue_range {on off : Nat} (hon : on < 4096) (hoff : off < 4096) :
    -4095 / 4096 ≤ linearValue on off ∧ linearValue on off ≤ 4095 / 4096 ∧ (linearValue on off < 0 ↔ off < on) := by
  have hon' : (on : Rat) ≤ 4095 := by exact_mod_cast Nat.le_of_lt_succ hon
  have hoff' : (off : Rat) ≤ 4095 := by exact_mod_cast Nat.le_of_lt_succ hoff
  have hon0 : (0 : Rat) ≤ on := Nat.cast_nonneg on
  have hoff0 : (0 : Rat) ≤ off := Nat.cast_nonneg off
  unfold linearValue
  refine ⟨by linarith, by linarith, ?_⟩
  rw [div_lt_iff₀ (by norm_num), zero_mul, sub_neg, Nat.cast_lt]

/-- Settles O23: the decoder looks at a high byte under two masks that leave the reserved bits out. -/
theorem decodeRangeAndReservedBits : Obligations.DecodeRangeAndReservedBits := by
  unfold Obligations.DecodeRangeAndReservedBits
  refine ⟨decodeBlock_reserved, fun cfg d b h => ?_, fun p b h1 h3 => ?_⟩
  · rw [encodeDuty_eq_ok h]
    exact blockOfCount_reserved ..
  · rw [decodeBlock_eq, if_neg (Bool.eq_false_iff.mp h3), if_neg (Bool.eq_false_iff.mp h1)]
    exact linearValue_range (by omega) (by omega)

/-! ### Round trips (rule R61) -/

/-- The full-on bytes are those of the count 4095 (rule R56), which is why 1 does not read back (rule R61). -/
theorem fullOnBlock_eq_linear : fullOnBlock = linearBlock 4095 := by decide

theorem decodeBlock_linearBlock (p : FlagPolarity) {n : Nat} (hn : n < 4096) :
    decodeBlock p (linearBlock n) = (n : Rat) / 4096 := by
  have hhigh : n / 256 < 16 := by omega
  have hflag : (BitVec.ofNat 8 (n / 256)).getLsbD 4 = false := by
    rw [BitVec.getLsbD_ofNat, Nat.testBit_lt_two_pow hhigh, Bool.and_false]
  have hcount : (BitVec.ofNat 8 (n % 256)).toNat + 256 * ((BitVec.ofNat 8 (n / 256)).toNat % 16) = n := by
    simp only [BitVec.toNat_ofNat]
    omega
  simp only [decodeBlock_eq, linearBlock_bytes n hn, hflag, hcount]
  simp [linearValue]

/-- What the block of a count reads back as (rule R61). -/
theorem decodeBlock_blockOfCount (p : FlagPolarity) {n : Int} (h0 : 0 ≤ n) (h1 : n ≤ 4096) :
    decodeBlock p (blockOfCount p n) = if n = 0 then 0 else if n = 4096 then 4095 / 4096 else (n : Rat) / 4096 := by
  unfold blockOfCount
  split
  · cases p <;> rfl
  split
  · rw [fullOnBlock_eq_linear, decodeBlock_linearBlock p (by decide)]
    rfl
  · obtain ⟨k, rfl⟩ := Int.eq_ofNat_of_zero_le h0
    exact decodeBlock_linearBlock p (by omega)

theorem encodeDuty_one (cfg : Config) : encodeDuty cfg 1 = .ok fullOnBlock := by
  have hn : intCycle cfg.roundTie 1 = 4096 := (intCycle_eq_top_iff _ le_rfl).mpr (by norm_num)
  rw [encodeDuty_ok zero_le_one le_rfl, encodedBlock, hn]
  rfl

section
variable (t : RoundTie) {d : Rat}

/-- The error of a count of 0, and when it is half a step (rule R61). -/
theorem zero_count_error (h0 : 0 ≤ d) (hn : intCycle t d = 0) :
    |0 - d| ≤ 1 / 8192 ∧ (|0 - d| = 1 / 8192 ↔ d = 1 / 8192) := by
  have hd : |0 - d| = d := by rw [zero_sub, abs_neg, abs_of_nonneg h0]
  rw [hd]
  exact ⟨((intCycle_eq_zero_iff t h0).mp hn).elim le_of_lt fun h => h.1.le, Iff.rfl⟩

/-- The error of a count of 4096, and when it is a whole step (rule R61). -/
theorem top_count_error (h1 : d ≤ 1) (hn : intCycle t d = 4096) :
    |4095 / 4096 - d| ≤ 1 / 4096 ∧ (|4095 / 4096 - d| = 1 / 4096 ↔ d = 1) := by
  have hlow : 8191 / 8192 ≤ d := (intCycle_eq_top_iff t h1).mp hn
  have hd : |4095 / 4096 - d| = d - 4095 / 4096 := by rw [abs_sub_comm, abs_of_nonneg (by linarith)]
  rw [hd]
  exact ⟨by linarith, ⟨fun h => by linarith, fun h => by linarith⟩⟩

end

theorem decodeBlock_encodedBlock (cfg : Config) {d : Rat} (h0 : 0 ≤ d) (h1 : d ≤ 1) :
    decodeBlock cfg.polarity (encodedBlock cfg d) =
      if intCycle cfg.roundTie d = 0 then 0
      else if intCycle cfg.roundTie d = 4096 then 4095 / 4096
      else (intCycle cfg.roundTie d : Rat) / 4096 :=
  decodeBlock_blockOfCount _ (intCycle_nonneg _ h0) (intCycle_le _ h1)

theorem decodeBlock_fullOnBlock (p : FlagPolarity) : decodeBlock p fullOnBlock = 4095 / 4096 :=
  decodeBlock_blockOfCount p (n := 4096) (by decide) le_rfl

theorem decodeBlock_foff_doc {b : Block} (h : b.b3.getLsbD 4 = true) : decodeBlock .doc b = 1 := by
  rw [decodeBlock_eq, if_pos h]
  rfl

/-- Settles O24: the value read back is known by the count, and the count's error by `round_T`. -/
theorem roundTripOfDutyCycles : Obligations.RoundTripOfDutyCycles := by
  unfold Obligations.RoundTripOfDutyCycles
  refine ⟨fun cfg d h0 h1 => ⟨encodedBlock cfg d, encodeDuty_ok h0 h1, decodeBlock_encodedBlock cfg h0 h1, ?_⟩,
    fun cfg => ⟨fullOnBlock, encodeDuty_one cfg, decodeBlock_fullOnBlock _⟩, fun cfg b hp hb => ?_⟩
  · rw [decodeBlock_encodedBlock cfg h0 h1]
    refine ⟨fun hlow hhigh => ?_, fun hn => ?_, fun hn => ?_⟩
    · rw [if_neg (by omega), if_neg (by omega)]
      exact abs_intCycle_sub_le _ d
    · rw [if_pos hn]
      exact zero_count_error _ h0 hn
    · rw [hn, if_neg (by decide), if_pos rfl]
      exact top_count_error _ h1 hn
  · rw [hp, decodeBlock_foff_doc hb]
    exact encodeDuty_one cfg

/-! ### `SETFREQ`, `SETRANGE` and `GETRANGE` (rules R63, R72, R76, R77) -/

theorem driverSetFreq_ok {s : State} {hz : Int} {old : Byte} (h0 : 0 < hz) (hp : prescaleOf s.cfg hz ≤ 255)
    (hr : s.readsAs 0 regMode1 1 [old]) (ha : ∀ k, k < 4 → s.accepts (1 + k)) :
    driverSetFreq hz s = .done .none
      { (s.didRead [(regMode1, [old])]).wrote (setfreqWrites old (BitVec.ofInt 8 (prescaleOf s.cfg hz))) with
        freq := some hz } := by
  have hwrites : ∀ k, k < (setfreqWrites old (BitVec.ofInt 8 (prescaleOf s.cfg hz))).length →
      (s.didRead [(regMode1, [old])]).accepts k := fun k hk => State.accepts_didRead.mpr (ha k hk)
  rw [driverSetFreq_checked h0 hp, busRead_answered hr, Run.andThen_done, State.afterRead_byte, List.getD_cons_zero,
    ← List.append_nil (setfreqWrites _ _), writeEach_accepted _ [] _ hwrites, List.append_nil]
  rfl

/-- Settles O25: the read of `MODE1` is transaction 0, the four writes are transactions 1 to 4. -/
theorem setfreqProgramsTheChip : Obligations.SetfreqProgramsTheChip := by
  unfold Obligations.SetfreqProgramsTheChip
  intro s hz p old hl h0 hp hle hread ha1 ha2 ha3 ha4
  rw [← prescaleOf] at hp
  subst hp
  have hacc : ∀ k, k < 4 → s.accepts (1 + k) := by
    intro k hk
    interval_cases k <;> assumption
  rw [exec_setfreq hl, driverSetFreq_ok h0 hle hread hacc]
  rfl

theorem exec_setrange {s : State} (hl : s.latch = none) (start n : Int) (ds : List Rat) :
    exec (.setrange start n ds) s = .next (endCommand (driverSetRange start n ds s)) :=
  congrArg _ (runCommand_ready hl)

/-- Settles O33: past its checks `SETRANGE` is one write. -/
theorem setrangeWritesOneBurst : Obligations.SetrangeWritesOneBurst := by
  unfold Obligations.SetrangeWritesOneBurst
  intro s start n ds hl h1 hlen h0 h15 hds hacc
  rw [exec_setrange hl, driverSetRange_ok h1 hlen h0 h15 hds hacc]
  rfl

theorem exec_getrange {s : State} (hl : s.latch = none) (start n : Int) :
    exec (.getrange start n) s =
      .next (endCommand ((driverGetRange start n s).andThen fun xs t => .done (.nums xs) t)) :=
  congrArg _ (runCommand_ready hl)

theorem shapeOk_get {n : Int} (h : 1 ≤ n) : shapeOk ⟨n, none, none⟩ = true := by
  simp [shapeOk, h]

theorem rangeOk_iff {start n : Int} : rangeOk start n = true ↔ 0 ≤ start ∧ start + n - 1 ≤ 15 :=
  decide_eq_true_iff

theorem driverGetRange_ok {s : State} {start n : Int} {bs : List Byte} (h1 : 1 ≤ n) (h0 : 0 ≤ start)
    (h15 : start + n - 1 ≤ 15) (hr : s.readsAs 0 (0x06 + 4 * start.toNat) (4 * n.toNat) bs) :
    driverGetRange start n s =
      .done (decodePieces s.cfg.polarity bs n.toNat) (s.didRead [(0x06 + 4 * start.toNat, bs)]) := by
  have hread := busRead_answered hr
  rw [State.afterRead_eq_didRead hr.1] at hread
  simp only [driverGetRange, shapeOk_get h1, rangeOk_iff.mpr ⟨h0, h15⟩, if_true, blockBase, led0OnL, hread,
    Run.andThen_done]
  rfl

theorem driverGetRange_badRange {s : State} {start n : Int} (h1 : 1 ≤ n) (h : start < 0 ∨ 15 < start + n - 1) :
    driverGetRange start n s = .raised (.channelRange start n) s := by
  have hr : ¬ rangeOk start n = true := by rw [rangeOk_iff]; omega
  simp only [driverGetRange, shapeOk_get h1, if_true, if_neg hr]

theorem decodePieces_length (p : FlagPolarity) (bs : List Byte) (n : Nat) : (decodePieces p bs n).length = n := by
  simp [decodePieces]

/-- Piece `i` of a burst decodes bytes `4i` to `4i + 3` (rule R62). -/
theorem decodePieces_getElem? (p : FlagPolarity) {bs : List Byte} {n i : Nat} {b0 b1 b2 b3 : Byte}
    (hlen : bs.length = 4 * n) (h : (bs.drop (4 * i)).take 4 = [b0, b1, b2, b3]) :
    (decodePieces p bs n)[i]? = some (decodeBlock p ⟨b0, b1, b2, b3⟩) := by
  have htake := congrArg List.length h
  simp only [List.length_take, List.length_drop, List.length_cons, List.length_nil] at htake
  have hi : i < n := by omega
  have hsplit : bs.drop (4 * i) = [b0, b1, b2, b3] ++ (bs.drop (4 * i)).drop 4 := by rw [← h, List.take_append_drop]
  rw [decodePieces, List.getElem?_map, List.getElem?_range hi, Option.map_some, hsplit]
  rfl

/-- Settles O35: one read past the checks, decoded piece by piece. -/
theorem getrangeReadsOneBurst : Obligations.GetrangeReadsOneBurst := by
  unfold Obligations.GetrangeReadsOneBurst
  refine fun s start n hl h1 => ⟨fun h0 h15 bs hr => ?_, fun hbad => ?_⟩
  · refine ⟨decodePieces s.cfg.polarity bs n.toNat, ?_, ?_, fun i b0 b1 b2 b3 => decodePieces_getElem? _ hr.1⟩
    · rw [exec_getrange hl, driverGetRange_ok h1 h0 h15 hr]
      rfl
    · rw [decodePieces_length]
      omega
  · rw [exec_getrange hl, driverGetRange_badRange h1 hbad]
    rfl

/-! ### The rows of the byte formats (rules R50, R54 to R58) -/

/-- The decoder on the block of a word, by the word's fields (rules R50, R57). -/
theorem decodeBlock_blockOfWord (p : FlagPolarity) (w : BitVec 32) :
    decodeBlock p (blockOfWord w) =
      if w.getLsbD 28 then foffValue p
      else if w.getLsbD 12 then fonValue p
      else linearValue (w.extractLsb' 0 12).toNat (w.extractLsb' 16 12).toNat := by
  have hcount (k : Nat) : (w.extractLsb' k 8).toNat + 256 * ((w.extractLsb' (k + 8) 8).toNat % 16) =
      (w.extractLsb' k 12).toNat := by
    simp only [BitVec.extractLsb'_toNat, Nat.shiftRight_add]
    omega
  have hflag (k : Nat) : (w.extractLsb' k 8).getLsbD 4 = w.getLsbD (k + 4) := by
    rw [BitVec.getLsbD_extractLsb']
    rfl
  rw [decodeBlock_eq]
  simp only [blockOfWord, hflag, hcount 0, hcount 16]

theorem decodeBlock_blockWord (p : FlagPolarity) (rHi : BitVec 3) (foff : Bool) (f : BitVec 12) (rLo : BitVec 3)
    (fon : Bool) (n : BitVec 12) :
    decodeBlock p (blockOfWord (blockWord rHi foff f rLo fon n)) =
      if foff then foffValue p else if fon then fonValue p else linearValue n.toNat f.toNat := by
  simp only [decodeBlock_blockOfWord, blockWord_foff, blockWord_fon, blockWord_on, blockWord_off]

/-- A decoder row answers the value of its word's block (rule R57, log entry 7). -/
theorem exec_decodeIn {s : State} (hl : s.latch = none) {i : Instr} {w : BitVec 32} (hi : encode i = .decodeIn w) :
    exec i s = .next (s.answer (.num (decodeBlock s.cfg.polarity (blockOfWord w)))) := by
  cases i with
  | blkDecFoff rHi f rLo fon n | blkDecFon rHi f rLo n | blkDecLinear rHi f rLo n =>
    cases hi
    rw [decodeBlock_blockWord]
    exact congrArg _ (runFormat_ready hl)
  | _ => cases hi

/-- Settles O59: row and `DEC` both answer the value of the word's block. -/
theorem decoderRowsAnswerAsDec : Obligations.DecoderRowsAnswerAsDec := by
  unfold Obligations.DecoderRowsAnswerAsDec
  exact fun s i w hl hi => ⟨_, exec_decodeIn hl hi, by rw [exec_dec hl]; rfl⟩

/-- The bytes of a linear row (rule R54). -/
theorem linearBlock_toNat (n : BitVec 12) :
    linearBlock n.toNat = ⟨0x00#8, 0x00#8, n.setWidth 8, (n >>> 8).setWidth 8⟩ := by
  rw [linearBlock_bytes _ n.isLt]
  congr 1
  · apply BitVec.eq_of_toNat_eq
    simp
  · apply BitVec.eq_of_toNat_eq
    simp [Nat.shiftRight_eq_div_pow]

theorem linearWord_low (n : BitVec 12) {k : Nat} (hk : k ≤ 8) :
    (blockWord 0 false n 0 false 0).extractLsb' k 8 = 0#8 := by
  apply BitVec.eq_of_getLsbD_eq
  intro i hi
  have hlow : ¬ 16 ≤ k + i := by omega
  rw [BitVec.getLsbD_extractLsb', linearWord_bit]
  simp [hlow]

theorem linearWord_high (n : BitVec 12) (k : Nat) :
    (blockWord 0 false n 0 false 0).extractLsb' (16 + k) 8 = (n >>> k).setWidth 8 := by
  apply BitVec.eq_of_getLsbD_eq
  intro i hi
  have hhigh : 16 ≤ 16 + k + i := by omega
  have hsub : 16 + k + i - 16 = k + i := by omega
  rw [BitVec.getLsbD_extractLsb', linearWord_bit]
  simp [hi, hhigh, hsub]

/-- The bytes of a linear row's word (rules R50, R54). -/
theorem blockOfWord_linear (n : BitVec 12) :
    blockOfWord (blockWord 0 false n 0 false 0) = ⟨0x00#8, 0x00#8, n.setWidth 8, (n >>> 8).setWidth 8⟩ := by
  unfold blockOfWord
  congr 1
  · exact linearWord_low n (Nat.zero_le 8)
  · exact linearWord_low n le_rfl
  · exact linearWord_high n 0
  · exact linearWord_high n 8

/-- An encoder row answers the block of its word (log entry 7). -/
theorem exec_encodeOut {s : State} (hl : s.latch = none) {i : Instr} {w : BitVec 32} (hi : encode i = .encodeOut w) :
    exec i s = .next (s.answer (.block (blockOfWord w))) := by
  cases i with
  | blkEncLinear n =>
    cases hi
    rw [blockOfWord_linear, ← linearBlock_toNat]
    exact congrArg _ (runFormat_ready hl)
  | blkEncFullOn | blkEncFullOffDoc | blkEncFullOffNative =>
    cases hi
    exact congrArg _ (runFormat_ready hl)
  | _ => cases hi

/-- Settles O58: every row answers the block of its word, and the words are written out. -/
theorem encoderRowsAnswerTheirBytes : Obligations.EncoderRowsAnswerTheirBytes := by
  unfold Obligations.EncoderRowsAnswerTheirBytes
  intro s hl
  refine ⟨fun n _ => ?_, exec_encodeOut hl (i := .blkEncFullOn) rfl, exec_encodeOut hl (i := .blkEncFullOffDoc) rfl,
    exec_encodeOut hl (i := .blkEncFullOffNative) rfl, fun i w _ hi => exec_encodeOut hl hi⟩
  rw [← blockOfWord_linear]
  exact exec_encodeOut hl rfl

end Sys2Proof.Machine
end

section
/-! SUPPORT. The claims of 41_driver.md: which shapes the bulk commands support and what they do past that check, and
the outcomes of `SETFREQ`, `GETFREQ`, `SETDC` and `GETDC`. -/

namespace Sys2Proof.Machine

/-! ### The shapes of the bulk commands (rules R81, R148) -/

theorem shapeOk_iff {sh : Shape} :
    shapeOk sh = true ↔
      1 ≤ sh.n ∧ (∀ k : Nat, k ∈ sh.chs → (k : Int) = sh.n) ∧ ∀ k : Nat, k ∈ sh.ds → (k : Int) = sh.n := by
  obtain ⟨n, chs, ds⟩ := sh
  cases chs <;> cases ds <;> simp [shapeOk, and_assoc]

section
variable {s : State} {start n : Int} {chs : List Int} {ds : List Rat}

theorem driverSetRange_badShape (h : n < 1 ∨ (ds.length : Int) ≠ n) :
    driverSetRange start n ds s = .raised (.shape ⟨n, none, some ds.length⟩) s := by
  refine if_neg ?_
  simp only [shapeOk_iff, Option.mem_some_iff, forall_eq']
  omega

theorem driverGetRange_badShape (h : n < 1) : driverGetRange start n s = .raised (.shape ⟨n, none, none⟩) s := by
  refine if_neg ?_
  simp only [shapeOk_iff]
  omega

theorem driverSetList_badShape (h : n < 1 ∨ (chs.length : Int) ≠ n ∨ (ds.length : Int) ≠ n) :
    driverSetList n chs ds s = .raised (.shape ⟨n, some chs.length, some ds.length⟩) s := by
  refine if_neg ?_
  simp only [shapeOk_iff, Option.mem_some_iff, forall_eq']
  omega

theorem driverGetList_badShape (h : n < 1 ∨ (chs.length : Int) ≠ n) :
    driverGetList n chs s = .raised (.shape ⟨n, some chs.length, none⟩) s := by
  refine if_neg ?_
  simp only [shapeOk_iff, Option.mem_some_iff, forall_eq']
  omega

theorem driverGetList_supported (h1 : 1 ≤ n) (hlen : (chs.length : Int) = n) :
    driverGetList n chs s = driverGetEach chs s :=
  if_pos (shapeOk_iff.mpr ⟨h1, by simpa using hlen, by simp⟩)

theorem exec_setlist (hl : s.latch = none) :
    exec (.setlist n chs ds) s = .next (endCommand (driverSetList n chs ds s)) :=
  congrArg _ (runCommand_ready hl)

theorem exec_getlist (hl : s.latch = none) :
    exec (.getlist n chs) s = .next (endCommand ((driverGetList n chs s).andThen fun xs t => .done (.nums xs) t)) :=
  congrArg _ (runCommand_ready hl)

end

/-- Settles O39: each bulk command checks its shape first. -/
theorem bulkShapesAreChecked : Obligations.BulkShapesAreChecked := by
  unfold Obligations.BulkShapesAreChecked
  refine fun s start n chs ds hl => ⟨fun h => ?_, fun h => ?_, fun h => ?_, fun h => ?_⟩
  · rw [exec_setrange hl, driverSetRange_badShape h]
    rfl
  · rw [exec_getrange hl, driverGetRange_badShape h]
    rfl
  · rw [exec_setlist hl, driverSetList_badShape h]
    rfl
  · rw [exec_getlist hl, driverGetList_badShape h]
    rfl

/-! ### `SETRANGE` (rules R76, R155) -/

/-- The lowest bad value of a good range is reported before the transaction (rules R76, R147). -/
theorem driverSetRange_badDuty {s : State} {start n : Int} {good rest : List Rat} {d : Rat} (h1 : 1 ≤ n)
    (hlen : ((good ++ d :: rest).length : Int) = n) (h0 : 0 ≤ start) (h15 : start + n - 1 ≤ 15)
    (hgood : ∀ x ∈ good, 0 ≤ x ∧ x ≤ 1) (hd : d < 0 ∨ 1 < d) :
    driverSetRange start n (good ++ d :: rest) s = .raised (.duty d) s := by
  simp only [driverSetRange, shapeOk_set h1 hlen, rangeOk_iff.mpr ⟨h0, h15⟩, if_true, encodeBurst_bad hgood hd,
    Run.ofExcept_error, Run.andThen_raised]

/-- Settles O34: the range is checked before the values are encoded, and these in order. -/
theorem setrangeErrorOrder : Obligations.SetrangeErrorOrder := by
  unfold Obligations.SetrangeErrorOrder
  refine fun s start n ds hl h1 hlen => ⟨fun hrange => ?_, fun h0 h15 good rest d hds hgood hd => ?_⟩
  · rw [exec_setrange hl, driverSetRange_badRange h1 hlen hrange]
    rfl
  · subst hds
    rw [exec_setrange hl, driverSetRange_badDuty h1 hlen h0 h15 hgood hd]
    rfl

/-! ### `SETLIST` (rule R78) -/

/-- Settles O36: the pairs of the two lists are good elements, each written in its turn. -/
theorem setlistWritesEachElement : Obligations.SetlistWritesEachElement := by
  unfold Obligations.SetlistWritesEachElement
  intro s n chs ds hl h1 hchs hds hch hd hacc
  have hlen : chs.length = ds.length := by omega
  obtain ⟨es, rfl, rfl⟩ : ∃ es : List (Int × Rat), chs = es.map Prod.fst ∧ ds = es.map Prod.snd :=
    ⟨chs.zip ds, (List.map_fst_zip hlen.le).symm, (List.map_snd_zip hlen.ge).symm⟩
  rw [List.length_map] at hchs
  subst hchs
  have hne : es ≠ [] := by
    rintro rfl
    exact absurd h1 (by decide)
  have hgood : ∀ e ∈ es, 0 ≤ e.1 ∧ e.1 ≤ 15 ∧ 0 ≤ e.2 ∧ e.2 ≤ 1 := fun e he =>
    and_assoc.mp ⟨hch _ (List.mem_map_of_mem he), hd _ (List.mem_map_of_mem he)⟩
  have heach := driverSetEach_ok es [] s hgood fun k hk => hacc k (Int.ofNat_lt.mpr hk)
  rw [List.append_nil] at heach
  rw [exec_setlist_pairs hl hne, heach, ← List.zip_of_prod rfl rfl]
  rfl

/-! ### `GETLIST` (rules R79, R180) -/

/-- The reads that answer each channel its block (rules R52, R79). -/
def channelReads (es : List (Int × Block)) : List (Nat × List Byte) :=
  es.map fun e => (0x06 + 4 * e.1.toNat, e.2.toBytes)

theorem channelReads_length (es : List (Int × Block)) : (channelReads es).length = es.length := List.length_map _

theorem State.didRead_trace_length (s : State) (rs : List (Nat × List Byte)) :
    (s.didRead rs).trace.length = s.trace.length + rs.length := by
  rw [State.didRead, List.length_append, List.length_map]

/-- A read that failed after the channels of `es` were read (rules R32, R180). -/
theorem State.channelReads_then_failedRead (s : State) (es : List (Int × Block)) (reg : Nat) :
    (s.didRead (channelReads es)).afterFailedRead reg 4 = { s with
      trace := s.trace ++ (es.map fun e => .read s.cfg.deviceAddr (0x06 + 4 * e.1.toNat) 4 e.2.toBytes) ++
        [.readFailed s.cfg.deviceAddr reg 4]
      turns := s.turns.drop (es.length + 1)
      busCount := s.busCount + (es.length + 1) } := by
  rw [State.afterFailedRead_eq]
  simp [State.didRead, channelReads, Nat.add_assoc, Block.toBytes]

/-- `GETLIST` raises what the first element that raises does, with the elements before it read (rule R180). -/
theorem exec_getlist_raised {s t : State} {n ch : Int} {good : List (Int × Block)} {rest : List Int} {e : ErrorInfo}
    (hl : s.latch = none) (hn : n = ((good.map Prod.fst ++ ch :: rest).length : Int))
    (hc : ∀ g ∈ good, 0 ≤ g.1 ∧ g.1 ≤ 15)
    (hr : ∀ (k : Nat) (g : Int × Block), good[k]? = some g → s.readsAs k (0x06 + 4 * g.1.toNat) 4 g.2.toBytes)
    (h : driverGetDc ch (s.didRead (channelReads good)) = .raised e t) :
    exec (.getlist n (good.map Prod.fst ++ ch :: rest)) s = .next (t.takeError e) := by
  have h1 : 1 ≤ n := by
    rw [hn, List.length_append, List.length_cons]
    omega
  rw [exec_getlist hl, driverGetList_supported h1 hn.symm, driverGetEach_raised good s hc hr h]
  rfl

/-- Settles O38: the answered elements are read in order, and an element that raises does so on the state they leave. -/
theorem getlistReadsEachElement : Obligations.GetlistReadsEachElement := by
  unfold Obligations.GetlistReadsEachElement
  refine ⟨fun s n chs blks hl h1 hlen hblks hc hr => ?_, fun s n good ch rest hl hn hc hr =>
    ⟨fun hbad => exec_getlist_raised hl hn hc hr (driverGetDc_badChannel hbad), fun h0 h15 why hwhy => ?_⟩⟩
  · rw [exec_getlist hl, driverGetList_supported h1 hlen, driverGetEach_ok chs blks s hblks hc hr]
    rfl
  · have hturn : (s.didRead (channelReads good)).turnAt 0 = s.turnAt good.length := by
      rw [State.didRead_turnAt, channelReads_length, Nat.add_zero]
    rw [← hturn] at hwhy
    rw [exec_getlist_raised hl hn hc hr (driverGetDc_failed h0 h15 hwhy), State.channelReads_then_failedRead,
      State.didRead_trace_length, channelReads_length]
    rfl

/-! ### `SETFREQ` and `GETFREQ` (rules R72, R73) -/

theorem driverSetFreq_badFreq {s : State} {hz : Int} (h : hz ≤ 0) : driverSetFreq hz s = .raised (.freq hz) s :=
  if_pos h

theorem driverSetFreq_badPrescale {s : State} {hz : Int} (h0 : 0 < hz) (hp : 255 < prescaleOf s.cfg hz) :
    driverSetFreq hz s = .raised (.prescale (prescaleOf s.cfg hz)) s :=
  (if_neg (not_le.mpr h0)).trans (if_pos hp)

/-- Settles O26: both checks of `SETFREQ` come before its read of `MODE1`. -/
theorem setfreqValueErrors : Obligations.SetfreqValueErrors := by
  unfold Obligations.SetfreqValueErrors
  refine fun s hz p hl => ⟨fun h => ?_, fun h0 hp h255 => ?_⟩
  · rw [exec_setfreq hl, driverSetFreq_badFreq h]
    rfl
  · rw [← prescaleOf] at hp
    subst hp
    rw [exec_setfreq hl, driverSetFreq_badPrescale h0 h255]
    rfl

section
variable {s : State} (hl : s.latch = none)
include hl

theorem exec_getfreq :
    exec .getfreq s = .next (endCommand (requireSet .drvFreq s.freq (fun hz t => .done (.int hz) t) s)) :=
  congrArg _ (runCommand_ready hl)

theorem exec_getfreq_set {hz : Int} (h : s.freq = some hz) : exec .getfreq s = .next (s.complete (.int hz)) := by
  rw [exec_getfreq hl, h, requireSet_some, endCommand_done]

theorem exec_getfreq_unset (h : s.freq = none) : exec .getfreq s = .next (s.takeRefusal (.unset .drvFreq)) := by
  rw [exec_getfreq hl, h, requireSet_none, endCommand_refused]

end

/-- Settles O28: `GETFREQ` requires `DRV.freq` and answers it. -/
theorem getfreqReturnsTheRecord : Obligations.GetfreqReturnsTheRecord := by
  unfold Obligations.GetfreqReturnsTheRecord
  exact fun s hl => ⟨fun hz => exec_getfreq_set hl, exec_getfreq_unset hl⟩

/-! ### `SETDC` and `GETDC` (rules R74, R75) -/

/-- Settles O29: past its checks `SETDC` is one write. -/
theorem setdcWritesOneBlock : Obligations.SetdcWritesOneBlock := by
  unfold Obligations.SetdcWritesOneBlock
  intro s ch d hl h0 h15 d0 d1 hacc
  rw [exec_setdc hl, driverSetDc_ok h0 h15 d0 d1 hacc]
  rfl

/-- Settles O30: a bad channel raises whatever the duty cycle, a bad duty cycle on a good channel only. -/
theorem setdcChecksChannelThenDuty : Obligations.SetdcChecksChannelThenDuty := by
  unfold Obligations.SetdcChecksChannelThenDuty
  refine fun s ch d hl => ⟨fun hch => ?_, fun h0 h15 hd => ?_⟩
  · rw [exec_setdc hl, driverSetDc_badChannel hch]
    rfl
  · rw [exec_setdc hl, driverSetDc_badDuty h0 h15 hd]
    rfl

theorem exec_getdc {s : State} (hl : s.latch = none) (ch : Int) :
    exec (.getdc ch) s = .next (endCommand ((driverGetDc ch s).andThen fun x t => .done (.num x) t)) :=
  congrArg _ (runCommand_ready hl)

/-- Settles O32: the channel check, then the one read, which answers a block or fails. -/
theorem getdcDecodesTheAnswer : Obligations.GetdcDecodesTheAnswer := by
  unfold Obligations.GetdcDecodesTheAnswer
  refine fun s ch hl => ⟨fun h0 h15 b0 b1 b2 b3 hread => ?_, fun hbad => ?_, fun h0 h15 why hwhy => ?_⟩
  · rw [exec_getdc hl, driverGetDc_ok (b := ⟨b0, b1, b2, b3⟩) h0 h15 hread]
    rfl
  · rw [exec_getdc hl, driverGetDc_badChannel hbad]
    rfl
  · rw [exec_getdc hl, driverGetDc_failed h0 h15 hwhy, State.afterFailedRead_eq]
    rfl

end Sys2Proof.Machine
end

section
/-! SUPPORT. The claims of 42_motor.md: the legs as the negative and the positive part of the drive value, and what
`MLEGS`, `MWR` and `MRD` answer once their unit is found. -/

namespace Sys2Proof.Machine

/-! ### The legs (rules R100, R104) -/

/-- Leg A is the negative part of the drive value, leg B the positive part. -/
theorem legsOf_eq_parts (v : Rat) : legsOf v = (v⁻, v⁺) := by
  unfold legsOf
  split
  case isTrue h => rw [negPart_eq_zero.mpr h.le, posPart_eq_self.mpr h.le]
  case isFalse h => rw [negPart_eq_neg.mpr (not_lt.mp h), posPart_eq_zero.mpr (not_lt.mp h)]

theorem legsOf_mul (v : Rat) : (legsOf v).1 * (legsOf v).2 = 0 := by
  unfold legsOf
  split
  · exact zero_mul v
  · exact mul_zero (-v)

theorem legsOf_sub (v : Rat) : (legsOf v).2 - (legsOf v).1 = v := by
  rw [legsOf_eq_parts, posPart_sub_negPart]

theorem legsOf_add (v : Rat) : (legsOf v).1 + (legsOf v).2 = |v| := by
  rw [legsOf_eq_parts, add_comm, posPart_add_negPart]

theorem legsOf_one_nonzero {v : Rat} (h : v ≠ 0) : (legsOf v).1 = 0 ↔ (legsOf v).2 ≠ 0 := by
  rw [legsOf_eq_parts, negPart_eq_zero, Ne, posPart_eq_zero, not_le]
  exact ⟨fun h0 => h0.lt_of_ne' h, le_of_lt⟩

/-- The uncalibrated Motor inside its speed range: the drive value is the speed. -/
theorem motorDrive_uncalibrated {speed : Rat} (h0 : -1 ≤ speed) (h1 : speed ≤ 1) : motorDrive 1 0 speed = speed := by
  rw [motorDrive, mul_one, add_zero, clamp_inside h0 h1]

/-- The legs as the answer of `MLEGS`, by the sign of the drive value. -/
theorem legs_legsOf (v : Rat) :
    Result.legs (legsOf v).1 (legsOf v).2 = if v > 0 then .legs 0 v else .legs (-v) 0 := by
  unfold legsOf
  split <;> rfl

/-! ### The field numbers of the Motor registers (rule R17) -/

theorem motorField?_eq_none {f : Int} (h0 : f ≠ 0) (h1 : f ≠ 1) (h2 : f ≠ 2) : motorField? f = none := by
  rw [motorField?, if_neg h0, if_neg h1, if_neg h2]

/-! ### A command of one Motor unit (rules R150, R153) -/

theorem runCommand_withMotor_missing {s : State} {u : Int} (hl : s.latch = none)
    (hu : u < 0 ∨ (s.motors.length : Int) ≤ u) (body : Motor → State → Run Result) :
    runCommand (withMotor u body) s = s.takeRefusal .noSuchUnit := by
  rw [runCommand_ready hl, withMotor_none _ (State.motor?_none hu), endCommand_refused]

section
variable {s : State} {u : Int} {m : Motor} (hl : s.latch = none) (hu : 0 ≤ u) (hm : s.motors[u.toNat]? = some m)
include hl hu hm

theorem runCommand_withMotor (body : Motor → State → Run Result) :
    runCommand (withMotor u body) s = endCommand (body m s) := by
  rw [runCommand_ready hl, withMotor_some _ (State.motor?_eq hu hm)]

/-! ### `MLEGS` (rule R100) -/

theorem exec_mlegs (speed : Rat) : exec (.mlegs u speed) s = .next (s.complete
    (.legs (legsOf (motorDrive m.alpha m.beta speed)).1 (legsOf (motorDrive m.alpha m.beta speed)).2)) :=
  congrArg _ (runCommand_withMotor hl hu hm _)

/-! ### `MWR` (rule R102) -/

theorem exec_mwr_alpha (v : Rat) :
    exec (.mwr u 0 v) s = .next ((s.setMotor u { m with alpha := v }).complete .none) :=
  congrArg _ (runCommand_withMotor hl hu hm _)

theorem exec_mwr_beta (v : Rat) :
    exec (.mwr u 1 v) s = .next ((s.setMotor u { m with beta := v }).complete .none) :=
  congrArg _ (runCommand_withMotor hl hu hm _)

/-- `value` is a register, but `MWR` does not write it; the other numbers are no register's. -/
theorem exec_mwr_refused {f : Int} (h0 : f ≠ 0) (h1 : f ≠ 1) (v : Rat) :
    exec (.mwr u f v) s = .next (s.takeRefusal .noSuchRegister) := by
  by_cases h2 : f = 2
  · subst h2
    exact congrArg _ (runCommand_withMotor hl hu hm _)
  · rw [exec, execMwr, runCommand_withMotor hl hu hm, motorField?_eq_none h0 h1 h2]
    rfl

/-! ### `MRD` (rule R103) -/

theorem exec_mrd_alpha : exec (.mrd u 0) s = .next (s.complete (.num m.alpha)) :=
  congrArg _ (runCommand_withMotor hl hu hm _)

theorem exec_mrd_beta : exec (.mrd u 1) s = .next (s.complete (.num m.beta)) :=
  congrArg _ (runCommand_withMotor hl hu hm _)

theorem exec_mrd_value : exec (.mrd u 2) s = .next (endCommand
    (requireSet (.motorValue u.toNat) m.value (fun x t => .done (.num x) t) s)) :=
  congrArg _ (runCommand_withMotor hl hu hm _)

theorem exec_mrd_refused {f : Int} (h0 : f ≠ 0) (h1 : f ≠ 1) (h2 : f ≠ 2) :
    exec (.mrd u f) s = .next (s.takeRefusal .noSuchRegister) := by
  rw [exec, execMrd, runCommand_withMotor hl hu hm, motorField?_eq_none h0 h1 h2]
  rfl

end

/-! ### The claims of 42_motor.md (rules R100, R102 to R104) -/

/-- Settles O41: the laws of the legs are those of the two parts of a number, a drive value lies in [-1, 1], and
`MLEGS` answers the legs of its unit's `alpha` and `beta`. -/
theorem legLaws : Obligations.LegLaws := by
  unfold Obligations.LegLaws
  refine ⟨fun v => ⟨?_, ?_, legsOf_mul v, legsOf_sub v, legsOf_add v⟩, fun speed h0 h1 => ?_,
    fun alpha beta speed => ?_, fun s t u speed m k hls hlt hu hm hk halpha hbeta => ?_⟩
  · rw [legsOf_eq_parts, negPart_def]
  · rw [legsOf_eq_parts, posPart_def]
  · rw [motorDrive_uncalibrated h0 h1]
    refine ⟨?_, legsOf_one_nonzero, ?_⟩
    · rw [← neg_sub, legsOf_sub]
    · rintro rfl
      rfl
  · obtain ⟨⟨hA0, hA1⟩, hB0, hB1⟩ := legs_in_range alpha beta speed
    exact ⟨hA0, hA1, hB0, hB1⟩
  · have ht := exec_mlegs hlt hu hk speed
    rw [← halpha, ← hbeta] at ht
    exact ⟨_, exec_mlegs hls hu hm speed, ht⟩

/-- Settles O40: the legs of the drive value, by its sign; the unit check comes before the body. -/
theorem mlegsReturnsTheLegs : Obligations.MlegsReturnsTheLegs := by
  unfold Obligations.MlegsReturnsTheLegs
  refine fun s u speed hl => ⟨fun m v hu hm hv => ?_, fun hu => ?_⟩
  · rw [← motorDrive] at hv
    rw [exec_mlegs hl hu hm, ← hv, legs_legsOf]
    rfl
  · exact congrArg _ (runCommand_withMotor_missing hl hu _)

/-- Settles O45, field by field. -/
theorem mwrWritesACoefficient : Obligations.MwrWritesACoefficient := by
  unfold Obligations.MwrWritesACoefficient
  exact fun s u v m hl hu hm => ⟨exec_mwr_alpha hl hu hm v, exec_mwr_beta hl hu hm v,
    fun f h0 h1 => exec_mwr_refused hl hu hm h0 h1 v⟩

/-- Settles O46, field by field; `value` is required to be set. -/
theorem mrdReadsARegister : Obligations.MrdReadsARegister := by
  unfold Obligations.MrdReadsARegister
  refine fun s u m hl hu hm => ⟨exec_mrd_alpha hl hu hm, exec_mrd_beta hl hu hm, fun x hx => ?_, fun hnone => ?_,
    fun f h0 h1 h2 => exec_mrd_refused hl hu hm h0 h1 h2⟩
  · rw [exec_mrd_value hl hu hm, hx, requireSet_some, endCommand_done]
    rfl
  · rw [exec_mrd_value hl hu hm, hnone, requireSet_none, endCommand_refused]
    rfl

end Sys2Proof.Machine
end

section
/-! SUPPORT. The claims of 43_servo.md: the Servo transform as a function of its five coefficients, and what each Servo
command answers once its unit is found. -/

namespace Sys2Proof.ServoCal

/-! ### The transform before its clamp (rules R116, R121) -/

/-- The duty cycle of a position before the clamp of rule R116. -/
def line (c : ServoCal) (pos : Rat) : Rat := if 0 < pos then pos * c.alpha0 + c.beta else pos * c.alpha1 + c.beta

theorem line_pos (c : ServoCal) {pos : Rat} (h : 0 < pos) : c.line pos = pos * c.alpha0 + c.beta := if_pos h

theorem line_nonpos (c : ServoCal) {pos : Rat} (h : pos ≤ 0) : c.line pos = pos * c.alpha1 + c.beta :=
  if_neg (not_lt.mpr h)

theorem line_zero (c : ServoCal) : c.line 0 = c.beta := by
  rw [line_nonpos c le_rfl, zero_mul, zero_add]

/-- The coefficients after `SREV` (rule R118). -/
def reversed (c : ServoCal) : ServoCal := { c with alpha0 := -c.alpha1, alpha1 := -c.alpha0 }

theorem line_reversed (c : ServoCal) (pos : Rat) : c.reversed.line pos = c.line (-pos) := by
  obtain hneg | rfl | hpos := lt_trichotomy pos 0
  · rw [line_nonpos _ hneg.le, line_pos _ (neg_pos.mpr hneg), neg_mul, reversed, mul_neg]
  · rw [neg_zero, line_zero, line_zero, reversed]
  · rw [line_pos _ hpos, line_nonpos _ (neg_nonpos.mpr hpos.le), neg_mul, reversed, mul_neg]

/-! ### Coefficients that fit their limits (rules R115, R121) -/

/-- Non-negative slopes that reach the limits exactly at the ends of the position range. -/
structure Fitted (c : ServoCal) : Prop where
  alpha0_nonneg : 0 ≤ c.alpha0
  alpha1_nonneg : 0 ≤ c.alpha1
  top : c.beta + c.alpha0 = c.maxDuty
  bottom : c.beta - c.alpha1 = c.minDuty

theorem Fitted.line_one {c : ServoCal} (h : c.Fitted) : c.line 1 = c.maxDuty := by
  rw [line_pos c one_pos, one_mul, add_comm, h.top]

theorem Fitted.line_neg_one {c : ServoCal} (h : c.Fitted) : c.line (-1) = c.minDuty := by
  rw [line_nonpos c (by decide), neg_one_mul, neg_add_eq_sub, h.bottom]

/-- Inside the position range the line stays inside the limits. -/
theorem Fitted.line_mem {c : ServoCal} (h : c.Fitted) {pos : Rat} (hlow : -1 ≤ pos) (hhigh : pos ≤ 1) :
    c.minDuty ≤ c.line pos ∧ c.line pos ≤ c.maxDuty := by
  obtain ⟨h0, h1, htop, hbottom⟩ := h
  obtain hpos | hpos := lt_or_ge 0 pos
  · have hmul0 : 0 ≤ pos * c.alpha0 := mul_nonneg hpos.le h0
    have hmul1 : pos * c.alpha0 ≤ c.alpha0 := mul_le_of_le_one_left h0 hhigh
    rw [line_pos c hpos]
    constructor <;> linarith
  · have hmul0 : pos * c.alpha1 ≤ 0 := mul_nonpos_of_nonpos_of_nonneg hpos h1
    have hmul1 : -1 * c.alpha1 ≤ pos * c.alpha1 := mul_le_mul_of_nonneg_right hlow h1
    rw [line_nonpos c hpos]
    constructor <;> linarith

end Sys2Proof.ServoCal

namespace Sys2Proof.Machine

/-- Ordered widths at a positive frequency give coefficients that fit. -/
theorem servoCalOf_fitted {hz : Int} (hhz : 0 < hz) {minW centerW maxW : Rat} (hmin : minW ≤ centerW)
    (hmax : centerW ≤ maxW) : (servoCalOf hz minW centerW maxW).Fitted := by
  have hperiod : (0 : Rat) ≤ 1000000 / (hz : Rat) := div_nonneg (by decide) (Int.cast_nonneg hhz.le)
  exact
    { alpha0_nonneg := sub_nonneg.mpr (div_le_div_of_nonneg_right hmax hperiod)
      alpha1_nonneg := sub_nonneg.mpr (div_le_div_of_nonneg_right hmin hperiod)
      top := add_sub_cancel _ _
      bottom := sub_sub_cancel _ _ }

/-! ### The coefficient registers (rule R17) -/

/-- The field number of a coefficient register. -/
def ServoField.number : ServoField → Int
  | .alpha0 => 0
  | .alpha1 => 1
  | .beta => 2
  | .minDuty => 3
  | .maxDuty => 4

theorem servoField?_number (fld : ServoField) : servoField? fld.number = some fld := by
  cases fld <;> rfl

theorem servoField?_eq_none {f : Int} (h : f < 0 ∨ 4 < f) : servoField? f = none := by
  simp only [servoField?]
  repeat rw [if_neg (by omega)]

/-- The coefficient registers in the order of their numbers. -/
def coefficientFields : List ServoField := [.alpha0, .alpha1, .beta, .minDuty, .maxDuty]

theorem Servo.get_slopeField_pos (v : Servo) {pos : Rat} (h : 0 < pos) : v.get (slopeField pos) = v.alpha0 := by
  rw [slopeField_pos h, get]

theorem Servo.get_slopeField_nonpos (v : Servo) {pos : Rat} (h : pos ≤ 0) : v.get (slopeField pos) = v.alpha1 := by
  rw [slopeField_nonpos h, get]

/-- The slope of the position's side is set. -/
theorem Servo.get_slopeField_eq_some {v : Servo} {pos a : Rat} (h0 : 0 < pos → v.alpha0 = some a)
    (h1 : pos ≤ 0 → v.alpha1 = some a) : v.get (slopeField pos) = some a := by
  obtain hpos | hpos := lt_or_ge 0 pos
  · rw [v.get_slopeField_pos hpos, h0 hpos]
  · rw [v.get_slopeField_nonpos hpos, h1 hpos]

/-- A register that the position needs is unset. -/
theorem Servo.needed_unset {v : Servo} {pos : Rat}
    (h : (0 < pos ∧ v.alpha0 = none) ∨ (pos ≤ 0 ∧ v.alpha1 = none) ∨ v.beta = none ∨ v.minDuty = none ∨
      v.maxDuty = none) :
    v.get (slopeField pos) = none ∨ v.beta = none ∨ v.minDuty = none ∨ v.maxDuty = none := by
  obtain ⟨hpos, h0⟩ | ⟨hpos, h1⟩ | hrest := h
  · exact .inl ((v.get_slopeField_pos hpos).trans h0)
  · exact .inl ((v.get_slopeField_nonpos hpos).trans h1)
  · exact .inr hrest

theorem Servo.eq_withCal {v : Servo} {c : ServoCal} (h0 : v.alpha0 = some c.alpha0) (h1 : v.alpha1 = some c.alpha1)
    (hb : v.beta = some c.beta) (hlo : v.minDuty = some c.minDuty) (hhi : v.maxDuty = some c.maxDuty) :
    v = v.withCal c := by
  rw [withCal, ← h0, ← h1, ← hb, ← hlo, ← hhi]

theorem State.setServo_getElem? {s : State} {u : Int} {v : Servo} (h : s.servos[u.toNat]? = some v) (w : Servo) :
    (s.setServo u w).servos[u.toNat]? = some w := by
  obtain ⟨hlt, -⟩ := List.getElem?_eq_some_iff.mp h
  rw [setServo_servos, List.getElem?_set_self hlt]

theorem State.complete_setServo (s : State) (r : Result) (u : Int) (v : Servo) :
    (s.complete r).setServo u v = (s.setServo u v).complete r := rfl

/-- A unit's registers replaced and put back. -/
theorem State.setServo_setServo {s : State} {u : Int} {v : Servo} (h : s.servos[u.toNat]? = some v) (w : Servo) :
    (s.setServo u w).setServo u v = s := by
  obtain ⟨hlt, rfl⟩ := List.getElem?_eq_some_iff.mp h
  simp only [setServo, List.set_set, List.set_getElem_self]

/-! ### A command of one Servo unit (rules R150, R153) -/

section
variable {s : State} {u : Int} {v : Servo} (hl : s.latch = none) (hu : 0 ≤ u) (hv : s.servos[u.toNat]? = some v)
include hl hu hv

theorem runCommand_withServo (body : Servo → State → Run Result) :
    runCommand (withServo u body) s = endCommand (body v s) := by
  rw [runCommand_ready hl, withServo_some _ (State.servo?_eq hu hv)]

/-! ### `SCONFIG` (rule R115) -/

theorem exec_sconfig_set {hz : Int} (hf : s.freq = some hz) (minW centerW maxW : Rat) :
    exec (.sconfig u minW centerW maxW) s =
      .next ((s.setServo u (v.withCal (servoCalOf hz minW centerW maxW))).complete .none) := by
  rw [exec, execSconfig, runCommand_withServo hl hu hv, hf, requireSet_some, endCommand_done]

theorem exec_sconfig_unset (hf : s.freq = none) (minW centerW maxW : Rat) :
    exec (.sconfig u minW centerW maxW) s = .next (s.takeRefusal (.unset .drvFreq)) := by
  rw [exec, execSconfig, runCommand_withServo hl hu hv, hf, requireSet_none, endCommand_refused]

/-! ### `SDUTY` and `SSET` (rules R116, R117) -/

theorem exec_sduty (pos : Rat) : exec (.sduty u pos) s =
    .next (endCommand ((servoDuty u v pos s).andThen fun d t => .done (.num d) t)) :=
  congrArg _ (runCommand_withServo hl hu hv _)

theorem exec_sset (pos : Rat) : exec (.sset u pos) s =
    .next (endCommand ((servoDuty u v pos s).andThen fun d t => driverSetDc v.ch d t)) :=
  congrArg _ (runCommand_withServo hl hu hv _)

section
variable {pos a b lo hi : Rat} (ha : v.get (slopeField pos) = some a) (hb : v.beta = some b)
  (hlo : v.minDuty = some lo) (hhi : v.maxDuty = some hi)
include ha hb hlo hhi

theorem exec_sduty_set : exec (.sduty u pos) s = .next (s.complete (.num (clamp (pos * a + b) lo hi))) := by
  rw [exec_sduty hl hu hv, servoDuty_done u ha hb hlo hhi, Run.andThen_done, endCommand_done]

theorem exec_sset_set :
    exec (.sset u pos) s = .next (endCommand (driverSetDc v.ch (clamp (pos * a + b) lo hi) s)) := by
  rw [exec_sset hl hu hv, servoDuty_done u ha hb hlo hhi, Run.andThen_done]

end

/-! ### `SREV` (rule R118) -/

theorem exec_srev_set {a0 a1 : Rat} (h0 : v.alpha0 = some a0) (h1 : v.alpha1 = some a1) :
    exec (.srev u) s =
      .next ((s.setServo u { v with alpha0 := some (-a1), alpha1 := some (-a0) }).complete .none) := by
  rw [exec, execSrev, runCommand_withServo hl hu hv, h1, requireSet_some, h0, requireSet_some, endCommand_done]

theorem exec_srev_unset (h : v.alpha0 = none ∨ v.alpha1 = none) :
    ∃ f : ServoField, exec (.srev u) s = .next (s.takeRefusal (.unset (.servo u.toNat f))) := by
  rw [exec, execSrev, runCommand_withServo hl hu hv]
  cases h1 : v.alpha1 with
  | none => exact ⟨.alpha1, rfl⟩
  | some a1 =>
    have h0 : v.alpha0 = none := h.resolve_right (by simp [h1])
    rw [requireSet_some, h0]
    exact ⟨.alpha0, rfl⟩

/-- The second `SREV` puts the registers back: negation and exchange are their own inverses. -/
theorem exec_srev_again {a0 a1 : Rat} (h0 : v.alpha0 = some a0) (h1 : v.alpha1 = some a1) :
    exec (.srev u) ((s.setServo u { v with alpha0 := some (-a1), alpha1 := some (-a0) }).complete .none) =
      .next ((s.complete .none).complete .none) := by
  have hback : { v with alpha0 := some (- -a0), alpha1 := some (- -a1) } = v := by
    rw [neg_neg, neg_neg, ← h0, ← h1]
  rw [exec_srev_set (s := (s.setServo u _).complete .none) hl hu (State.setServo_getElem? hv _) rfl rfl, hback,
    State.complete_setServo, State.setServo_setServo hv]

/-! ### `SWR` and `SRD` (rules R119, R120) -/

theorem exec_swr_field (fld : ServoField) (x : Rat) :
    exec (.swr u fld.number x) s = .next ((s.setServo u (v.set fld x)).complete .none) := by
  rw [exec, execSwr, runCommand_withServo hl hu hv, servoField?_number]
  rfl

theorem exec_swr_refused {f : Int} (hf : f < 0 ∨ 4 < f) (x : Rat) :
    exec (.swr u f x) s = .next (s.takeRefusal .noSuchRegister) := by
  rw [exec, execSwr, runCommand_withServo hl hu hv, servoField?_eq_none hf]
  rfl

theorem exec_srd_field (fld : ServoField) : exec (.srd u fld.number) s = .next (endCommand
    (requireSet (.servo u.toNat fld) (v.get fld) (fun x t => .done (.num x) t) s)) := by
  rw [exec, execSrd, runCommand_withServo hl hu hv, servoField?_number]

theorem exec_srd_refused {f : Int} (hf : f < 0 ∨ 4 < f) :
    exec (.srd u f) s = .next (s.takeRefusal .noSuchRegister) := by
  rw [exec, execSrd, runCommand_withServo hl hu hv, servoField?_eq_none hf]
  rfl

end

/-! ### `SDUTY` on a unit with all five coefficients (rules R116, R121) -/

section
variable {s : State} {u : Int} {v : Servo} {c : ServoCal} (hl : s.latch = none) (hu : 0 ≤ u)
  (hv : s.servos[u.toNat]? = some (v.withCal c))
include hl hu hv

theorem answeredNum_sduty (pos : Rat) :
    answeredNum (exec (.sduty u pos) s) = some (clamp (c.line pos) c.minDuty c.maxDuty) := by
  obtain hpos | hpos := lt_or_ge 0 pos
  · rw [exec_sduty_set hl hu hv (Servo.get_slopeField_pos _ hpos) rfl rfl rfl, c.line_pos hpos]
    rfl
  · rw [exec_sduty_set hl hu hv (Servo.get_slopeField_nonpos _ hpos) rfl rfl rfl, c.line_nonpos hpos]
    rfl

/-- With fitted coefficients and a position in its range the clamp never acts. -/
theorem answeredNum_sduty_fitted (hc : c.Fitted) {pos : Rat} (hlow : -1 ≤ pos) (hhigh : pos ≤ 1) :
    answeredNum (exec (.sduty u pos) s) = some (c.line pos) := by
  obtain ⟨hmin, hmax⟩ := hc.line_mem hlow hhigh
  rw [answeredNum_sduty hl hu hv, clamp_inside hmin hmax]

/-- `SREV` mirrors the transform, and a second one restores the registers. -/
theorem srev_mirrors_sduty : ∃ t, exec (.srev u) s = .next t ∧
    (∀ pos, answeredNum (exec (.sduty u pos) t) = answeredNum (exec (.sduty u (-pos)) s)) ∧
    ∃ t', exec (.srev u) t = .next t' ∧ t'.servos = s.servos := by
  refine ⟨(s.setServo u (v.withCal c.reversed)).complete .none, exec_srev_set hl hu hv rfl rfl, fun pos => ?_,
    _, exec_srev_again hl hu hv rfl rfl, rfl⟩
  have hrev := answeredNum_sduty (s := (s.setServo u (v.withCal c.reversed)).complete .none) hl hu
    (State.setServo_getElem? hv _) pos
  rw [hrev, answeredNum_sduty hl hu hv, c.line_reversed]
  rfl

end

/-! ### The claims of 43_servo.md (rules R115 to R121) -/

/-- Settles O49: `SDUTY` answers the clamped line of the unit's coefficients; those of `SCONFIG` fit their limits, so
that the clamp never acts. -/
theorem servoLaws : Obligations.ServoLaws := by
  unfold Obligations.ServoLaws
  refine ⟨fun s u v a0 a1 b lo hi hl hu hv h0 h1 hb hlo hhi => ?_,
    fun s u hz v minW centerW maxW hl hu hv hf hhz hmin hmax => ?_⟩
  · have hcal : v = v.withCal ⟨a0, a1, b, lo, hi⟩ := Servo.eq_withCal h0 h1 hb hlo hhi
    rw [hcal] at hv
    refine ⟨fun hlob hbhi => ?_, fun hlohi pos => ⟨_, answeredNum_sduty hl hu hv pos, clamp_bounds hlohi⟩,
      srev_mirrors_sduty hl hu hv⟩
    rw [answeredNum_sduty hl hu hv, ServoCal.line_zero, clamp_inside hlob hbhi]
  · have hc : (servoCalOf hz minW centerW maxW).Fitted := servoCalOf_fitted hhz hmin hmax
    have hset := State.setServo_getElem? hv (v.withCal (servoCalOf hz minW centerW maxW))
    have hline {pos : Rat} := answeredNum_sduty_fitted (pos := pos)
      (s := (s.setServo u (v.withCal (servoCalOf hz minW centerW maxW))).complete .none) hl hu hset hc
    refine ⟨_, _, _, _, _, _, exec_sconfig_set hl hu hv hf minW centerW maxW, hset, hc.alpha0_nonneg,
      hc.alpha1_nonneg, hc.top, hc.bottom, ?_, ?_, ?_, fun pos => hline⟩
    · rw [hline (by decide) (by decide), hc.line_one]
    · rw [hline (by decide) (by decide), hc.line_neg_one]
    · rw [hline (by decide) (by decide), ServoCal.line_zero]

/-- Settles O47: `SCONFIG` requires `DRV.freq` and writes the coefficients of its period. -/
theorem sconfigDerivesTheCoefficients : Obligations.SconfigDerivesTheCoefficients := by
  unfold Obligations.SconfigDerivesTheCoefficients
  refine fun s u minW centerW maxW v hl hu hv => ⟨fun hz period hf hperiod => ?_, fun hf => ?_⟩
  · subst hperiod
    exact exec_sconfig_set hl hu hv hf minW centerW maxW
  · exact exec_sconfig_unset hl hu hv hf minW centerW maxW

/-- Settles O48: the slope register is the one of the position's side. -/
theorem sdutyIsPiecewiseLinear : Obligations.SdutyIsPiecewiseLinear := by
  unfold Obligations.SdutyIsPiecewiseLinear
  refine fun s u pos v hl hu hv => ⟨fun a b lo hi hpos h0 hb hlo hhi => ?_, fun a b lo hi hpos h1 hb hlo hhi => ?_,
    fun hunset => ?_⟩
  · exact exec_sduty_set hl hu hv ((v.get_slopeField_pos hpos).trans h0) hb hlo hhi
  · exact exec_sduty_set hl hu hv ((v.get_slopeField_nonpos hpos).trans h1) hb hlo hhi
  · obtain ⟨f, -, -, hduty⟩ := servoDuty_unset (s := s) u (Servo.needed_unset hunset)
    rw [exec_sduty hl hu hv, hduty]
    exact ⟨f, rfl⟩

/-- Settles O50: past the coefficients `SSET` is `SETDC` of the unit's channel and the duty cycle. -/
theorem ssetWritesTheDuty : Obligations.SsetWritesTheDuty := by
  unfold Obligations.SsetWritesTheDuty
  refine fun s u pos v hl hu hv => ⟨fun a b lo hi d h0 h1 hb hlo hhi hd => ?_, fun hunset => ?_⟩
  · rw [exec_sset_set hl hu hv (Servo.get_slopeField_eq_some h0 h1) hb hlo hhi, ← hd]
    refine ⟨fun hch0 hch1 hd0 hd1 hacc => ?_, fun hch => ?_, fun hch0 hch1 hbad => ?_⟩
    · rw [driverSetDc_ok hch0 hch1 hd0 hd1 hacc]
      rfl
    · rw [driverSetDc_badChannel hch]
      rfl
    · rw [driverSetDc_badDuty hch0 hch1 hbad]
      rfl
  · obtain ⟨f, hmem, hf, hduty⟩ := servoDuty_unset (s := s) u (Servo.needed_unset hunset)
    rw [exec_sset hl hu hv, hduty]
    exact ⟨f, hmem, hf, rfl⟩

/-- Settles O51: a second `SREV` negates and exchanges back. -/
theorem srevNegatesAndExchanges : Obligations.SrevNegatesAndExchanges := by
  unfold Obligations.SrevNegatesAndExchanges
  refine fun s u v hl hu hv => ⟨fun a0 a1 h0 h1 => ⟨exec_srev_set hl hu hv h0 h1, fun t ht => ?_⟩,
    exec_srev_unset hl hu hv⟩
  rw [exec_srev_set hl hu hv h0 h1] at ht
  cases ht
  exact exec_srev_again hl hu hv h0 h1

/-- Settles O52: the listed numbers are those of the five coefficients, and one argument serves them all. -/
theorem servoRegisterAccess : Obligations.ServoRegisterAccess := by
  unfold Obligations.ServoRegisterAccess
  refine fun s u x v hl hu hv => ⟨fun f w hmem => ?_, fun f fld r hmem => ?_,
    fun f hf => ⟨exec_swr_refused hl hu hv hf x, exec_srd_refused hl hu hv hf⟩⟩
  · obtain ⟨fld, -, hfld⟩ :=
      List.mem_map (l := coefficientFields) (f := fun fld => (fld.number, v.set fld x)).mp hmem
    cases hfld
    exact exec_swr_field hl hu hv fld x
  · obtain ⟨fld', -, hfld⟩ :=
      List.mem_map (l := coefficientFields) (f := fun fld => (fld.number, fld, v.get fld)).mp hmem
    cases hfld
    refine ⟨fun y hy => ?_, fun hnone => ?_⟩
    · rw [exec_srd_field hl hu hv, hy]
      rfl
    · rw [exec_srd_field hl hu hv, hnone]
      rfl

end Sys2Proof.Machine
end

section
/-! SUPPORT. The claims of 44_calibration_store.md: the first thing a document lacks, as a search through the units'
keys and required fields, and what `CALLOAD` does with what its checks answer. -/

namespace Sys2Proof.Machine

/-! ### What the checks of `CALLOAD` raise (rules R135, R138) -/

/-- The error a check raises, if it raises one. -/
def raised? {α : Type} : Except ErrorInfo α → Option ErrorInfo
  | .ok _ => none
  | .error e => some e

theorem eq_error_of_raised? {α : Type} {x : Except ErrorInfo α} {e : ErrorInfo} (h : raised? x = some e) :
    x = .error e := by
  cases x with
  | ok a => cases h
  | error e' => exact congrArg _ (Option.some.inj h)

theorem needUnit_bind {α : Type} {doc : DocMap} {unit : String} {fs : DocFields} (h : docLookup doc unit = some fs)
    (k : DocFields → Except ErrorInfo α) : needUnit doc unit >>= k = k fs := by
  rw [needUnit, h]
  rfl

theorem needField_bind {α : Type} {unit f : String} {fs : DocFields} {x : Rat} (h : docLookup fs f = some x)
    (k : Rat → Except ErrorInfo α) : needField unit fs f >>= k = k x := by
  rw [needField, h]
  rfl

theorem raised?_needField_eq_none {unit f : String} {fs : DocFields} (h : docLookup fs f ≠ none) :
    raised? (needField unit fs f) = none := by
  obtain ⟨x, hx⟩ := needField_ok (unit := unit) h
  rw [hx, raised?]

/-- The first of the fields that a unit's entry lacks, as the error that names it. -/
def missingField? (unit : String) (fs : DocFields) (fields : List String) : Option ErrorInfo :=
  fields.findSome? fun f => raised? (needField unit fs f)

/-- What a document lacks of a unit with these required fields, the unit itself first. -/
def missing? (doc : DocMap) (unit : String × List String) : Option ErrorInfo :=
  match docLookup doc unit.1 with
  | none => some (.docMissingUnit unit.1)
  | some fs => missingField? unit.1 fs unit.2

/-- A field's check before checks that search the rest of the fields. -/
theorem raised?_needField_bind {α : Type} {unit f : String} {fs : DocFields} {fields : List String}
    {k : Rat → Except ErrorInfo α} (h : ∀ x, raised? (k x) = missingField? unit fs fields) :
    raised? (needField unit fs f >>= k) = missingField? unit fs (f :: fields) := by
  rw [missingField?, List.findSome?_cons]
  cases needField unit fs f with
  | ok x => exact h x
  | error e => rfl

/-- A unit's check before checks that search its fields. -/
theorem raised?_needUnit_bind {α : Type} {doc : DocMap} {unit : String} {fields : List String}
    {k : DocFields → Except ErrorInfo α} (h : ∀ fs, raised? (k fs) = missingField? unit fs fields) :
    raised? (needUnit doc unit >>= k) = missing? doc (unit, fields) := by
  rw [needUnit, missing?]
  cases docLookup doc unit with
  | none => rfl
  | some fs => exact h fs

theorem raised?_loadMotor (doc : DocMap) (m : Motor) :
    raised? (loadMotor doc m) = missing? doc (m.name, ["alpha", "beta"]) :=
  raised?_needUnit_bind fun _ => raised?_needField_bind fun _ => raised?_needField_bind fun _ => rfl

theorem raised?_loadServo (doc : DocMap) (v : Servo) :
    raised? (loadServo doc v) = missing? doc (v.name, ["alpha0", "alpha1", "beta", "min_duty", "max_duty"]) :=
  raised?_needUnit_bind fun _ => raised?_needField_bind fun _ => raised?_needField_bind fun _ =>
    raised?_needField_bind fun _ => raised?_needField_bind fun _ => raised?_needField_bind fun _ => rfl

/-- Loading units raises what the search through their keys finds first. -/
theorem raised?_loadUnits {α : Type} {load : α → Except ErrorInfo α} {doc : DocMap} {key : α → String × List String}
    (h : ∀ x, raised? (load x) = missing? doc (key x)) (xs : List α) :
    raised? (loadUnits load xs) = (xs.map key).findSome? (missing? doc) := by
  induction xs with
  | nil => rfl
  | cons x xs ih =>
    rw [List.map_cons, List.findSome?_cons, ← ih, ← h, loadUnits]
    cases load x with
    | error e => rfl
    | ok y => cases loadUnits load xs <;> rfl

/-- The units' keys and their required fields, in the order `CALLOAD` checks them (rules R135, R138). -/
def requiredKeys (s : State) : List (String × List String) :=
  (s.motors.map fun m => (m.name, ["alpha", "beta"])) ++
    (s.servos.map fun v => (v.name, ["alpha0", "alpha1", "beta", "min_duty", "max_duty"]))

/-- `CALLOAD` of a map raises what the search through the required keys finds first. -/
theorem raised?_loadDoc_map (doc : DocMap) (s : State) :
    raised? (loadDoc (.map doc) s) = (requiredKeys s).findSome? (missing? doc) := by
  rw [requiredKeys, List.findSome?_append, ← raised?_loadUnits (raised?_loadMotor doc),
    ← raised?_loadUnits (raised?_loadServo doc), loadDoc]
  cases loadUnits (loadMotor doc) s.motors with
  | error e => rfl
  | ok motors => cases loadUnits (loadServo doc) s.servos <;> rfl

/-! ### What a document lacks (rule R135) -/

theorem missing?_unit {doc : DocMap} {unit : String} {fields : List String} (h : docLookup doc unit = none) :
    missing? doc (unit, fields) = some (.docMissingUnit unit) := by
  rw [missing?, h]

theorem missing?_found {doc : DocMap} {unit : String} {fs : DocFields} (h : docLookup doc unit = some fs)
    (fields : List String) : missing? doc (unit, fields) = missingField? unit fs fields := by
  rw [missing?, h]

theorem missingField?_eq_none {unit : String} {fs : DocFields} {fields : List String}
    (h : ∀ f ∈ fields, docLookup fs f ≠ none) : missingField? unit fs fields = none :=
  List.findSome?_eq_none_iff.mpr fun f hf => raised?_needField_eq_none (h f hf)

theorem missingField?_first {unit field : String} {fs : DocFields} {before : List String} (after : List String)
    (hbefore : ∀ f ∈ before, docLookup fs f ≠ none) (hfield : docLookup fs field = none) :
    missingField? unit fs (before ++ field :: after) = some (.docMissingField unit field) := by
  rw [missingField?, List.findSome?_append, ← missingField?, missingField?_eq_none hbefore, Option.none_or,
    List.findSome?_cons, needField_missing hfield, raised?]

/-! ### Complete documents (rules R135, R138) -/

theorem loadMotor_ok {doc : DocMap} {m : Motor} {fs : DocFields} {alpha beta : Rat}
    (hfs : docLookup doc m.name = some fs) (halpha : docLookup fs "alpha" = some alpha)
    (hbeta : docLookup fs "beta" = some beta) : loadMotor doc m = .ok { m with alpha := alpha, beta := beta } := by
  rw [loadMotor, needUnit_bind hfs, needField_bind halpha, needField_bind hbeta]
  rfl

theorem loadServo_ok {doc : DocMap} {v : Servo} {fs : DocFields} {c : ServoCal}
    (hfs : docLookup doc v.name = some fs) (h0 : docLookup fs "alpha0" = some c.alpha0)
    (h1 : docLookup fs "alpha1" = some c.alpha1) (hb : docLookup fs "beta" = some c.beta)
    (hlo : docLookup fs "min_duty" = some c.minDuty) (hhi : docLookup fs "max_duty" = some c.maxDuty) :
    loadServo doc v = .ok (v.withCal c) := by
  rw [loadServo, needUnit_bind hfs, needField_bind h0, needField_bind h1, needField_bind hb, needField_bind hlo,
    needField_bind hhi]
  rfl

theorem loadDoc_map_ok {doc : DocMap} {s : State} {motors : List Motor} {servos : List Servo}
    (hm : loadUnits (loadMotor doc) s.motors = .ok motors) (hv : loadUnits (loadServo doc) s.servos = .ok servos) :
    loadDoc (.map doc) s = .ok (motors, servos) := by
  simp only [loadDoc, hm, hv]
  rfl

/-! ### `CALLOAD` (rule R135) -/

section
variable {s : State} (hl : s.latch = none) {doc : CalDoc}
include hl

theorem exec_calload_ok {motors : List Motor} {servos : List Servo} (h : loadDoc doc s = .ok (motors, servos)) :
    exec (.calload doc) s = .next ({ s with motors := motors, servos := servos }.complete .none) := by
  rw [exec, execCalload, runCommand_ready hl, h, Run.ofExcept_ok, Run.andThen_done, endCommand_done]

theorem exec_calload_raised {e : ErrorInfo} (h : raised? (loadDoc doc s) = some e) :
    exec (.calload doc) s = .next (s.takeError e) := by
  rw [exec, execCalload, runCommand_ready hl, eq_error_of_raised? h, Run.ofExcept_error, Run.andThen_raised,
    endCommand_raised]

end

/-! ### The claims of 44_calibration_store.md (rules R135 to R138) -/

/-- Settles O54: each unit loads as the document gives it, so every check passes. -/
theorem calloadLoadsEveryUnit : Obligations.CalloadLoadsEveryUnit := by
  unfold Obligations.CalloadLoadsEveryUnit
  intro s doc motors servos hl hmlen hvlen hmotors hservos
  have hm : loadUnits (loadMotor doc) s.motors = .ok motors := loadUnits_ok _ _ hmlen fun k m m' h h' => by
    obtain ⟨fs, hfs, halpha, hbeta, heq⟩ := hmotors k m m' h h'
    exact (loadMotor_ok hfs halpha hbeta).trans (congrArg _ heq.symm)
  have hv : loadUnits (loadServo doc) s.servos = .ok servos := loadUnits_ok _ _ hvlen fun k v v' h h' => by
    obtain ⟨fs, a0, a1, b, lo, hi, hfs, h0, h1, hb, hlo, hhi, rfl⟩ := hservos k v v' h h'
    exact loadServo_ok (c := ⟨a0, a1, b, lo, hi⟩) hfs h0 h1 hb hlo hhi
  exact exec_calload_ok hl (loadDoc_map_ok hm hv)

/-- Settles O55: the search passes over the good units and ends at the first one the document lacks something of. -/
theorem failedLoadChangesNothing : Obligations.FailedLoadChangesNothing := by
  unfold Obligations.FailedLoadChangesNothing
  refine fun s hl => ⟨exec_calload_raised hl rfl, exec_calload_raised hl rfl,
    fun doc good rest unit fields hkeys hgood => ?_⟩
  have hskip : good.findSome? (missing? doc) = none := List.findSome?_eq_none_iff.mpr fun (unit, fields) hg => by
    obtain ⟨fs, hfs, hfields⟩ := hgood _ hg
    rw [missing?_found hfs, missingField?_eq_none hfields]
  have raises : ∀ e, missing? doc (unit, fields) = some e → exec (.calload (.map doc)) s = .next (s.takeError e) := by
    intro e he
    refine exec_calload_raised hl ?_
    rw [raised?_loadDoc_map, requiredKeys, hkeys, List.findSome?_append, hskip, Option.none_or, List.findSome?_cons, he]
  refine ⟨fun hunit => raises _ (missing?_unit hunit), fun fs before after field hfs hfields hbefore hfield => ?_⟩
  subst hfields
  exact raises _ ((missing?_found hfs _).trans (missingField?_first after hbefore hfield))

/-- Settles O57, from O56 and O54: `CALSAVE` answers a document only when every coefficient is set, and the document
gives each unit the values its registers hold. -/
theorem saveThenLoadKeepsCoefficients : Obligations.SaveThenLoadKeepsCoefficients := by
  unfold Obligations.SaveThenLoadKeepsCoefficients
  intro s t doc hl hkeys hsave hresp
  obtain ⟨hset, hunset⟩ := calsaveWritesTheFullDocument s hl
  by_cases! hnone : ∃ v ∈ s.servos,
    v.alpha0 = none ∨ v.alpha1 = none ∨ v.beta = none ∨ v.minDuty = none ∨ v.maxDuty = none
  · obtain ⟨k, v, f, -, -, hrefused⟩ := hunset hnone
    cases hrefused.symm.trans hsave
    cases hresp
  · obtain ⟨d, hsaved, hdoc⟩ := hset hnone
    cases hsaved.symm.trans hsave
    cases hresp
    obtain ⟨hmotors, hservos, -⟩ := hdoc hkeys
    refine calloadLoadsEveryUnit _ doc s.motors s.servos hl rfl rfl (fun k m m' h h' => ?_) (fun k v v' h h' => ?_)
    · cases h.symm.trans h'
      exact ⟨_, hmotors m (List.mem_of_getElem? h), rfl, rfl, rfl⟩
    · cases h.symm.trans h'
      obtain ⟨a0, a1, b, lo, hi, h0, h1, hb, hlo, hhi, hlook⟩ := hservos v (List.mem_of_getElem? h)
      exact ⟨_, a0, a1, b, lo, hi, hlook, rfl, rfl, rfl, rfl, rfl,
        Servo.eq_withCal (c := ⟨a0, a1, b, lo, hi⟩) h0 h1 hb hlo hhi⟩

end Sys2Proof.Machine
end

section
/-! SUPPORT. The claim of 60_exceptions.md about units that do not exist: the unit check comes before everything else
a command of one unit does, so what the command would do with its unit does not matter. -/

namespace Sys2Proof.Machine

theorem runCommand_withServo_missing {s : State} {u : Int} (hl : s.latch = none)
    (hu : u < 0 ∨ (s.servos.length : Int) ≤ u) (body : Servo → State → Run Result) :
    runCommand (withServo u body) s = s.takeRefusal .noSuchUnit := by
  rw [runCommand_ready hl, withServo_none _ (State.servo?_none hu), endCommand_refused]

/-- Settles O53: each command is the unit check around a body of its own, and the check refuses for every body. -/
theorem missingUnitsAreRefused : Obligations.MissingUnitsAreRefused := by
  unfold Obligations.MissingUnitsAreRefused
  refine fun s u f x y z hl => ⟨fun hu => ?_, fun hu => ?_⟩
  · have refuses := runCommand_withMotor_missing hl hu
    simp only [List.forall_mem_cons]
    exact ⟨congrArg _ (refuses _), congrArg _ (refuses _), congrArg _ (refuses _), congrArg _ (refuses _),
      List.forall_mem_nil _⟩
  · have refuses := runCommand_withServo_missing hl hu
    simp only [List.forall_mem_cons]
    exact ⟨congrArg _ (refuses _), congrArg _ (refuses _), congrArg _ (refuses _), congrArg _ (refuses _),
      congrArg _ (refuses _), congrArg _ (refuses _), List.forall_mem_nil _⟩

end Sys2Proof.Machine
end

section
/-! SUPPORT. The claim of 70_reset_and_hazards.md: what the host's reset move leaves, field by field. -/

namespace Sys2Proof.Machine

theorem step_reset {s : State} {cfg : Config} {rest : List HostMove} (h : s.host = .reset cfg :: rest) :
    step s = .next (s.popHost.resetBlock cfg) := by
  simp [step, h]

/-- Settles O6: a reset move is `State.resetBlock` on the state with its move taken; a Servo unit by whether `CAL_INIT`
gives its coefficients. -/
theorem resetMoveGivesResetValues : Obligations.ResetMoveGivesResetValues := by
  unfold Obligations.ResetMoveGivesResetValues
  intro s cfg rest h
  rw [step_reset h, State.popHost_eq h, State.resetBlock]
  congr 3 with p : 1
  split
  · rw [Servo.atReset_of_cal ‹_›]
  · rw [Servo.atReset_of_no_cal ‹_›]

end Sys2Proof.Machine
end
